-- ==== Sys2Proof/Word.lean ====
section
/-! DEFINITION. The byte and the 4-byte header as it stands on the wire (00_scope R8). -/

namespace Sys2Proof

/-- A byte is 8 bits (R8). -/
abbrev Byte := BitVec 8

/-- Four bytes in wire order, `b0` the byte at offset 0: the brace list `{b0,b1,b2,b3}` of the spec (R8, R52). -/
structure Quad where
  b0 : Byte
  b1 : Byte
  b2 : Byte
  b3 : Byte
deriving DecidableEq, Repr

/-- The byte string of a `Quad`, offset 0 first. -/
def Quad.toList (q : Quad) : List Byte := [q.b0, q.b1, q.b2, q.b3]

end Sys2Proof
end

