-- ==== Sys2Proof/Syntax.lean ====
section
/-! DEFINITION. The instructions: one constructor for each row of spec/opcode_table.json, and the two encoded forms:
the request at the host's port (30_encoding R97, R98) and the header on the wire (R80). -/

namespace Sys2Proof

/-- Which side's role magic is expected: `ROLE` 0 is CLIENT, 1 is PEER (R21, R97, D12). -/
inductive Role where
  | client
  | peer
deriving DecidableEq, Repr

/-- The 13 operations a host can request (R99). -/
inductive Op where
  | encCmdHdr
  | encBufHdr
  | decValHdr
  | relSend
  | relRecv
  | sendCmd
  | recvConfirm
  | recvBuf
  | sendBuf
  | sendU64
  | recvI32
  | recvU64
  | recvBool
deriving DecidableEq, Repr

/-- One constructor for each row of the opcode table. The first 13 are the operations of R99 with the operands they
use (R98: `SIZE` is the length of `data`, R102). The last 9 are the headers that cross the wire (R83, R94). -/
inductive Instr where
  | encCmdHdr (code : Byte)
  | encBufHdr
  | decValHdr (hdr : Quad) (role : Role)
  | relSend (data : List Byte)
  | relRecv (size : Nat)
  | sendCmd (code : Byte)
  | recvConfirm
  | recvBuf (size : Nat)
  | sendBuf (data : List Byte)
  | sendU64 (val : BitVec 64)
  | recvI32
  | recvU64
  | recvBool
  | frameSendBuffer
  | frameConfirm
  | frameGetControlData
  | frameListApps
  | frameGetActiveUser
  | frameGetCurrentApp
  | frameGetVersion
  | frameDisconnect
  | framePeer (low : Byte)
deriving DecidableEq, Repr

/-- What the host offers at the request port: the control word `HREQ` (R97) and the operands carried beside it (R98).
An operand an operation does not use is ignored. -/
structure Request where
  word : BitVec 16
  hdr  : Quad
  size : Nat
  data : List Byte
  val  : BitVec 64
deriving DecidableEq, Repr

/-- The two encoded forms. They never meet: a request word stands at the host's port, a header on the wire (R80, R97;
log 24). -/
inductive Encoded where
  | request (r : Request)
  | header (q : Quad)
deriving DecidableEq, Repr

end Sys2Proof
end

