-- ==== Sys2Proof/Machine/Operands.lean ====
section
/-! DEFINITION. Byte order, the hardwired constants and the operand assembly of 30_encoding R101. -/

namespace Sys2Proof

/-- `le(B)`: the unsigned value of a byte string read little-endian (00_scope R9). -/
def le : List Byte → Nat
  | [] => 0
  | b :: bs => b.toNat + 256 * le bs

/-- `bytes_le(v, n)`: the `n`-byte string whose byte `i` is `v[8*i+7 : 8*i]` (R9). -/
def bytesLe {w : Nat} (v : BitVec w) : Nat → List Byte
  | 0 => []
  | n + 1 => v.setWidth 8 :: bytesLe (v >>> 8) n

/-- `le32` of a header in wire order: byte 0 is the least significant (R9, R51, R52). -/
def Quad.le32 (q : Quad) : BitVec 32 := q.b3 ++ q.b2 ++ q.b1 ++ q.b0

/-- `bytes_le(v, 4)` as a header in wire order (R9, R52). -/
def Quad.ofLe32 (v : BitVec 32) : Quad :=
  ⟨v.extractLsb' 0 8, v.extractLsb' 8 8, v.extractLsb' 16 8, v.extractLsb' 24 8⟩

/-- `MAGIC_CLIENT`, hardwired (10_state R21). -/
def magicClient : BitVec 32 := 0x33221100#32

/-- `MAGIC_PEER`, hardwired (R21). -/
def magicPeer : BitVec 32 := 0x11223300#32

/-- `HDR_MASK`, hardwired (R21). -/
def hdrMask : BitVec 32 := 0xFFFFFF00#32

/-- `RoleMagic(role)` (R21). -/
def Role.magic : Role → BitVec 32
  | .client => magicClient
  | .peer => magicPeer

/-- `value[31:8]`, the top 24 bits of a 32-bit value (R8). -/
def top24 (v : BitVec 32) : BitVec 24 := v.extractLsb' 8 24

/-- `value[7:0]`, the low byte (R8). -/
def lowByte (v : BitVec 32) : Byte := v.extractLsb' 0 8

/-- A command header: `0x33221100 | zext_32(code)` (30_encoding R82, R101 (a)). -/
def commandHeader (code : Byte) : BitVec 32 := magicClient ||| code.setWidth 32

/-- A command header as it stands on the wire (R101 (a), R52). -/
def commandHeaderBytes (code : Byte) : Quad := Quad.ofLe32 (commandHeader code)

/-- The buffer header: the client magic with low byte 0x00 (R101 (b), 40_framecodec R111). -/
def bufferHeaderBytes : Quad := Quad.ofLe32 (magicClient ||| 0x00#32)

/-- A peer-originated header with this low byte (30_encoding R80, R81, R94). -/
def peerHeaderBytes (low : Byte) : Quad := Quad.ofLe32 (magicPeer ||| low.setWidth 32)

/-- The header test of 40_framecodec R113 for any expected value: the right side is not masked. -/
def headerMatches (value expected : BitVec 32) : Bool := decide (value &&& hdrMask = expected)

/-- `signed32`: the two's complement reading (R9; G1 of 93; log 16). -/
def signed32 (v : BitVec 32) : Int := v.toInt

/-- `le` of a `RECV_U64` payload as a 64-bit value (30_encoding R101 (g)). -/
def le64 (payload : List Byte) : BitVec 64 := BitVec.ofNat 64 (le payload)

/-- `RECV_BOOL`: every non-zero byte is true (R101 (h)). -/
def nonzeroByte (b : Byte) : Bool := decide (b ≠ 0x00#8)

/-- A buffer frame: the buffer header followed by the data (42_dispatch R163). -/
def bufferFrame (data : List Byte) : List Byte := bufferHeaderBytes.toList ++ data

end Sys2Proof
end

