-- ==== Sys2Proof/Config.lean ====
section
/-! DEFINITION. The parameters of FHC that the spec leaves OPEN (00_scope R5, 92 D7, 93 U14). -/

namespace Sys2Proof

/-- How far `MAX_PAYLOAD` lies above its least value. Nothing is known of it (R5, D7; log 8). -/
opaque Config.payloadHeadroom : Nat

/-- `MAX_PAYLOAD`: OPEN, a natural number, at least 4096 (R5, D7; log 8). It is used only through
`Config.payload_least`. -/
@[irreducible] def Config.maxPayload : Nat := Config.payloadHeadroom + 4096

/-- `MAX_PAYLOAD >= 4096` (R5). -/
theorem Config.payload_least : 4096 ≤ Config.maxPayload := by
  unfold Config.maxPayload
  exact Nat.le_add_left 4096 Config.payloadHeadroom

/-- The capacity of `BUF`: `4 + MAX_PAYLOAD` bytes (R24). -/
def Config.bufCapacity : Nat := Config.maxPayload + 4

/-- `LEN_W`: the smallest `w` with `4 + MAX_PAYLOAD < 2^w` (R5). -/
def Config.lenWidth : Nat := Nat.log2 Config.bufCapacity + 1

end Sys2Proof
end

