-- ==== Sys2Proof/WellFormed.lean ====
section
/-! DEFINITION. Which instructions are well formed: the bound on `SIZE` of 30_encoding R97 and R100. -/

namespace Sys2Proof

/-- `SIZE <= MAX_PAYLOAD` for the operations that use `SIZE` (R97, R98, R100); every other operand is bounded by its
type. -/
def Instr.wellFormed : Instr → Bool
  | .encCmdHdr _ => true
  | .encBufHdr => true
  | .decValHdr _ _ => true
  | .relSend data => decide (data.length ≤ Config.maxPayload)
  | .relRecv size => decide (size ≤ Config.maxPayload)
  | .sendCmd _ => true
  | .recvConfirm => true
  | .recvBuf size => decide (size ≤ Config.maxPayload)
  | .sendBuf data => decide (data.length ≤ Config.maxPayload)
  | .sendU64 _ => true
  | .recvI32 => true
  | .recvU64 => true
  | .recvBool => true
  | .frameSendBuffer => true
  | .frameConfirm => true
  | .frameGetControlData => true
  | .frameListApps => true
  | .frameGetActiveUser => true
  | .frameGetCurrentApp => true
  | .frameGetVersion => true
  | .frameDisconnect => true
  | .framePeer _ => true

end Sys2Proof
end

