-- ==== Sys2Proof/Decode.lean ====
section
/-! DEFINITION. The decoder of the two encoded forms, total and rejecting by name, and after it the encoder
(30_encoding R80 to R100). -/

namespace Sys2Proof

/-- Why the decoder gives no instruction. -/
inductive Reject where
  /-- `OPSEL` is `0xD`, `0xE` or `0xF` (R100). -/
  | reservedOpsel
  /-- One of the bits `[7:5]` is set (R97, R100). -/
  | reservedBits
  /-- `DATA` is not `SIZE` bytes long, so it is no operand of R98. -/
  | dataNotSizeBytes
  /-- The header's top 24 bits are no role magic (R81). -/
  | noFrameMagic
  /-- A client header whose command code is unassigned: no row of the table (R95). -/
  | unassignedCode
deriving DecidableEq, Repr

/-- The operation selector of an operation (R99). -/
def Op.code : Op → BitVec 4
  | .encCmdHdr => 0x0#4
  | .encBufHdr => 0x1#4
  | .decValHdr => 0x2#4
  | .relSend => 0x3#4
  | .relRecv => 0x4#4
  | .sendCmd => 0x5#4
  | .recvConfirm => 0x6#4
  | .recvBuf => 0x7#4
  | .sendBuf => 0x8#4
  | .sendU64 => 0x9#4
  | .recvI32 => 0xA#4
  | .recvU64 => 0xB#4
  | .recvBool => 0xC#4

/-- All 13 operations, in the order of their selectors (R99). -/
def Op.all : List Op :=
  [.encCmdHdr, .encBufHdr, .decValHdr, .relSend, .relRecv, .sendCmd, .recvConfirm, .recvBuf, .sendBuf, .sendU64,
    .recvI32, .recvU64, .recvBool]

/-- The operation a selector names; `0xD`, `0xE`, `0xF` name none (R99, R100). -/
def Op.ofCode (c : BitVec 4) : Option Op := Op.all.find? (fun o => o.code == c)

/-- The role `ROLE` numbers (R97). -/
def Role.ofBit (b : BitVec 1) : Role := if b = 0#1 then .client else .peer

/-- The number of a role (R97). -/
def Role.bit : Role → BitVec 1
  | .client => 0#1
  | .peer => 1#1

/-- `OPSEL`, bits `[3:0]` of the control word (R97). -/
def Request.opsel (r : Request) : BitVec 4 := r.word.extractLsb' 0 4

/-- `ROLE`, bit `[4]` (R97). -/
def Request.role (r : Request) : BitVec 1 := r.word.extractLsb' 4 1

/-- Bits `[7:5]`, which must be 0 (R97). -/
def Request.reserved (r : Request) : BitVec 3 := r.word.extractLsb' 5 3

/-- `CODE`, bits `[15:8]` (R97). -/
def Request.code (r : Request) : Byte := r.word.extractLsb' 8 8

/-- The operands an operation uses, taken from a request (R98, R99). `DATA` must be `SIZE` bytes (R98). -/
def Op.instr (o : Op) (r : Request) : Except Reject Instr :=
  match o with
  | .encCmdHdr => .ok (.encCmdHdr r.code)
  | .encBufHdr => .ok .encBufHdr
  | .decValHdr => .ok (.decValHdr r.hdr (Role.ofBit r.role))
  | .relSend => if r.data.length = r.size then .ok (.relSend r.data) else .error .dataNotSizeBytes
  | .relRecv => .ok (.relRecv r.size)
  | .sendCmd => .ok (.sendCmd r.code)
  | .recvConfirm => .ok .recvConfirm
  | .recvBuf => .ok (.recvBuf r.size)
  | .sendBuf => if r.data.length = r.size then .ok (.sendBuf r.data) else .error .dataNotSizeBytes
  | .sendU64 => .ok (.sendU64 r.val)
  | .recvI32 => .ok .recvI32
  | .recvU64 => .ok .recvU64
  | .recvBool => .ok .recvBool

/-- The instruction of a request (R97, R99, R100). -/
def decodeRequest (r : Request) : Except Reject Instr :=
  if r.reserved ≠ 0#3 then .error .reservedBits
  else
    match Op.ofCode r.opsel with
    | some o => o.instr r
    | none => .error .reservedOpsel

/-- The command frame of a code: the eight assigned codes of R83 have a row, no other has (R95). -/
def decodeCommandCode (code : Byte) : Except Reject Instr :=
  if code = 0x00#8 then .ok .frameSendBuffer
  else if code = 0x01#8 then .ok .frameConfirm
  else if code = 0x02#8 then .ok .frameGetControlData
  else if code = 0x03#8 then .ok .frameListApps
  else if code = 0x04#8 then .ok .frameGetActiveUser
  else if code = 0x05#8 then .ok .frameGetCurrentApp
  else if code = 0x06#8 then .ok .frameGetVersion
  else if code = 0xFF#8 then .ok .frameDisconnect
  else .error .unassignedCode

/-- The instruction of a header on the wire (R80, R81, R83, R94). -/
def decodeHeader (q : Quad) : Except Reject Instr :=
  if top24 q.le32 = 0x112233#24 then .ok (.framePeer (lowByte q.le32))
  else if top24 q.le32 = 0x332211#24 then decodeCommandCode (lowByte q.le32)
  else .error .noFrameMagic

/-- The decoder: total on both encoded forms. -/
def decode : Encoded → Except Reject Instr
  | .request r => decodeRequest r
  | .header q => decodeHeader q

/-- The control word with these fields and the reserved bits 0 (R97). -/
def controlWord (o : Op) (role : BitVec 1) (code : Byte) : BitVec 16 := code ++ 0#3 ++ role ++ o.code

/-- The zero header, for a request whose operation does not use `HDR`. -/
def Quad.zero : Quad := ⟨0x00#8, 0x00#8, 0x00#8, 0x00#8⟩

/-- A request for an operation, with every operand it does not use zero. -/
def Op.request (o : Op) (code : Byte := 0x00#8) (role : Role := .client) (hdr : Quad := Quad.zero) (size : Nat := 0)
    (data : List Byte := []) (val : BitVec 64 := 0#64) : Encoded :=
  .request ⟨controlWord o role.bit code, hdr, size, data, val⟩

/-- The encoder: the request or the header of an instruction, written from the tables of R83, R94 and R99. -/
def encode : Instr → Encoded
  | .encCmdHdr code => Op.encCmdHdr.request (code := code)
  | .encBufHdr => Op.encBufHdr.request
  | .decValHdr hdr role => Op.decValHdr.request (role := role) (hdr := hdr)
  | .relSend data => Op.relSend.request (size := data.length) (data := data)
  | .relRecv size => Op.relRecv.request (size := size)
  | .sendCmd code => Op.sendCmd.request (code := code)
  | .recvConfirm => Op.recvConfirm.request
  | .recvBuf size => Op.recvBuf.request (size := size)
  | .sendBuf data => Op.sendBuf.request (size := data.length) (data := data)
  | .sendU64 val => Op.sendU64.request (val := val)
  | .recvI32 => Op.recvI32.request
  | .recvU64 => Op.recvU64.request
  | .recvBool => Op.recvBool.request
  | .frameSendBuffer => .header (Quad.ofLe32 0x33221100#32)
  | .frameConfirm => .header (Quad.ofLe32 0x33221101#32)
  | .frameGetControlData => .header (Quad.ofLe32 0x33221102#32)
  | .frameListApps => .header (Quad.ofLe32 0x33221103#32)
  | .frameGetActiveUser => .header (Quad.ofLe32 0x33221104#32)
  | .frameGetCurrentApp => .header (Quad.ofLe32 0x33221105#32)
  | .frameGetVersion => .header (Quad.ofLe32 0x33221106#32)
  | .frameDisconnect => .header (Quad.ofLe32 0x332211FF#32)
  | .framePeer low => .header ⟨low, 0x33#8, 0x22#8, 0x11#8⟩

/-- A row of the table with up to 16 bits is a request whose side operands are zero; a longer row is a header on the
wire, least significant byte first (log 21, log 24). -/
def tableEncoded (nbits w : Nat) : Encoded :=
  if nbits ≤ 16 then .request ⟨BitVec.ofNat 16 w, Quad.zero, 0, [], 0#64⟩
  else .header (Quad.ofLe32 (BitVec.ofNat 32 w))

/-- The instruction the decoder reads from a word of the opcode table, bit 0 its least significant. -/
def decodeTableWord (nbits w : Nat) : Option Instr :=
  match decode (tableEncoded nbits w) with
  | .ok i => some i
  | .error _ => none

end Sys2Proof
end

