-- ==== Sys2Proof/Machine/State.lean ====
section
/-! DEFINITION. The state: FHC's registers (10_state R20 to R29), the transport's part of it (R33) and the outside
world's coming moves as lists (00_scope R6, R7), the reasons a step stops, and reset (R36). -/

namespace Sys2Proof.Machine

/-- `STATUS`, with these five values and no others (R22). -/
inductive Status where
  | idle
  | busy
  | doneOk
  | errTransport
  | errProtocol
deriving DecidableEq, Repr

/-- The registers the host may read (R35). -/
inductive HostReg where
  | status
  | errObs
  | errExp
  | resHdr
  | resLow
  | resData
  | resI32
  | resU64
  | resBool
deriving DecidableEq, Repr

/-- What a read by the host gives (R22, R28, R29). -/
inductive HostValue where
  | status (code : BitVec 3)
  | top24 (v : BitVec 24)
  | header (q : Quad)
  | byte (b : Byte)
  | data (bytes : List Byte)
  | signed (i : Int)
  | word64 (v : BitVec 64)
  | truth (b : Bool)
deriving DecidableEq, Repr

/-- One thing the host does at its port (R35): it reads a register or offers a request (R97). -/
inductive HostAct where
  | read (r : HostReg)
  | request (r : Request)
deriving DecidableEq, Repr

/-- One thing the transport does. `progress r d` is the answer of R55 and R56: the signed count, and on receive the
bytes. `header q` is an answer of four that carries one whole frame header across the port (log 6). `late i k d` moves
`k` more bytes of the `i`-th attempt that a reset orphaned (R231, U10; log 13). -/
inductive TransportAct where
  | progress (r : Int) (data : List Byte)
  | header (q : Quad)
  | late (which count : Nat) (data : List Byte)
deriving DecidableEq, Repr

/-- An attempt that was outstanding when reset came: what it still offers, or how many bytes it still asks (R231). -/
inductive Orphan where
  | tx (offered : List Byte)
  | rx (asked : Nat)
deriving DecidableEq, Repr

/-- Which agent moves at a step (R6, R7). -/
inductive Turn where
  | reset
  | host
  | transport
  | fhc
deriving DecidableEq, Repr

/-- The valid bits of the result registers (R29). -/
structure ValidBits where
  hdr  : Bool
  low  : Bool
  data : Bool
  i32  : Bool
  u64  : Bool
  bool : Bool
deriving DecidableEq, Repr

/-- All valid bits cleared (R29, R36). -/
def ValidBits.none : ValidBits := ⟨false, false, false, false, false, false⟩

/-- The contents of `BUF` (R24): the written bytes, addresses strictly rising. An unlisted address has no value:
nothing has written it since the buffer was last made fresh (D14, D26; log 10). -/
abbrev Memory := List Host.Cell

/-- Why the machine stops with a fault. -/
inductive Fault where
  /-- The host reads a register that is not valid: a fault of the host (R29, U7, U8). Raised by a host's turn. Safe. -/
  | invalidRead (r : HostReg)
  /-- `BUF` is read at an offset no byte was written to since it was made fresh (R24). Raised by `State.bufLoad`; no
  state of `Invariants` raises it. Safe. -/
  | bufUnwritten (offset : Nat)
  /-- `BUF` is accessed beyond its capacity (R24, R50). Raised by `State.bufLoad` and `State.bufStore`; no state of
  `Invariants` raises it. Safe. -/
  | bufOutOfRange (offset : Nat)
deriving DecidableEq, Repr

/-- Why the model gives a step no meaning. -/
inductive Refusal where
  /-- An instruction without a meaning yet. Raised by no arm. Safe. -/
  | notModelled (mnemonic : String)
  /-- A malformed request, refused at the port (R100, U12). Raised by a host's turn. Safe. -/
  | malformedRequest (why : Reject)
  /-- `SIZE > MAX_PAYLOAD`, refused at the port (R100, U12). Raised by the acceptance of `REL_SEND`, `REL_RECV`,
  `RECV_BUF` and `SEND_BUF`. Safe. -/
  | oversizePayload (size : Nat)
  /-- An answer greater than the count asked, outside the port's contract (R55, R56, U3). Raised by the answer step.
  Safe. -/
  | answerBeyondCount (r : Int)
  /-- A positive receive answer whose bytes are not as many as it says, outside the contract (R56). Raised by the
  answer step. Safe. -/
  | answerNotCountBytes (r : Int)
  /-- A header said to leave on the wire that is not what the outstanding attempt offers, outside the contract (R55).
  Raised by a header's crossing. Safe. -/
  | headerNotOffered (q : Quad)
  /-- A late move that is more than the orphaned attempt offers or asks, or of no such attempt (R231, U10), or one of a
  receive whose bytes are not as many as it says (log 13). Raised by a transport's turn. Safe. -/
  | lateBeyondOrphan (which count : Nat)
deriving DecidableEq, Repr

/-- The machine's state. -/
structure State where
  /-- `STATUS` (R22). -/
  status : Status
  /-- `OP`, the latched selector (R23). -/
  op : BitVec 4
  /-- `ARG_CODE` (R23). -/
  argCode : Byte
  /-- `ARG_ROLE` (R23). -/
  argRole : Role
  /-- `ARG_HDR` (R23). -/
  argHdr : Quad
  /-- `ARG_SIZE` (R23). -/
  argSize : Nat
  /-- `ARG_VAL` (R23). -/
  argVal : BitVec 64
  /-- `BUF` (R24). -/
  buf : Memory
  /-- `LEN` (R25). -/
  len : Nat
  /-- `CNT` (R26). -/
  cnt : Nat
  /-- `PEND` (R27). -/
  pend : Bool
  /-- `ERR_OBS` (R28). -/
  errObs : BitVec 24
  /-- `ERR_EXP` (R28). -/
  errExp : BitVec 24
  /-- `RES_HDR` (R29). -/
  resHdr : Quad
  /-- `RES_LOW` (R29). -/
  resLow : Byte
  /-- `RES_LEN`, the length of the `RES_DATA` window (R29). -/
  resLen : Nat
  /-- `RES_I32`, its 32 bits; the host reads them signed (R29). -/
  resI32 : BitVec 32
  /-- `RES_U64` (R29). -/
  resU64 : BitVec 64
  /-- `RES_BOOL` (R29). -/
  resBool : Bool
  /-- The valid bits of the result registers (R29). -/
  valid : ValidBits
  /-- `TXS`: everything the transport has accepted (R33). -/
  txs : List Byte
  /-- `RXS`: everything the transport has delivered (R33). -/
  rxs : List Byte
  /-- The attempts resets have orphaned, oldest first (R231, U10; log 13). -/
  orphans : List Orphan
  /-- What the transport has consumed from the stream for orphaned receives: delivered to nobody (R231, U10; log 17). -/
  rxLost : List Byte
  /-- What the host does next, oldest first (log 4). -/
  hostIn : List HostAct
  /-- What the transport does next, oldest first (U1, U2; log 4). -/
  transportIn : List TransportAct
  /-- Who moves at the next steps; when it is empty the order of log 2 holds. -/
  turns : List Turn
  /-- The value the host's last read gave (R35; log 12). -/
  hostSaw : Option HostValue
deriving DecidableEq, Repr

/-- The machine right after reset (R36): `STATUS`, `PEND`, `LEN`, `CNT` and the valid bits as the spec says; the
registers it leaves unspecified are zero by DESIGN CHOICE (log 9); no byte of `BUF` has a value (log 10); the
connection has moved nothing and no agent has a move waiting. -/
def State.reset : State where
  status := .idle
  op := 0x0#4
  argCode := 0x00#8
  argRole := .client
  argHdr := Quad.zero
  argSize := 0
  argVal := 0#64
  buf := []
  len := 0
  cnt := 0
  pend := false
  errObs := 0#24
  errExp := 0#24
  resHdr := Quad.zero
  resLow := 0x00#8
  resLen := 0
  resI32 := 0#32
  resU64 := 0#64
  resBool := false
  valid := ValidBits.none
  txs := []
  rxs := []
  orphans := []
  rxLost := []
  hostIn := []
  transportIn := []
  turns := []
  hostSaw := none

/-- What a step or a meaning answers. -/
abbrev Result := Host.Outcome State Fault Refusal

end Sys2Proof.Machine
end

