-- ==== Sys2Proof/Machine/Flags.lean ====
section
/-! DEFINITION. The status computations: the number of `STATUS` (10_state R22) and the valid bits (R29). FHC has no carry,
zero, sign or overflow flag (R22). -/

namespace Sys2Proof.Machine

/-- The three bits of `STATUS` (R22, D6). -/
def Status.code : Status → BitVec 3
  | .idle => 0#3
  | .busy => 1#3
  | .doneOk => 2#3
  | .errTransport => 3#3
  | .errProtocol => 4#3

/-- Some valid bit is 1. -/
def ValidBits.any (v : ValidBits) : Bool := v.hdr || v.low || v.data || v.i32 || v.u64 || v.bool

/-- The error kinds and what they record (60_exceptions R200 to R202). -/
inductive ErrorKind where
  | transport
  | protocol (obs exp : BitVec 24)
deriving DecidableEq, Repr

/-- The `STATUS` value that reports an error (R200). -/
def ErrorKind.status : ErrorKind → Status
  | .transport => .errTransport
  | .protocol _ _ => .errProtocol

end Sys2Proof.Machine
end

