-- ==== Sys2Proof/Machine/Ops.lean ====
section
/-! DEFINITION. The shared operations: the frame buffer, taking an error and ending an operation, acceptance, the steps of
the attempt loop, the header test, the host's reads and reset. -/

namespace Sys2Proof.Machine

/-! ## The agents' coming moves (log 2, log 4) -/

/-- The turns still laid down. -/
def State.setTurns (s : State) (ts : List Turn) : State := { s with turns := ts }

/-- What the host still does. -/
def State.setHostIn (s : State) (acts : List HostAct) : State := { s with hostIn := acts }

/-- What the transport still does. -/
def State.setTransportIn (s : State) (acts : List TransportAct) : State := { s with transportIn := acts }

/-! ## The frame buffer (20_memory R50) -/

/-- The byte at an offset, if one was written. -/
def Memory.get : Memory → Nat → Option Byte
  | [], _ => none
  | c :: cs, a => if c.1 = a then some c.2 else Memory.get cs a

/-- Write one byte, keeping the addresses strictly rising. -/
def Memory.set : Memory → Nat → Byte → Memory
  | [], a, b => [(a, b)]
  | c :: cs, a, b =>
    if a < c.1 then (a, b) :: c :: cs
    else if a = c.1 then (a, b) :: cs
    else c :: Memory.set cs a b

/-- The canonical form from an address on: the addresses rise strictly and none lies below `lo`. -/
def Memory.wfFrom : Nat → Memory → Bool
  | _, [] => true
  | lo, c :: cs => decide (lo ≤ c.1) && Memory.wfFrom (c.1 + 1) cs

/-- The canonical form of a memory: its addresses rise strictly. -/
def Memory.wf (m : Memory) : Bool := Memory.wfFrom 0 m

/-- `MemRead(a, n)` (00_scope R9): the `n` bytes from `a`, if all were written. -/
def Memory.readBytes (m : Memory) : Nat → Nat → Option (List Byte)
  | _, 0 => some []
  | a, n + 1 =>
    match m.get a, Memory.readBytes m (a + 1) n with
    | some b, some bs => some (b :: bs)
    | _, _ => none

/-- `MemWrite(a, n, v)` (R9): the byte string `v` from `a` on. -/
def Memory.writeBytes (m : Memory) : Nat → List Byte → Memory
  | _, [] => m
  | a, b :: bs => Memory.writeBytes (m.set a b) (a + 1) bs

/-- A fresh buffer that holds a byte string from offset 0 (D26). -/
def Memory.ofBytes (bytes : List Byte) : Memory := Memory.writeBytes [] 0 bytes

/-- `n <= MAX_PAYLOAD`. `MAX_PAYLOAD` is at least 4096 (R5), so up to there its value does not matter. -/
def fitsPayload (n : Nat) : Bool := decide (n ≤ 4096) || decide (n ≤ Config.maxPayload)

/-- The first `n` offsets lie in `BUF` (R24); its capacity is at least 4100. -/
def fitsBuf (n : Nat) : Bool := decide (n ≤ 4100) || decide (n ≤ Config.bufCapacity)

/-- Read `BUF[a .. a+n)`; beyond the capacity and on an unwritten byte a fault (R24, R50; log 10). -/
def State.bufLoad (s : State) (a n : Nat) : Except Fault (List Byte) :=
  if fitsBuf (a + n) then
    match s.buf.readBytes a n with
    | some bytes => .ok bytes
    | none => .error (.bufUnwritten a)
  else .error (.bufOutOfRange (a + n))

/-- Write a byte string to `BUF` from offset `a`; beyond the capacity a fault (R24, R50). -/
def State.bufStore (s : State) (a : Nat) (bytes : List Byte) : Except Fault State :=
  if fitsBuf (a + bytes.length) then .ok { s with buf := s.buf.writeBytes a bytes }
  else .error (.bufOutOfRange (a + bytes.length))

/-- Four bytes of `BUF` from offset `a` (R52). -/
def State.bufQuad (s : State) (a : Nat) : Except Fault Quad :=
  match s.bufLoad a 4 with
  | .ok [b0, b1, b2, b3] => .ok ⟨b0, b1, b2, b3⟩
  | .ok _ => .error (.bufUnwritten a)
  | .error f => .error f

/-! ## Taking an error, and the end of an operation

Taking an error is the one operation `State.raise`. FHC has no return from an error (60_exceptions R208): the next
acceptance, `State.accept`, is the only continuation. -/

/-- Error entry (R206): `STATUS` takes the error value, `PEND <- 0`, a ProtocolError writes `ERR_OBS` and `ERR_EXP`;
`CNT`, `BUF`, `LEN`, `OP`, the latched operands and the valid bits stay, and no control is transferred. -/
def State.raise (s : State) : ErrorKind → State
  | .transport => { s with status := ErrorKind.transport.status, pend := false }
  | .protocol obs exp =>
    { s with status := (ErrorKind.protocol obs exp).status, pend := false, errObs := obs, errExp := exp }

/-- `return`: the operation ends with `STATUS <- DONE_OK` (00_scope R9). -/
def State.complete (s : State) : State := { s with status := .doneOk }

/-- Acceptance (30_encoding R97): the selector is latched, every valid bit cleared, `CNT <- 0`, `PEND <- 0`,
`STATUS <- BUSY`, and `LEN <- n`. The latched request is re-initialised (10_state R20, R23, D4): the operand registers, of
which each operation then latches those it uses, are put back at their reset values (log 11). `BUF` is set by the
operations that move bytes; the codec operations leave it untouched (R110). -/
def State.accept (s : State) (o : Op) (n : Nat) : State :=
  { s with
    op := o.code, argCode := State.reset.argCode, argRole := State.reset.argRole, argHdr := State.reset.argHdr,
    argSize := State.reset.argSize, argVal := State.reset.argVal, valid := ValidBits.none, cnt := 0, pend := false,
    status := .busy, len := n }

/-! ## The attempt loop (41_transportio R132 to R135) -/

/-- The direction of a transfer. -/
inductive Dir where
  | tx
  | rx
deriving DecidableEq, Repr

/-- `dir(OP)` (41_transportio, before R132); the codec operations transfer nothing. -/
def dirOf : Op → Option Dir
  | .encCmdHdr => none
  | .encBufHdr => none
  | .decValHdr => none
  | .relSend => some .tx
  | .relRecv => some .rx
  | .sendCmd => some .tx
  | .recvConfirm => some .rx
  | .recvBuf => some .rx
  | .sendBuf => some .tx
  | .sendU64 => some .tx
  | .recvI32 => some .rx
  | .recvU64 => some .rx
  | .recvBool => some .rx

/-- The direction of the latched operation. -/
def State.dir (s : State) : Option Dir :=
  match Op.ofCode s.op with
  | some o => dirOf o
  | none => none

/-- Issue step (R132): the attempt `(dir(OP), off = CNT, cnt = LEN - CNT)` becomes outstanding. -/
def State.issue (s : State) : State := { s with pend := true }

/-- The operation's answer step left `r` bytes further on (R133, R134). -/
def State.advance (s : State) (r : Nat) : State := { s with cnt := s.cnt + r, pend := false }

/-- Answer step for a send (R133). -/
def State.answerTx (s : State) (r : Int) : Result :=
  if r ≤ 0 then .next (s.raise .transport)
  else if ((s.len - s.cnt : Nat) : Int) < r then .refused (.answerBeyondCount r)
  else
    match s.bufLoad s.cnt r.toNat with
    | .ok bytes => .next ({ s with txs := s.txs ++ bytes }.advance r.toNat)
    | .error f => .fault f

/-- Answer step for a receive (R134). -/
def State.answerRx (s : State) (r : Int) (data : List Byte) : Result :=
  if r ≤ 0 then .next (s.raise .transport)
  else if ((s.len - s.cnt : Nat) : Int) < r then .refused (.answerBeyondCount r)
  else if (data.length : Int) ≠ r then .refused (.answerNotCountBytes r)
  else
    match { s with rxs := s.rxs ++ data }.bufStore s.cnt data with
    | .ok t => .next (t.advance r.toNat)
    | .error f => .fault f

/-- The transport answers the outstanding attempt (R133, R134). With no attempt outstanding neither rule is enabled:
nothing changes (60_exceptions R204). -/
def State.answer (s : State) (r : Int) (data : List Byte) : Result :=
  if s.pend = false then .next s
  else
    match s.dir with
    | some .tx => s.answerTx r
    | some .rx => s.answerRx r data
    | none => .next s

/-- The steps of an operation that moves bytes. A request is accepted when nothing is in flight (R97). When this
operation is in flight and its turn comes, it issues the next attempt (R132) or, with `CNT = LEN`, finishes (R135);
while an attempt is outstanding (R27), and while another operation is in flight (R97), it waits (log 1). -/
def transferStep (o : Op) (accept finish : State → Result) (s : State) : Result :=
  if s.status ≠ .busy then accept s
  else if s.op ≠ o.code ∨ s.pend = true then .next s
  else if s.cnt < s.len then .next s.issue
  else if s.cnt = s.len then finish s
  else .next s

/-- A codec operation completes in the step that accepts it (40_framecodec R115); `LEN = CNT = 0` (R25, R110). While
another operation is in flight it waits (R97). -/
def codecStep (o : Op) (run : State → State) (s : State) : Result :=
  if s.status ≠ .busy then .next (run (s.accept o 0)) else .next s

/-- Acceptance of an operation that uses `SIZE` (R97): `SIZE` is latched, or the request is refused (R100). -/
def acceptSized (size : Nat) (accept : State → State) (s : State) : Result :=
  if fitsPayload size then .next { accept s with argSize := size } else .refused (.oversizePayload size)

/-- The acceptance of a send: the frame is built whole in a fresh `BUF` (42_dispatch R169), `LEN` is its length. -/
def State.acceptSend (s : State) (o : Op) (frame : List Byte) : State :=
  { s.accept o frame.length with buf := Memory.ofBytes frame }

/-- The acceptance of a receive: `LEN` bytes are awaited in a fresh `BUF` (R24, D26; log 10). -/
def State.acceptReceive (s : State) (o : Op) (n : Nat) : State := { s.accept o n with buf := [] }

/-- The finish of a send: nothing but `DONE_OK` (R135). -/
def finishSend (s : State) : Result := .next s.complete

/-! ## The header test (40_framecodec R112, 42_dispatch R169) -/

/-- Check a header against a role: go on when it matches, else ProtocolError with the observed and expected top 24
bits (R112, R202). -/
def State.validate (s : State) (q : Quad) (role : Role) (ok : State → State) : State :=
  if headerMatches q.le32 role.magic then ok s
  else s.raise (.protocol (top24 q.le32) (top24 role.magic))

/-- The finish of a sequencer's receive (R135, R169): the whole frame is in `BUF`; its header is validated against the
peer role, then the payload, as `read` takes it from `BUF`, is delivered. -/
def finishReceive {α : Type} (read : State → Except Fault α) (deliver : State → α → State) (s : State) : Result :=
  match s.bufQuad 0, read s with
  | .ok q, .ok payload => .next (s.validate q .peer (fun t => (deliver t payload).complete))
  | .error f, _ => .fault f
  | .ok _, .error f => .fault f

/-! ## A whole header crossing the transport port (30_encoding R84 to R94; log 6) -/

/-- The transport answers the outstanding attempt with the four bytes of this header: a send's next four offered bytes
are accepted (R133), a receive's next four bytes are delivered (R134). A send that does not offer them cannot have
them accepted (R55). -/
def State.crossHeader (s : State) (q : Quad) : Result :=
  if s.pend = true ∧ s.dir = some .tx ∧ s.buf.readBytes s.cnt 4 ≠ some q.toList then .refused (.headerNotOffered q)
  else s.answer 4 q.toList

/-! ## The host's reads (10_state R35) -/

/-- The offset in `BUF` where the `RES_DATA` window begins: 0 for `REL_RECV`, 4 for `RECV_BUF` (R29). -/
def State.dataBase (s : State) : Nat := if s.op = Op.relRecv.code then 0 else 4

/-- A value, or a fault of the host when the register is not valid (R29, U7, U8). -/
def readIf (ok : Bool) (r : HostReg) (v : Except Fault HostValue) : Except Fault HostValue :=
  if ok then v else .error (.invalidRead r)

/-- What the host reads: `STATUS` at any time, `ERR_OBS` and `ERR_EXP` under `ERR_PROTOCOL`, a result register when
its valid bit is 1 (R35). -/
def State.hostRead (s : State) (r : HostReg) : Except Fault HostValue :=
  match r with
  | .status => .ok (.status s.status.code)
  | .errObs => readIf (decide (s.status = .errProtocol)) r (.ok (.top24 s.errObs))
  | .errExp => readIf (decide (s.status = .errProtocol)) r (.ok (.top24 s.errExp))
  | .resHdr => readIf s.valid.hdr r (.ok (.header s.resHdr))
  | .resLow => readIf s.valid.low r (.ok (.byte s.resLow))
  | .resData => readIf s.valid.data r ((s.bufLoad s.dataBase s.resLen).map .data)
  | .resI32 => readIf s.valid.i32 r (.ok (.signed (signed32 s.resI32)))
  | .resU64 => readIf s.valid.u64 r (.ok (.word64 s.resU64))
  | .resBool => readIf s.valid.bool r (.ok (.truth s.resBool))

/-! ## Reset (70_reset_and_hazards R230, R231) and the attempts it orphans -/

/-- The attempt a reset would orphan, if one is outstanding (R231, U10). -/
def State.orphanNow (s : State) : List Orphan :=
  if s.pend = false then []
  else
    match s.dir with
    | some .tx => [.tx ((s.buf.readBytes s.cnt (s.len - s.cnt)).getD [])]
    | some .rx => [.rx (s.len - s.cnt)]
    | none => []

/-- Reset (R230, R36): every register of FHC at its reset value. The transport is not touched: `TXS` and `RXS` stay,
and an outstanding attempt is left behind, its fate unknown (R231; log 13). -/
def State.platformReset (s : State) : State :=
  { State.reset with
    txs := s.txs, rxs := s.rxs, orphans := s.orphans ++ s.orphanNow, rxLost := s.rxLost,
    hostIn := s.hostIn, transportIn := s.transportIn, turns := s.turns, hostSaw := s.hostSaw }

/-- The transport goes on to move `k` bytes of an orphaned attempt (R231, U10): accepted bytes enter `TXS`, since the
transport has accepted them from FHC (R33). Consumed bytes are lost: no attempt is outstanding, so none is delivered to
FHC, and `RXS`, which only R134 extends, stays (R33, R34; log 17). FHC's own state does not change. -/
def State.lateMove (s : State) (which k : Nat) (data : List Byte) : Result :=
  match s.orphans[which]? with
  | some (.tx offered) =>
    if k ≤ offered.length then
      .next { s with txs := s.txs ++ offered.take k, orphans := s.orphans.set which (.tx (offered.drop k)) }
    else .refused (.lateBeyondOrphan which k)
  | some (.rx asked) =>
    if k ≤ asked ∧ data.length = k then
      .next { s with rxLost := s.rxLost ++ data, orphans := s.orphans.set which (.rx (asked - k)) }
    else .refused (.lateBeyondOrphan which k)
  | none => .refused (.lateBeyondOrphan which k)

end Sys2Proof.Machine
end

