-- ==== Sys2Proof/Machine/TransportIO.lean ====
section
/-! DEFINITION. The stream reassembly operations (41_transportio R130, R131). -/

namespace Sys2Proof.Machine

/-- `REL_SEND {bytes}` (R130): `BUF[0..n) <- DATA`, `LEN <- n`. -/
def execRelSend (data : List Byte) (s : State) : Result :=
  transferStep .relSend (acceptSized data.length (fun t => t.acceptSend .relSend data)) finishSend s

/-- `RES_DATA <- BUF[base .. LEN); RES_LEN <- n` (R131, 42_dispatch R162): the window is opened, nothing is copied. -/
def State.deliverData (s : State) (n : Nat) : State :=
  { s with resLen := n, valid := { s.valid with data := true } }

/-- The finish of `REL_RECV` (R131, R135): all `LEN` bytes, whatever they are. -/
def finishRelRecv (s : State) : Result := .next (s.deliverData s.len).complete

/-- `REL_RECV n` (R131): `LEN <- n`. -/
def execRelRecv (size : Nat) (s : State) : Result :=
  transferStep .relRecv (acceptSized size (fun t => t.acceptReceive .relRecv size)) finishRelRecv s

end Sys2Proof.Machine
end

