-- ==== Sys2Proof/Machine/CommandDispatcher.lean ====
section
/-! DEFINITION. The sequencer operations (42_dispatch R160 to R169). -/

namespace Sys2Proof.Machine

/-- `SEND_CMD code` (R160): the four header bytes are the frame. -/
def execSendCmd (code : Byte) (s : State) : Result :=
  transferStep .sendCmd
    (fun t => .next { t.acceptSend .sendCmd (commandHeaderBytes code).toList with argCode := code }) finishSend s

/-- `RECV_CONFIRM` (R161): `LEN <- 4`; the low byte is discarded. -/
def execRecvConfirm (s : State) : Result :=
  transferStep .recvConfirm (fun t => .next (t.acceptReceive .recvConfirm 4))
    (finishReceive (fun _ => .ok ()) (fun t _ => t)) s

/-- `RECV_BUF n` (R162): `LEN <- 4 + n`; the payload `BUF[4 .. 4+n)` is delivered through the window. -/
def execRecvBuf (size : Nat) (s : State) : Result :=
  transferStep .recvBuf (acceptSized size (fun t => t.acceptReceive .recvBuf (4 + size)))
    (finishReceive (fun _ => .ok ()) (fun t _ => t.deliverData t.argSize)) s

/-- `SEND_BUF {bytes}` (R163): the buffer header, then the data, as one frame. -/
def execSendBuf (data : List Byte) (s : State) : Result :=
  transferStep .sendBuf (acceptSized data.length (fun t => t.acceptSend .sendBuf (bufferFrame data))) finishSend s

/-- `SEND_U64 value` (R164): a buffer frame of the value's eight little-endian bytes. -/
def execSendU64 (val : BitVec 64) (s : State) : Result :=
  transferStep .sendU64
    (fun t => .next { t.acceptSend .sendU64 (bufferFrame (bytesLe val 8)) with argVal := val }) finishSend s

/-- `RES_I32 <- signed32(le32(P))` (R165). -/
def State.deliverI32 (s : State) (payload : Quad) : State :=
  { s with resI32 := payload.le32, valid := { s.valid with i32 := true } }

/-- `RECV_I32` (R165): as `RECV_BUF 4`, then the payload is decoded. -/
def execRecvI32 (s : State) : Result :=
  transferStep .recvI32 (fun t => .next (t.acceptReceive .recvI32 8))
    (finishReceive (fun t => t.bufQuad 4) State.deliverI32) s

/-- `RES_U64 <- le(P)` (R166). -/
def State.deliverU64 (s : State) (payload : List Byte) : State :=
  { s with resU64 := le64 payload, valid := { s.valid with u64 := true } }

/-- `RECV_U64` (R166): as `RECV_BUF 8`, then the payload is decoded. -/
def execRecvU64 (s : State) : Result :=
  transferStep .recvU64 (fun t => .next (t.acceptReceive .recvU64 12))
    (finishReceive (fun t => t.bufLoad 4 8) State.deliverU64) s

/-- `RES_BOOL <- (BUF[4] != 0x00)` (R167). -/
def State.deliverBool (s : State) (payload : List Byte) : State :=
  { s with resBool := payload.any nonzeroByte, valid := { s.valid with bool := true } }

/-- `RECV_BOOL` (R167): as `RECV_BUF 1`, then the payload's one byte is decoded. -/
def execRecvBool (s : State) : Result :=
  transferStep .recvBool (fun t => .next (t.acceptReceive .recvBool 5))
    (finishReceive (fun t => t.bufLoad 4 1) State.deliverBool) s

end Sys2Proof.Machine
end

