-- ==== Sys2Proof/Machine/FrameCodec.lean ====
section
/-! DEFINITION. The header codec operations (40_framecodec R110 to R115). -/

namespace Sys2Proof.Machine

/-- `RES_HDR <- h; return` (R110, R111). -/
def State.deliverHeader (s : State) (q : Quad) : State :=
  { s with resHdr := q, valid := { s.valid with hdr := true } }.complete

/-- `ENC_CMD_HDR code` (R110). -/
def execEncCmdHdr (code : Byte) (s : State) : Result :=
  codecStep .encCmdHdr (fun t => { t with argCode := code }.deliverHeader (commandHeaderBytes code)) s

/-- `ENC_BUF_HDR` (R111). -/
def execEncBufHdr (s : State) : Result :=
  codecStep .encBufHdr (fun t => t.deliverHeader bufferHeaderBytes) s

/-- `RES_LOW <- value[7:0]; return` (R112). -/
def State.deliverLow (s : State) (low : Byte) : State :=
  { s with resLow := low, valid := { s.valid with low := true } }.complete

/-- `DEC_VAL_HDR hdr, role` (R112). -/
def execDecValHdr (hdr : Quad) (role : Role) (s : State) : Result :=
  codecStep .decValHdr
    (fun t => { t with argHdr := hdr, argRole := role }.validate hdr role (fun u => u.deliverLow (lowByte hdr.le32))) s

end Sys2Proof.Machine
end

