-- ==== Sys2Proof/Machine/WireFrames.lean ====
section
/-! DEFINITION. The headers on the wire (30_encoding R84 to R91, R94). FHC attaches no behaviour to a command code or to a
peer's low byte: each row's meaning is that its four bytes cross the transport port in answer to the outstanding attempt
(log 6). -/

namespace Sys2Proof.Machine

/-- `FRAME_CMD.SendBuffer`, code 0x00 (R84). -/
def execFrameSendBuffer (s : State) : Result := s.crossHeader (commandHeaderBytes 0x00#8)

/-- `FRAME_CMD.Confirm`, code 0x01 (R85). -/
def execFrameConfirm (s : State) : Result := s.crossHeader (commandHeaderBytes 0x01#8)

/-- `FRAME_CMD.GetControlData`, code 0x02 (R86). -/
def execFrameGetControlData (s : State) : Result := s.crossHeader (commandHeaderBytes 0x02#8)

/-- `FRAME_CMD.ListApps`, code 0x03 (R87). -/
def execFrameListApps (s : State) : Result := s.crossHeader (commandHeaderBytes 0x03#8)

/-- `FRAME_CMD.GetActiveUser`, code 0x04 (R88). -/
def execFrameGetActiveUser (s : State) : Result := s.crossHeader (commandHeaderBytes 0x04#8)

/-- `FRAME_CMD.GetCurrentApp`, code 0x05 (R89). -/
def execFrameGetCurrentApp (s : State) : Result := s.crossHeader (commandHeaderBytes 0x05#8)

/-- `FRAME_CMD.GetVersion`, code 0x06 (R90). -/
def execFrameGetVersion (s : State) : Result := s.crossHeader (commandHeaderBytes 0x06#8)

/-- `FRAME_CMD.Disconnect`, code 0xFF (R91): it closes nothing. -/
def execFrameDisconnect (s : State) : Result := s.crossHeader (commandHeaderBytes 0xFF#8)

/-- `FRAME_PEER` with any low byte (R94): it is never compared. -/
def execFramePeer (low : Byte) (s : State) : Result := s.crossHeader (peerHeaderBytes low)

end Sys2Proof.Machine
end

