-- ==== Sys2Proof/Machine/Dispatch.lean ====
section
/-! DEFINITION. One arm for each row of the opcode table. -/

namespace Sys2Proof.Machine

def exec (i : Instr) (s : State) : Host.Outcome State Fault Refusal :=
  match i with
  | .encCmdHdr code => Sys2Proof.Machine.execEncCmdHdr code s
  | .encBufHdr => Sys2Proof.Machine.execEncBufHdr s
  | .decValHdr hdr role => Sys2Proof.Machine.execDecValHdr hdr role s
  | .relSend data => Sys2Proof.Machine.execRelSend data s
  | .relRecv size => Sys2Proof.Machine.execRelRecv size s
  | .sendCmd code => Sys2Proof.Machine.execSendCmd code s
  | .recvConfirm => Sys2Proof.Machine.execRecvConfirm s
  | .recvBuf size => Sys2Proof.Machine.execRecvBuf size s
  | .sendBuf data => Sys2Proof.Machine.execSendBuf data s
  | .sendU64 val => Sys2Proof.Machine.execSendU64 val s
  | .recvI32 => Sys2Proof.Machine.execRecvI32 s
  | .recvU64 => Sys2Proof.Machine.execRecvU64 s
  | .recvBool => Sys2Proof.Machine.execRecvBool s
  | .frameSendBuffer => Sys2Proof.Machine.execFrameSendBuffer s
  | .frameConfirm => Sys2Proof.Machine.execFrameConfirm s
  | .frameGetControlData => Sys2Proof.Machine.execFrameGetControlData s
  | .frameListApps => Sys2Proof.Machine.execFrameListApps s
  | .frameGetActiveUser => Sys2Proof.Machine.execFrameGetActiveUser s
  | .frameGetCurrentApp => Sys2Proof.Machine.execFrameGetCurrentApp s
  | .frameGetVersion => Sys2Proof.Machine.execFrameGetVersion s
  | .frameDisconnect => Sys2Proof.Machine.execFrameDisconnect s
  | .framePeer low => Sys2Proof.Machine.execFramePeer low s

end Sys2Proof.Machine
end

