-- ==== Sys2Proof/Machine/Agents.lean ====
section
/-! DEFINITION. What each agent does at its turn (00_scope R6, R7): where a request and a header are fetched, and how the
operation in flight is found again in the latched registers. -/

namespace Sys2Proof.Machine

/-- The `SIZE` bytes of data a send latched into `BUF` at this offset (10_state R23, D28). -/
def State.latchedData (s : State) (a : Nat) : List Byte := (s.buf.readBytes a s.argSize).getD []

/-- The latched request read back as an instruction (R23). -/
def State.latchedInstr (s : State) (o : Op) : Instr :=
  match o with
  | .encCmdHdr => .encCmdHdr s.argCode
  | .encBufHdr => .encBufHdr
  | .decValHdr => .decValHdr s.argHdr s.argRole
  | .relSend => .relSend (s.latchedData 0)
  | .relRecv => .relRecv s.argSize
  | .sendCmd => .sendCmd s.argCode
  | .recvConfirm => .recvConfirm
  | .recvBuf => .recvBuf s.argSize
  | .sendBuf => .sendBuf (s.latchedData 4)
  | .sendU64 => .sendU64 s.argVal
  | .recvI32 => .recvI32
  | .recvU64 => .recvU64
  | .recvBool => .recvBool

/-- The operation in flight (R22, R31): there is one exactly while `STATUS = BUSY`, and `OP` names it. -/
def State.inFlight (s : State) : Option Instr :=
  if s.status = .busy then (Op.ofCode s.op).map s.latchedInstr else none

/-- FHC's turn: the operation in flight takes its next step (41_transportio R132, R135). -/
def fhcTurn (s : State) : Result :=
  match s.inFlight with
  | some i => exec i s
  | none => .next s

/-- The host's turn. A read gives the register's value or is a fault of the host (R29, R35). A request is decoded and
run when nothing is in flight; while `STATUS = BUSY` it waits (30_encoding R97); a malformed one is refused (R100). -/
def hostTurn (s : State) : Result :=
  match s.hostIn with
  | [] => .next s
  | .read r :: rest =>
    match s.hostRead r with
    | .ok v => .next { s.setHostIn rest with hostSaw := some v }
    | .error f => .fault f
  | .request q :: rest =>
    if s.status = .busy then .next s
    else
      match decodeRequest q with
      | .ok i => exec i (s.setHostIn rest)
      | .error why => .refused (.malformedRequest why)

/-- The transport's turn. An answer is given only while an attempt is outstanding (R133, R134); with none outstanding
it stays with the transport. A header is decoded and run; one with no row of the table crosses all the same, since FHC
looks at no byte while they arrive (R95, 42_dispatch R169). -/
def transportTurn (s : State) : Result :=
  match s.transportIn with
  | [] => .next s
  | .progress r data :: rest => if s.pend = true then (s.setTransportIn rest).answer r data else .next s
  | .header q :: rest =>
    if s.pend = true then
      match decodeHeader q with
      | .ok i => exec i (s.setTransportIn rest)
      | .error _ => (s.setTransportIn rest).crossHeader q
    else .next s
  | .late which k data :: rest => (s.setTransportIn rest).lateMove which k data

/-- FHC has a step of its own: issue or finish is enabled (R132, R135). -/
def State.fhcReady (s : State) : Bool := decide (s.status = .busy) && !s.pend && decide (s.cnt ≤ s.len)

/-- The transport has a move it can make. -/
def State.transportReady (s : State) : Bool :=
  match s.transportIn with
  | [] => false
  | .progress _ _ :: _ => s.pend
  | .header _ :: _ => s.pend
  | .late _ _ _ :: _ => true

/-- The order in which agents move when no turn is laid down: FHC's own steps are taken whenever enabled (D27), then
the transport's, then the host's (log 2). -/
def freeTurn (s : State) : Result :=
  if s.fhcReady = true then fhcTurn s
  else if s.transportReady = true then transportTurn s
  else hostTurn s

/-- One agent's turn (R6, R7, R230). -/
def takeTurn (t : Turn) (s : State) : Result :=
  match t with
  | .reset => .next s.platformReset
  | .host => hostTurn s
  | .transport => transportTurn s
  | .fhc => fhcTurn s

/-- The next agent moves: the one whose turn is laid down, else by the free order. -/
def nextTurn (s : State) : Result :=
  match s.turns with
  | [] => freeTurn s
  | t :: rest => takeTurn t (s.setTurns rest)

/-- A request placed at the head of the host's port, with the host's turn next, in a state that can accept it. -/
def State.withRequest (s : State) (r : Request) : State :=
  { s with
    hostIn := .request r :: s.hostIn, turns := .host :: s.turns,
    status := if s.status = .busy then .idle else s.status }

/-- A header about to cross the transport port, with the transport's turn next: a peer's header answers a receive of
four bytes (`RECV_CONFIRM`), any other answers a send of that header (`SEND_CMD`). The transport only ever answers an
outstanding attempt, so the attempt is part of what the header needs to cross (R55, R56; log 7). -/
def State.withHeader (s : State) (q : Quad) : State :=
  if top24 q.le32 = top24 magicPeer then
    { (s.acceptReceive .recvConfirm 4).issue with
      transportIn := .header q :: s.transportIn, turns := .transport :: s.turns }
  else
    { (s.acceptSend .sendCmd q.toList).issue with
      argCode := lowByte q.le32, transportIn := .header q :: s.transportIn, turns := .transport :: s.turns }

/-- An encoded instruction placed where the next step takes it from. -/
def State.withEncoded (s : State) : Encoded → State
  | .request r => s.withRequest r
  | .header q => s.withHeader q

end Sys2Proof.Machine
end

