-- ==== Sys2Proof/Machine/Step.lean ====
section
/-! DEFINITION. One step of the machine (00_scope R6), and the word of the opcode table placed where it is fetched. -/

namespace Sys2Proof.Machine

/-- One step: the next agent moves. -/
def step (s : State) : Host.Outcome State Fault Refusal := nextTurn s

/-- A word of the opcode table placed where the very next step runs it (log 7). -/
def State.withFetchWord (s : State) (nbits w : Nat) : State := s.withEncoded (tableEncoded nbits w)

end Sys2Proof.Machine
end

