-- ==== Sys2Proof/Safety.lean ====
section
/-! DEFINITION. The terms claims use: the invariants of 10_state R34, what a safe outcome is, and the attempt loop as
functions (41_transportio R141). -/

namespace Sys2Proof.Machine

/-- `LEN` of the operation in flight, as each operation's rule sets it (R25). -/
def State.expectedLen (s : State) : Op → Nat
  | .encCmdHdr => 0
  | .encBufHdr => 0
  | .decValHdr => 0
  | .relSend => s.argSize
  | .relRecv => s.argSize
  | .sendCmd => 4
  | .recvConfirm => 4
  | .recvBuf => 4 + s.argSize
  | .sendBuf => 4 + s.argSize
  | .sendU64 => 12
  | .recvI32 => 8
  | .recvU64 => 12
  | .recvBool => 5

/-- The invariants of R34 and what they rest on: the buffer's canonical form and capacity (R24, R50), the bytes an
operation in flight has in `BUF`, and the `RES_DATA` window (R29). -/
structure Invariants (s : State) : Prop where
  /-- `CNT <= LEN` (R34). -/
  cnt_le_len : s.cnt ≤ s.len
  /-- `LEN <= 4 + MAX_PAYLOAD` (R34). -/
  len_le_capacity : s.len ≤ Config.bufCapacity
  /-- `PEND = 1` implies `STATUS = BUSY` and `CNT < LEN` (R34). -/
  pend_busy : s.pend = true → s.status = .busy ∧ s.cnt < s.len
  /-- `STATUS = BUSY` implies that `OP` is a defined selector (R34), and one that transfers: the codec operations
  complete in the accepting step (R115). -/
  busy_op : s.status = .busy → ∃ o, Op.ofCode s.op = some o ∧ dirOf o ≠ none ∧ s.len = s.expectedLen o
  /-- A valid bit is 1 only if `STATUS = DONE_OK` (R34). -/
  valid_done : s.valid.any = true → s.status = .doneOk
  /-- `BUF` is in canonical form. -/
  buf_wf : s.buf.wf = true
  /-- No byte lies beyond `BUF`'s capacity (R24). -/
  buf_capacity : ∀ c ∈ s.buf, c.1 < Config.bufCapacity
  /-- A send in flight has its whole frame in `BUF[0..LEN)` (R169). -/
  send_frame : s.status = .busy → s.dir = some .tx → (s.buf.readBytes 0 s.len).isSome = true
  /-- A receive in flight has `CNT` bytes in `BUF[0..CNT)` (R34). -/
  receive_bytes : s.status = .busy → s.dir = some .rx → (s.buf.readBytes 0 s.cnt).isSome = true
  /-- For a receive in flight `BUF[0..CNT)` is the last `CNT` bytes of `RXS` (R34). -/
  receive_tail : s.status = .busy → s.dir = some .rx →
    ∃ before bytes, s.rxs = before ++ bytes ∧ bytes.length = s.cnt ∧ s.buf.readBytes 0 s.cnt = some bytes
  /-- A valid `RES_DATA` window lies in the received frame (R29). -/
  window_readable : s.valid.data = true → ∃ bytes, s.bufLoad s.dataBase s.resLen = .ok bytes

/-- The refusals at FHC's boundary: the port's refusals of a request (R100), and a transport outside its contract
(R55, R56, R231). -/
def Refusal.atBoundary : Refusal → Prop
  | .malformedRequest _ => True
  | .oversizePayload _ => True
  | .answerBeyondCount _ => True
  | .answerNotCountBytes _ => True
  | .headerNotOffered _ => True
  | .lateBeyondOrphan _ _ => True
  | _ => False

/-- An outcome that stops for no reason inside FHC: a fault only of the host (R29), a refusal only at the boundary
(R55, R56, R100, R231). -/
def Result.boundaryOnly : Result → Prop
  | .next _ => True
  | .fault f => ∃ r, f = .invalidRead r
  | .refused r => r.atBoundary

/-- Two machines that nothing to come can tell apart (R20, R170): the same connection history and coming moves, the same
place in the same operation, and the same value in every register that a step or the host may still read. What is left
out is not readable: operands latched and done with, and the contents of `BUF`, of the error registers and of the result
registers outside their validity (R24, R28, R29). -/
structure Alike (a b : State) : Prop where
  txs : a.txs = b.txs
  rxs : a.rxs = b.rxs
  orphans : a.orphans = b.orphans
  hostIn : a.hostIn = b.hostIn
  transportIn : a.transportIn = b.transportIn
  turns : a.turns = b.turns
  status : a.status = b.status
  op : a.op = b.op
  len : a.len = b.len
  cnt : a.cnt = b.cnt
  pend : a.pend = b.pend
  valid : a.valid = b.valid
  /-- An attempt is outstanding only in an operation in flight (R34). -/
  pend_busy : a.pend = true → a.status = .busy
  /-- `BUF` while an operation is in flight (R24). -/
  buf : a.status = .busy → a.buf = b.buf
  /-- `ARG_SIZE` while the one operation that reads it at its end is in flight (R162). -/
  argSize : a.status = .busy → a.op = Op.recvBuf.code → a.argSize = b.argSize
  /-- The error registers while they are valid (R28). -/
  err : a.status = .errProtocol → a.errObs = b.errObs ∧ a.errExp = b.errExp
  /-- A result register while its valid bit is 1 (R29). -/
  resHdr : a.valid.hdr = true → a.resHdr = b.resHdr
  resLow : a.valid.low = true → a.resLow = b.resLow
  resData : a.valid.data = true → a.buf = b.buf ∧ a.resLen = b.resLen
  resI32 : a.valid.i32 = true → a.resI32 = b.resI32
  resU64 : a.valid.u64 = true → a.resU64 = b.resU64
  resBool : a.valid.bool = true → a.resBool = b.resBool

/-- Two outcomes that are alike: two machines that are, or one fault or one refusal. -/
def Result.alike : Result → Result → Prop
  | .next a, .next b => Alike a b
  | .fault f, .fault g => f = g
  | .refused r, .refused q => r = q
  | _, _ => False

/-- How a run of the attempt loop ends (R141). -/
inductive LoopEnd where
  | ok
  | blocked
  | transportError
  | outsideContract
deriving DecidableEq, Repr

/-- `Send(B, k, a)` of R141 for a frame of `n` bytes: how it ends and how many bytes were sent. -/
def sendLoop (n : Nat) : Nat → List Int → LoopEnd × Nat
  | k, [] => if k = n then (.ok, k) else (.blocked, k)
  | k, r :: rest =>
    if k = n then (.ok, k)
    else if r ≤ 0 then (.transportError, k)
    else if ((n - k : Nat) : Int) < r then (.outsideContract, k)
    else sendLoop n (k + r.toNat) rest

/-- `Recv(n, acc, a)` of R141: how it ends and the bytes consumed. A positive answer comes with as many bytes as it
says (R56). -/
def recvLoop (n : Nat) : List Byte → List (Int × List Byte) → LoopEnd × List Byte
  | acc, [] => if acc.length = n then (.ok, acc) else (.blocked, acc)
  | acc, (r, data) :: rest =>
    if acc.length = n then (.ok, acc)
    else if r ≤ 0 then (.transportError, acc)
    else if ((n - acc.length : Nat) : Int) < r ∨ (data.length : Int) ≠ r then (.outsideContract, acc)
    else recvLoop n (acc ++ data) rest

end Sys2Proof.Machine
end

