-- ==== Sys2Proof/Certificates/Slice0/Obligations.lean ====
section
/-! DEFINITION. The statements for the provers. Each docstring names the rules of spec/ it formalises; a clause that rests
on a choice of the model's names the log entry. -/

open Sys2Proof Sys2Proof.Machine

/-! ## Reset (70_reset_and_hazards, 10_state R36) -/

/-- R230: reset is one step, in every state, and puts FHC at the values R36 gives; the transport's strings and the
constants stay; afterwards a request is accepted. -/
def Obligations.ResetPutsFhcAtItsResetValues : Prop :=
  ∀ (s : State) (ts : List Turn), s.turns = .reset :: ts →
    ∃ t, step s = .next t ∧ t.status = .idle ∧ t.pend = false ∧ t.len = 0 ∧ t.cnt = 0 ∧
      t.valid = ⟨false, false, false, false, false, false⟩ ∧ t.txs = s.txs ∧ t.rxs = s.rxs ∧
      magicClient = 0x33221100#32 ∧ magicPeer = 0x11223300#32 ∧ hdrMask = 0xFFFFFF00#32 ∧
      ∀ (q : Request) (rest : List HostAct) (i : Instr), decodeRequest q = .ok i →
        step ((t.setTurns [.host]).setHostIn (.request q :: rest)) = exec i ((t.setTurns []).setHostIn rest)

/-- R231, U10 (log 13, DESIGN CHOICE: the orphaned attempt is a list entry, and its late moves are inputs): a reset with
a send's attempt outstanding leaves what was sent, and the transport may still take any number of the bytes that were on
offer; that changes `TXS` and nothing of FHC. -/
def Obligations.ResetOrphansTheOutstandingSend : Prop :=
  ∀ (s : State) (ts : List Turn) (offered : List Byte) (k : Nat) (data : List Byte) (rest : List TransportAct),
    s.turns = .reset :: .transport :: ts → s.pend = true → s.dir = some .tx →
    s.buf.readBytes s.cnt (s.len - s.cnt) = some offered →
    s.transportIn = .late s.orphans.length k data :: rest → k ≤ offered.length →
    ∃ t u, step s = .next t ∧ t.status = .idle ∧ t.txs = s.txs ∧ t.orphans = s.orphans ++ [.tx offered] ∧
      step t = .next u ∧
      u = { t with
            turns := ts, transportIn := rest, txs := s.txs ++ offered.take k,
            orphans := s.orphans ++ [.tx (offered.drop k)] }

/-- R231, U10 (log 13, DESIGN CHOICE: the orphaned attempt is a list entry, and its late moves are inputs; log 17, DEDUCED:
late bytes are lost and `RXS` stays): a reset with a receive's attempt outstanding leaves what was delivered, and the
transport may still consume any number of the bytes that were asked; that changes nothing of FHC and no stream it has. -/
def Obligations.ResetOrphansTheOutstandingReceive : Prop :=
  ∀ (s : State) (ts : List Turn) (k : Nat) (data : List Byte) (rest : List TransportAct),
    s.turns = .reset :: .transport :: ts → s.pend = true → s.dir = some .rx →
    s.transportIn = .late s.orphans.length k data :: rest → k ≤ s.len - s.cnt → data.length = k →
    ∃ t u, step s = .next t ∧ t.status = .idle ∧ t.rxs = s.rxs ∧ t.orphans = s.orphans ++ [.rx (s.len - s.cnt)] ∧
      step t = .next u ∧
      u = { t with
            turns := ts, transportIn := rest, rxLost := s.rxLost ++ data,
            orphans := s.orphans ++ [.rx (s.len - s.cnt - k)] }

/-- R231, U10, R33 (log 13, DESIGN CHOICE; log 17, DEDUCED), in every state, one with a new operation in flight included:
a late move of an orphaned attempt extends `TXS` by offered bytes, or is lost to FHC, and changes nothing else but what
is left of that attempt; more than the attempt has, or a move of no such attempt, is outside what U10 allows, and is
refused. That a late move of a receive that says `k` and brings bytes that are not `k` many is refused too is the model's
own choice (log 13). -/
def Obligations.LateMovesTouchNothingOfFhc : Prop :=
  ∀ (s : State) (ts : List Turn) (w k : Nat) (data : List Byte) (rest : List TransportAct),
    s.turns = .transport :: ts → s.transportIn = .late w k data :: rest →
    (∀ offered, s.orphans[w]? = some (.tx offered) →
      (k ≤ offered.length → step s = .next { s with
        turns := ts, transportIn := rest, txs := s.txs ++ offered.take k,
        orphans := s.orphans.set w (.tx (offered.drop k)) }) ∧
      (offered.length < k → step s = .refused (.lateBeyondOrphan w k))) ∧
    (∀ asked, s.orphans[w]? = some (.rx asked) →
      (k ≤ asked → data.length = k → step s = .next { s with
        turns := ts, transportIn := rest, rxLost := s.rxLost ++ data,
        orphans := s.orphans.set w (.rx (asked - k)) }) ∧
      (asked < k ∨ data.length ≠ k → step s = .refused (.lateBeyondOrphan w k))) ∧
    (s.orphans.length ≤ w → step s = .refused (.lateBeyondOrphan w k))

/-- R34 at reset: the state after reset meets the invariants. -/
def Obligations.ResetStateMeetsTheInvariants : Prop := Invariants State.reset

/-! ## Encodings (30_encoding) -/

/-- Words written out from R83, R97, R99 and the vectors V1 to V51: the control words as 16 bits
`CODE . 000 . ROLE . OPSEL`, the headers as 32 bits. That a word of 16 bits is read as a control word and one of 32 as a
header is log 24 (DEDUCED). That the operands a bare control word does not carry are zero, as the `HDR` of 0x0012 is
here, is log 21 (DESIGN CHOICE). -/
def Obligations.WordsOfTheSpecDecodeAsItSays : Prop :=
  decodeTableWord 16 0x0600 = some (.encCmdHdr 0x06#8) ∧ decodeTableWord 16 0xAB01 = some .encBufHdr ∧
  decodeTableWord 16 0x0012 = some (.decValHdr ⟨0x00#8, 0x00#8, 0x00#8, 0x00#8⟩ .peer) ∧
  decodeTableWord 16 0x0605 = some (.sendCmd 0x06#8) ∧ decodeTableWord 16 0x000A = some .recvI32 ∧
  decodeTableWord 16 0x000D = none ∧ decodeTableWord 16 0x0025 = none ∧
  decodeTableWord 32 0x33221106 = some .frameGetVersion ∧ decodeTableWord 32 0x332211FF = some .frameDisconnect ∧
  decodeTableWord 32 0x11223304 = some (.framePeer 0x04#8) ∧ decodeTableWord 32 0x33221180 = none

/-- R97, R99, R80, R83: decoding the encoding of an instruction gives it back, for every instruction of the table and
every value of its operands. -/
def Obligations.DecodeOfEncodeIsTheInstruction : Prop :=
  ∀ i : Instr, i.wellFormed = true → decode (encode i) = .ok i

/-- R80, R83, R94: a header has one meaning. A header decodes to an instruction exactly when it is that instruction's
encoding; one of no role magic, and a client header of an unassigned code, decodes to none. -/
def Obligations.HeaderDecodesOnlyToItsOwnEncoding : Prop :=
  ∀ (q : Quad) (i : Instr), decodeHeader q = .ok i ↔ encode i = .header q

/-- R97, R99, R100: the selector and the reserved bits alone decide which operation a control word names; the fields an
operation does not use are ignored. A `DATA` that is not `SIZE` bytes is no operand of R98; that it is rejected is
log 14. -/
def Obligations.ControlWordNamesItsOperation : Prop :=
  ∀ r : Request,
    (r.word &&& 0x00EF#16 = 0x0000#16 → decodeRequest r = .ok (.encCmdHdr (r.word.extractLsb' 8 8))) ∧
    (r.word &&& 0x00EF#16 = 0x0001#16 → decodeRequest r = .ok .encBufHdr) ∧
    (r.word &&& 0x00EF#16 = 0x0002#16 →
      decodeRequest r = .ok (.decValHdr r.hdr (if r.word.getLsbD 4 then .peer else .client))) ∧
    (r.word &&& 0x00EF#16 = 0x0003#16 →
      decodeRequest r = if r.data.length = r.size then .ok (.relSend r.data) else .error .dataNotSizeBytes) ∧
    (r.word &&& 0x00EF#16 = 0x0004#16 → decodeRequest r = .ok (.relRecv r.size)) ∧
    (r.word &&& 0x00EF#16 = 0x0005#16 → decodeRequest r = .ok (.sendCmd (r.word.extractLsb' 8 8))) ∧
    (r.word &&& 0x00EF#16 = 0x0006#16 → decodeRequest r = .ok .recvConfirm) ∧
    (r.word &&& 0x00EF#16 = 0x0007#16 → decodeRequest r = .ok (.recvBuf r.size)) ∧
    (r.word &&& 0x00EF#16 = 0x0008#16 →
      decodeRequest r = if r.data.length = r.size then .ok (.sendBuf r.data) else .error .dataNotSizeBytes) ∧
    (r.word &&& 0x00EF#16 = 0x0009#16 → decodeRequest r = .ok (.sendU64 r.val)) ∧
    (r.word &&& 0x00EF#16 = 0x000A#16 → decodeRequest r = .ok .recvI32) ∧
    (r.word &&& 0x00EF#16 = 0x000B#16 → decodeRequest r = .ok .recvU64) ∧
    (r.word &&& 0x00EF#16 = 0x000C#16 → decodeRequest r = .ok .recvBool) ∧
    (0x000D#16 ≤ r.word &&& 0x00EF#16 → ∃ why, decodeRequest r = .error why)

/-- R100: a malformed control word, and an oversize `SIZE`, is refused: no state, no error and no attempt comes of it.
Every request the decoder rejects is so refused; that a `REL_SEND` or `SEND_BUF` whose `DATA` is not `SIZE` bytes,
oversize or not, is among them is log 14 (DEDUCED). -/
def Obligations.MalformedRequestsAreRefused : Prop :=
  ∀ (s : State) (ts : List Turn) (q : Request) (rest : List HostAct),
    s.turns = .host :: ts → s.hostIn = .request q :: rest → s.status ≠ .busy →
    (∀ why, decodeRequest q = .error why → step s = .refused (.malformedRequest why)) ∧
    (0x000D#16 ≤ q.word &&& 0x00EF#16 → ∃ why, step s = .refused (.malformedRequest why)) ∧
    (q.word &&& 0x00EF#16 = 0x0003#16 ∨ q.word &&& 0x00EF#16 = 0x0008#16 → q.data.length ≠ q.size →
      step s = .refused (.malformedRequest .dataNotSizeBytes)) ∧
    (Config.maxPayload < q.size →
      (q.word &&& 0x00EF#16 = 0x0003#16 ∨ q.word &&& 0x00EF#16 = 0x0008#16) ∧ q.data.length = q.size ∨
        q.word &&& 0x00EF#16 = 0x0004#16 ∨ q.word &&& 0x00EF#16 = 0x0007#16 →
      step s = .refused (.oversizePayload q.size))

/-! ## A step runs an instruction -/

/-- R97: at the host's turn, with nothing in flight, the request at the head of the port is decoded and run on the state
less that request and that turn. The same holds with no turn laid down, when the transport has nothing it can do
(log 2). -/
def Obligations.StepRunsTheDecodedRequest : Prop :=
  ∀ (s : State) (q : Request) (rest : List HostAct) (i : Instr),
    s.hostIn = .request q :: rest → s.status ≠ .busy → decodeRequest q = .ok i →
    (∀ ts, s.turns = .host :: ts → step s = exec i ((s.setTurns ts).setHostIn rest)) ∧
    (s.turns = [] → s.transportReady = false → step s = exec i (s.setHostIn rest))

/-- R133, R134 (log 6): at the transport's turn, with an attempt outstanding, the header it carries across is decoded and
run. -/
def Obligations.StepRunsTheDecodedHeader : Prop :=
  ∀ (s : State) (q : Quad) (ts : List Turn) (rest : List TransportAct) (i : Instr),
    s.turns = .transport :: ts → s.transportIn = .header q :: rest → s.pend = true → decodeHeader q = .ok i →
    step s = exec i ((s.setTurns ts).setTransportIn rest)

/-- R132, R135: at FHC's turn the operation in flight, as the latched registers name it, takes its next step; with no
turn laid down FHC moves first whenever it has a step of its own (D27, log 2). -/
def Obligations.StepRunsTheOperationInFlight : Prop :=
  ∀ (s : State) (o : Op), s.status = .busy → s.op = o.code →
    (∀ ts, s.turns = .fhc :: ts → step s = exec (s.latchedInstr o) (s.setTurns ts)) ∧
    (s.turns = [] → s.pend = false → s.cnt ≤ s.len → step s = exec (s.latchedInstr o) s)

/-- R97: a request offered while `STATUS = BUSY` is not accepted and has no effect; it waits, still offered. -/
def Obligations.RequestWaitsWhileBusy : Prop :=
  ∀ (s : State) (q : Request) (ts : List Turn) (rest : List HostAct),
    s.turns = .host :: ts → s.hostIn = .request q :: rest → s.status = .busy → step s = .next (s.setTurns ts)

/-! ## The header codec (40_framecodec) -/

/-- R110: `ENC_CMD_HDR`, `OPSEL = 0x0` with its `CODE`, for every code, from every state that can accept it: the result,
and that nothing else but the registers acceptance sets changes (R97, R23). What acceptance puts into the operand
registers that the operation does not use is left to `AcceptanceReinitialisesTheRegisters`. -/
def Obligations.EncCmdHdrGivesTheCommandHeader : Prop :=
  (∀ r : Request, r.word &&& 0x00EF#16 = 0x0000#16 → decodeRequest r = .ok (.encCmdHdr (r.word.extractLsb' 8 8))) ∧
  ∀ (code : Byte) (s : State), s.status ≠ .busy →
    ∃ t, exec (.encCmdHdr code) s = .next t ∧
      t = { s with
        status := .doneOk, op := 0x0#4, argCode := code, len := 0, cnt := 0, pend := false,
        resHdr := ⟨code, 0x11#8, 0x22#8, 0x33#8⟩, valid := ⟨true, false, false, false, false, false⟩,
        argRole := t.argRole, argHdr := t.argHdr, argSize := t.argSize, argVal := t.argVal }

/-- R111: `ENC_BUF_HDR`, `OPSEL = 0x1`: the constant header, which is also `ENC_CMD_HDR 0x00`'s. What acceptance puts into
the operand registers is left to `AcceptanceReinitialisesTheRegisters`. -/
def Obligations.EncBufHdrGivesTheBufferHeader : Prop :=
  (∀ r : Request, r.word &&& 0x00EF#16 = 0x0001#16 → decodeRequest r = .ok .encBufHdr) ∧
  ∀ s : State, s.status ≠ .busy →
    ∃ t, exec .encBufHdr s = .next t ∧
      t = { s with
        status := .doneOk, op := 0x1#4, len := 0, cnt := 0, pend := false,
        resHdr := ⟨0x00#8, 0x11#8, 0x22#8, 0x33#8⟩, valid := ⟨true, false, false, false, false, false⟩,
        argCode := t.argCode, argRole := t.argRole, argHdr := t.argHdr, argSize := t.argSize, argVal := t.argVal }

/-- R112: `DEC_VAL_HDR`, `OPSEL = 0x2`, for every header and both roles. The low byte never causes an error; the bytes 1 to
3 must be the expected ones, else ProtocolError records the observed and the expected top 24 bits. What acceptance puts
into the operand registers that the operation does not use is left to `AcceptanceReinitialisesTheRegisters`. -/
def Obligations.DecValHdrAcceptsOrRecordsTheMismatch : Prop :=
  (∀ r : Request, r.word &&& 0x00EF#16 = 0x0002#16 →
    decodeRequest r = .ok (.decValHdr r.hdr (if r.word.getLsbD 4 then .peer else .client))) ∧
  ∀ (b0 b1 b2 b3 : Byte) (role : Role) (s : State), s.status ≠ .busy →
    let accepted (t : State) : State := { s with
      op := 0x2#4, argHdr := ⟨b0, b1, b2, b3⟩, argRole := role, len := 0, cnt := 0, pend := false,
      valid := ⟨false, false, false, false, false, false⟩,
      argCode := t.argCode, argSize := t.argSize, argVal := t.argVal }
    let matching : Prop :=
      match role with
      | .client => b1 = 0x11#8 ∧ b2 = 0x22#8 ∧ b3 = 0x33#8
      | .peer => b1 = 0x33#8 ∧ b2 = 0x22#8 ∧ b3 = 0x11#8
    let expected : BitVec 24 :=
      match role with
      | .client => 0x332211#24
      | .peer => 0x112233#24
    (matching →
      ∃ t, exec (.decValHdr ⟨b0, b1, b2, b3⟩ role) s = .next t ∧
        t = { accepted t with
          status := .doneOk, resLow := b0, valid := ⟨false, true, false, false, false, false⟩ }) ∧
    (¬ matching →
      ∃ t, exec (.decValHdr ⟨b0, b1, b2, b3⟩ role) s = .next t ∧
        t = { accepted t with status := .errProtocol, errObs := b3 ++ b2 ++ b1, errExp := expected })

/-- R114: what `ENC_CMD_HDR c` gives is the client magic with low byte `c`; `DEC_VAL_HDR` accepts it under CLIENT with
low byte `c` and rejects it under PEER with `ProtocolError(0x332211, 0x112233)`, for every `c`. -/
def Obligations.EncodedHeaderDecodesUnderClientOnly : Prop :=
  ∀ (c : Byte) (s : State), s.status ≠ .busy →
    ∃ t u v, exec (.encCmdHdr c) s = .next t ∧ t.resHdr.le32 &&& 0xFFFFFF00#32 = 0x33221100#32 ∧
      exec (.decValHdr t.resHdr .client) t = .next u ∧ u.status = .doneOk ∧ u.hostRead .resLow = .ok (.byte c) ∧
      exec (.decValHdr t.resHdr .peer) t = .next v ∧ v.status = .errProtocol ∧
      v.errObs = 0x332211#24 ∧ v.errExp = 0x112233#24

/-- R113: the test of R112 for an arbitrary expected value does not mask the right side, so an expected value whose low
byte is not zero rejects every header; neither of the two magics `ROLE` selects is such a value. -/
def Obligations.ExpectedLowByteRejectsEveryHeader : Prop :=
  (∀ v e : BitVec 32, (headerMatches v e = true ↔ v &&& 0xFFFFFF00#32 = e) ∧
    (lowByte e ≠ 0x00#8 → headerMatches v e = false)) ∧
  ∀ role : Role, lowByte role.magic = 0x00#8

/-! ## Acceptance of the transfers (30_encoding R97, 42_dispatch R169) -/

/-- R130, R160, R163, R164: a send builds its whole frame in `BUF` at acceptance. `LEN` is the frame's length, every
byte of `BUF` is the frame's, nothing is sent yet, and nothing else changes. That `BUF` holds nothing beyond the frame
is log 10; that the operand registers an operation does not use are put back at their reset values is log 11. -/
def Obligations.SendAcceptanceBuildsTheWholeFrame : Prop :=
  ∀ (s : State) (code : Byte) (data : List Byte) (v : BitVec 64), s.status ≠ .busy →
    let accepted (t : State) (op : BitVec 4) (frame : List Byte) : State :=
      { s with
        status := .busy, op := op, len := frame.length, cnt := 0, pend := false,
        valid := ⟨false, false, false, false, false, false⟩, argCode := t.argCode, argRole := State.reset.argRole,
        argHdr := State.reset.argHdr, argSize := t.argSize, argVal := t.argVal, buf := t.buf }
    (data.length ≤ Config.maxPayload → ∃ t, exec (.relSend data) s = .next t ∧ t = accepted t 0x3#4 data ∧
      t.argSize = data.length ∧ t.argCode = State.reset.argCode ∧ t.argVal = State.reset.argVal ∧ ∀ a, t.buf.get a = data[a]?) ∧
    (∃ t, exec (.sendCmd code) s = .next t ∧ t = accepted t 0x5#4 [code, 0x11#8, 0x22#8, 0x33#8] ∧
      t.argCode = code ∧ t.argSize = State.reset.argSize ∧ t.argVal = State.reset.argVal ∧
      ∀ a, t.buf.get a = [code, 0x11#8, 0x22#8, 0x33#8][a]?) ∧
    (data.length ≤ Config.maxPayload → ∃ t, exec (.sendBuf data) s = .next t ∧
      t = accepted t 0x8#4 ([0x00#8, 0x11#8, 0x22#8, 0x33#8] ++ data) ∧
      t.argSize = data.length ∧ t.argCode = State.reset.argCode ∧ t.argVal = State.reset.argVal ∧
      ∀ a, t.buf.get a = ([0x00#8, 0x11#8, 0x22#8, 0x33#8] ++ data)[a]?) ∧
    (∃ t, exec (.sendU64 v) s = .next t ∧ t.argVal = v ∧ t.argCode = State.reset.argCode ∧ t.argSize = State.reset.argSize ∧
      t = accepted t 0x9#4 ([0x00#8, 0x11#8, 0x22#8, 0x33#8] ++ (List.range 8).map fun i => v.extractLsb' (8 * i) 8) ∧
      ∀ a, t.buf.get a =
        ([0x00#8, 0x11#8, 0x22#8, 0x33#8] ++ (List.range 8).map fun i => v.extractLsb' (8 * i) 8)[a]?)

/-- R131, R161, R162, R165, R166, R167: a receive awaits its whole frame. `LEN` is `n`, 4, `4 + n`, 8, 12 or 5, `CNT`
is 0, no attempt is outstanding, no byte of `BUF` has a value yet (log 10), the operand registers not used are back at
their reset values (log 11), and nothing else changes. -/
def Obligations.ReceiveAcceptanceAwaitsTheWholeFrame : Prop :=
  ∀ (s : State) (n : Nat), s.status ≠ .busy →
    let accepted (op : BitVec 4) (size len : Nat) : State :=
      { s with
        status := .busy, op := op, argSize := size, len := len, cnt := 0, pend := false, buf := [],
        argCode := State.reset.argCode, argRole := State.reset.argRole, argHdr := State.reset.argHdr,
        argVal := State.reset.argVal, valid := ⟨false, false, false, false, false, false⟩ }
    (n ≤ Config.maxPayload → exec (.relRecv n) s = .next (accepted 0x4#4 n n)) ∧
    exec .recvConfirm s = .next (accepted 0x6#4 State.reset.argSize 4) ∧
    (n ≤ Config.maxPayload → exec (.recvBuf n) s = .next (accepted 0x7#4 n (4 + n))) ∧
    exec .recvI32 s = .next (accepted 0xA#4 State.reset.argSize 8) ∧
    exec .recvU64 s = .next (accepted 0xB#4 State.reset.argSize 12) ∧
    exec .recvBool s = .next (accepted 0xC#4 State.reset.argSize 5)

/-- R20, R97, R23, D4: acceptance re-initialises the registers, so that no record of an earlier operation is left. Whatever
two states the same request is accepted in, what it leaves is the same in every register, but for those that no one may
read then: the error and result registers it does not write, which are not valid (log 18), and `BUF` after a codec
operation, which leaves it untouched (R110, R24). Each operand register holds the request's operand where the operation
uses it and its reset value where not (log 11, DEDUCED; that value is log 9, DESIGN CHOICE). -/
def Obligations.AcceptanceReinitialisesTheRegisters : Prop :=
  ∀ (s₁ s₂ t₁ t₂ : State) (q : Request) (i : Instr), s₁.status ≠ .busy → s₂.status ≠ .busy →
    decodeRequest q = .ok i → exec i s₁ = .next t₁ → exec i s₂ = .next t₂ →
    t₂ = { t₁ with
      txs := s₂.txs, rxs := s₂.rxs, orphans := s₂.orphans, rxLost := s₂.rxLost, hostIn := s₂.hostIn,
      transportIn := s₂.transportIn, turns := s₂.turns, hostSaw := s₂.hostSaw,
      buf := if t₁.status = .busy then t₁.buf else s₂.buf,
      errObs := if t₁.status = .errProtocol then t₁.errObs else s₂.errObs,
      errExp := if t₁.status = .errProtocol then t₁.errExp else s₂.errExp,
      resHdr := if t₁.valid.hdr then t₁.resHdr else s₂.resHdr,
      resLow := if t₁.valid.low then t₁.resLow else s₂.resLow,
      resLen := s₂.resLen, resI32 := s₂.resI32, resU64 := s₂.resU64, resBool := s₂.resBool } ∧
    let r := State.reset
    (t₁.argCode, t₁.argRole, t₁.argHdr, t₁.argSize, t₁.argVal) =
      match i with
      | .encCmdHdr code => (code, r.argRole, r.argHdr, r.argSize, r.argVal)
      | .decValHdr hdr role => (r.argCode, role, hdr, r.argSize, r.argVal)
      | .relSend data => (r.argCode, r.argRole, r.argHdr, data.length, r.argVal)
      | .relRecv n => (r.argCode, r.argRole, r.argHdr, n, r.argVal)
      | .sendCmd code => (code, r.argRole, r.argHdr, r.argSize, r.argVal)
      | .recvBuf n => (r.argCode, r.argRole, r.argHdr, n, r.argVal)
      | .sendBuf data => (r.argCode, r.argRole, r.argHdr, data.length, r.argVal)
      | .sendU64 v => (r.argCode, r.argRole, r.argHdr, r.argSize, v)
      | _ => (r.argCode, r.argRole, r.argHdr, r.argSize, r.argVal)

/-- R103 (b), R104: `SEND_U64 v` has the effect of `SEND_BUF` of its eight little-endian bytes, and `SEND_CMD 0x00` that
of `SEND_BUF` of no bytes, but for the latched request. -/
def Obligations.SendU64IsSendBufOfItsBytes : Prop :=
  ∀ (s : State) (v : BitVec 64), s.status ≠ .busy →
    (∃ t u, exec (.sendU64 v) s = .next t ∧
      exec (.sendBuf ((List.range 8).map fun i => v.extractLsb' (8 * i) 8)) s = .next u ∧
      t = { u with op := t.op, argVal := t.argVal, argSize := t.argSize }) ∧
    (∃ t u, exec (.sendCmd 0x00#8) s = .next t ∧ exec (.sendBuf []) s = .next u ∧
      t = { u with op := t.op, argCode := t.argCode, argSize := t.argSize })

/-! ## The attempt loop (41_transportio) -/

/-- R132: with `STATUS = BUSY`, `PEND = 0` and `CNT < LEN` the operation in flight issues the attempt for all that
remains: `PEND <- 1` and nothing else changes, for each of the ten operations that transfer. -/
def Obligations.IssueStepSetsOnlyPend : Prop :=
  ∀ (s : State) (data : List Byte) (n : Nat) (code : Byte) (v : BitVec 64),
    s.status = .busy → s.pend = false → s.cnt < s.len →
    (s.op = 0x3#4 → exec (.relSend data) s = .next { s with pend := true }) ∧
    (s.op = 0x4#4 → exec (.relRecv n) s = .next { s with pend := true }) ∧
    (s.op = 0x5#4 → exec (.sendCmd code) s = .next { s with pend := true }) ∧
    (s.op = 0x6#4 → exec .recvConfirm s = .next { s with pend := true }) ∧
    (s.op = 0x7#4 → exec (.recvBuf n) s = .next { s with pend := true }) ∧
    (s.op = 0x8#4 → exec (.sendBuf data) s = .next { s with pend := true }) ∧
    (s.op = 0x9#4 → exec (.sendU64 v) s = .next { s with pend := true }) ∧
    (s.op = 0xA#4 → exec .recvI32 s = .next { s with pend := true }) ∧
    (s.op = 0xB#4 → exec .recvU64 s = .next { s with pend := true }) ∧
    (s.op = 0xC#4 → exec .recvBool s = .next { s with pend := true })

/-- R133, R55, R201: the transport's answer `r` to a send. Within the count asked, exactly the first `r` offered bytes
enter `TXS`; a non-positive answer is a TransportError and nothing enters; a larger one is no step of the machine. -/
def Obligations.AnswerStepForASend : Prop :=
  ∀ (s : State) (ts : List Turn) (r : Int) (d : List Byte) (rest : List TransportAct),
    s.turns = .transport :: ts → s.transportIn = .progress r d :: rest → s.pend = true → s.dir = some .tx →
    s.len ≤ Config.bufCapacity →
    (∀ bytes, 1 ≤ r → r ≤ ((s.len - s.cnt : Nat) : Int) → s.buf.readBytes s.cnt r.toNat = some bytes →
      step s = .next { s with
        turns := ts, transportIn := rest, txs := s.txs ++ bytes, cnt := s.cnt + r.toNat, pend := false }) ∧
    (r ≤ 0 → step s = .next { s with turns := ts, transportIn := rest, status := .errTransport, pend := false }) ∧
    (((s.len - s.cnt : Nat) : Int) < r → 1 ≤ r → ∃ why, step s = .refused why)

/-- R134, R56, R201: the transport's answer to a receive. Within the count asked the bytes enter `RXS` and
`BUF[CNT .. CNT+r)`, every other byte of `BUF` stays; a non-positive answer is a TransportError, nothing is consumed or
stored; a larger one is no step of the machine. That an answer whose bytes are not `r` many is none either, and that
the run is then refused, is log 5 (DEDUCED): R56 and R134 say `len(D) = r` and no more. -/
def Obligations.AnswerStepForAReceive : Prop :=
  ∀ (s : State) (ts : List Turn) (r : Int) (d : List Byte) (rest : List TransportAct),
    s.turns = .transport :: ts → s.transportIn = .progress r d :: rest → s.pend = true → s.dir = some .rx →
    s.len ≤ Config.bufCapacity →
    (1 ≤ r → r ≤ ((s.len - s.cnt : Nat) : Int) → (d.length : Int) = r →
      ∃ t, step s = .next t ∧
        t = { s with
              turns := ts, transportIn := rest, rxs := s.rxs ++ d, cnt := s.cnt + d.length, pend := false,
              buf := t.buf } ∧
        ∀ a, t.buf.get a = if s.cnt ≤ a ∧ a < s.cnt + d.length then d[a - s.cnt]? else s.buf.get a) ∧
    (r ≤ 0 → step s = .next { s with turns := ts, transportIn := rest, status := .errTransport, pend := false }) ∧
    (1 ≤ r → ((s.len - s.cnt : Nat) : Int) < r ∨ (d.length : Int) ≠ r → ∃ why, step s = .refused why)

/-- R135: an operation in flight is never stuck for a reason inside FHC. In a state that meets the invariants, with no
attempt outstanding, FHC's turn either issues the attempt or ends the operation. -/
def Obligations.FhcIsNeverStuck : Prop :=
  ∀ (s : State) (ts : List Turn), Invariants s → s.status = .busy → s.pend = false → s.turns = .fhc :: ts →
    (s.cnt < s.len ∧ step s = .next { s with turns := ts, pend := true }) ∨
    (s.cnt = s.len ∧ ∃ t, step s = .next t ∧ (t.status = .doneOk ∨ t.status = .errProtocol))

/-- R135 with R130, R131, R160, R163, R164: with `CNT = LEN` a send ends `DONE_OK` and nothing else changes; `REL_RECV`
opens the window onto all `LEN` bytes. -/
def Obligations.SendsAndRelRecvFinishDoneOk : Prop :=
  ∀ (s : State) (data : List Byte) (n : Nat) (code : Byte) (v : BitVec 64),
    s.status = .busy → s.pend = false → s.cnt = s.len →
    (s.op = 0x3#4 → exec (.relSend data) s = .next { s with status := .doneOk }) ∧
    (s.op = 0x5#4 → exec (.sendCmd code) s = .next { s with status := .doneOk }) ∧
    (s.op = 0x8#4 → exec (.sendBuf data) s = .next { s with status := .doneOk }) ∧
    (s.op = 0x9#4 → exec (.sendU64 v) s = .next { s with status := .doneOk }) ∧
    (s.op = 0x4#4 → exec (.relRecv n) s =
      .next { s with status := .doneOk, resLen := s.len, valid := { s.valid with data := true } })

/-- R161, R162, R165, R166, R167, R101: with the whole frame in `BUF` and the peer's magic in its header, whatever its
low byte, each sequencer's receive ends `DONE_OK` with its own result and nothing else changes. That signed means two's
complement is log 16 (PRESUMED, G1). -/
def Obligations.ReceivesDeliverTheirResults : Prop :=
  ∀ (s : State) (low p0 p1 p2 p3 p4 p5 p6 p7 : Byte) (payload : List Byte) (n : Nat),
    s.status = .busy → s.pend = false → s.cnt = s.len → s.len ≤ Config.bufCapacity →
    (s.op = 0x6#4 → s.len = 4 → s.buf.readBytes 0 4 = some [low, 0x33#8, 0x22#8, 0x11#8] →
      exec .recvConfirm s = .next { s with status := .doneOk }) ∧
    (s.op = 0x7#4 → s.len = 4 + s.argSize →
      s.buf.readBytes 0 s.len = some ([low, 0x33#8, 0x22#8, 0x11#8] ++ payload) →
      ∃ t, exec (.recvBuf n) s = .next t ∧ t.hostRead .resData = .ok (.data payload) ∧
        t = { s with status := .doneOk, resLen := payload.length, valid := { s.valid with data := true } }) ∧
    (s.op = 0xA#4 → s.len = 8 → s.buf.readBytes 0 8 = some [low, 0x33#8, 0x22#8, 0x11#8, p0, p1, p2, p3] →
      ∃ t, exec .recvI32 s = .next t ∧ t.hostRead .resI32 = .ok (.signed (p3 ++ p2 ++ p1 ++ p0).toInt) ∧
        t = { s with status := .doneOk, resI32 := p3 ++ p2 ++ p1 ++ p0, valid := { s.valid with i32 := true } }) ∧
    (s.op = 0xB#4 → s.len = 12 →
      s.buf.readBytes 0 12 = some [low, 0x33#8, 0x22#8, 0x11#8, p0, p1, p2, p3, p4, p5, p6, p7] →
      exec .recvU64 s = .next { s with
        status := .doneOk, resU64 := p7 ++ p6 ++ p5 ++ p4 ++ p3 ++ p2 ++ p1 ++ p0,
        valid := { s.valid with u64 := true } }) ∧
    (s.op = 0xC#4 → s.len = 5 → s.buf.readBytes 0 5 = some [low, 0x33#8, 0x22#8, 0x11#8, p0] →
      exec .recvBool s = .next { s with
        status := .doneOk, resBool := decide (p0 ≠ 0x00#8), valid := { s.valid with bool := true } })

/-- R202, R206, R96: with the whole frame in `BUF` and any other magic in its header, the other role's included, each
sequencer's receive takes the ProtocolError: `STATUS`, `PEND`, `ERR_OBS` and `ERR_EXP` are written, `CNT`, `BUF`, `LEN`,
`OP`, the latched operands, the results and their valid bits stay. -/
def Obligations.ReceivesTakeTheProtocolError : Prop :=
  ∀ (s : State) (b0 b1 b2 b3 : Byte) (payload : List Byte) (n : Nat) (i : Instr),
    s.status = .busy → s.pend = false → s.cnt = s.len → s.len ≤ Config.bufCapacity →
    s.len = 4 + payload.length → s.buf.readBytes 0 s.len = some ([b0, b1, b2, b3] ++ payload) →
    ¬ (b1 = 0x33#8 ∧ b2 = 0x22#8 ∧ b3 = 0x11#8) →
    (s.op = 0x6#4 ∧ i = .recvConfirm ∨ s.op = 0x7#4 ∧ i = .recvBuf n ∨
      s.op = 0xA#4 ∧ i = .recvI32 ∧ s.len = 8 ∨ s.op = 0xB#4 ∧ i = .recvU64 ∧ s.len = 12 ∨
      s.op = 0xC#4 ∧ i = .recvBool ∧ s.len = 5) →
    exec i s = .next { s with
      status := .errProtocol, pend := false, errObs := b3 ++ b2 ++ b1, errExp := 0x112233#24 }

/-- R136: with `LEN = 0` no attempt is issued and no TransportError is possible, whatever the transport would answer:
`REL_SEND` of nothing and `REL_RECV 0` are accepted and then end `DONE_OK`, the second with an empty `RES_DATA`. -/
def Obligations.ZeroLengthTouchesNoTransport : Prop :=
  ∀ (s : State) (rest : List HostAct) (q : Request) (ts : List Turn),
    s.status ≠ .busy → s.turns = .host :: .fhc :: ts → s.hostIn = .request q :: rest →
    (decodeRequest q = .ok (.relSend []) → ∃ t, Host.Core.run Sys2Proof.core 2 s = .next t ∧ t.status = .doneOk ∧
      t.pend = false ∧ t.txs = s.txs ∧ t.rxs = s.rxs ∧ t.transportIn = s.transportIn) ∧
    (decodeRequest q = .ok (.relRecv 0) → ∃ t, Host.Core.run Sys2Proof.core 2 s = .next t ∧ t.status = .doneOk ∧
      t.pend = false ∧ t.txs = s.txs ∧ t.rxs = s.rxs ∧ t.transportIn = s.transportIn ∧
      t.hostRead .resData = .ok (.data []))

/-- R139, R27: while the transport never answers, the block stays where it is for ever: whatever turns are laid down,
short of a reset, any number of steps leaves everything but the turns unchanged. -/
def Obligations.BlockedAttemptStaysBlocked : Prop :=
  ∀ (s : State) (k : Nat), s.status = .busy → s.pend = true → s.transportIn = [] → s.hostIn = [] →
    .reset ∉ s.turns → Host.Core.run Sys2Proof.core k s = .next (s.setTurns (s.turns.drop k))

/-- R141, R137, R138, R140 for a send: from the start of its transfer, with any script of answers, the machine ends as
the function `Send` says: `DONE_OK` with all sent, or TransportError with exactly the prefix sent and no further
attempt, or blocked with the prefix sent. With no turn laid down, the order in which the agents move is
log 2 (DESIGN CHOICE). -/
def Obligations.SendRunsAsTheFunctionSays : Prop :=
  ∀ (s : State) (frame : List Byte) (script : List Int),
    s.status = .busy → s.pend = false → s.dir = some .tx → s.turns = [] →
    s.transportIn = script.map (fun r => TransportAct.progress r []) → s.hostIn = [] →
    s.cnt ≤ s.len → s.len ≤ Config.bufCapacity → s.buf.readBytes 0 s.len = some frame →
    (sendLoop s.len s.cnt script).1 ≠ .outsideContract →
    ∃ (n : Nat) (t : State), Host.Core.run Sys2Proof.core n s = .next t ∧
      t.cnt = (sendLoop s.len s.cnt script).2 ∧ t.buf = s.buf ∧ t.rxs = s.rxs ∧
      t.txs = s.txs ++ (frame.drop s.cnt).take (t.cnt - s.cnt) ∧
      match (sendLoop s.len s.cnt script).1 with
      | .ok => t.status = .doneOk ∧ t.pend = false ∧ t.cnt = s.len
      | .transportError => t.status = .errTransport ∧ t.pend = false ∧ t.cnt < s.len
      | .blocked => t.status = .busy ∧ t.pend = true ∧ t.transportIn = []
      | .outsideContract => False

/-- R141, R137, R138, R140 for a receive: from its acceptance, with any script of answers, the machine ends as the
function `Recv` says. When all the bytes have come it has left `BUSY`; after a TransportError the bytes consumed are
in `RXS` and no result is valid. With no turn laid down, the order in which the agents move is log 2 (DESIGN CHOICE). -/
def Obligations.ReceiveRunsAsTheFunctionSays : Prop :=
  ∀ (s : State) (script : List (Int × List Byte)), Invariants s →
    s.status = .busy → s.pend = false → s.dir = some .rx → s.turns = [] → s.cnt = 0 →
    s.transportIn = script.map (fun a => TransportAct.progress a.1 a.2) → s.hostIn = [] →
    (recvLoop s.len [] script).1 ≠ .outsideContract →
    ∃ (n : Nat) (t : State), Host.Core.run Sys2Proof.core n s = .next t ∧
      t.rxs = s.rxs ++ (recvLoop s.len [] script).2 ∧ t.txs = s.txs ∧
      t.cnt = (recvLoop s.len [] script).2.length ∧ t.buf.readBytes 0 t.cnt = some (recvLoop s.len [] script).2 ∧
      match (recvLoop s.len [] script).1 with
      | .ok => (t.status = .doneOk ∨ t.status = .errProtocol) ∧ t.pend = false ∧ t.cnt = s.len
      | .transportError => t.status = .errTransport ∧ t.pend = false ∧ t.valid.any = false
      | .blocked => t.status = .busy ∧ t.pend = true ∧ t.transportIn = []
      | .outsideContract => False

/-- R137 for whole send operations: whatever the sizes of the answers, if all are positive and add up to the frame, the
operation runs from its request to `DONE_OK` and appends exactly its frame to `TXS`: the bytes of `REL_SEND`, the
command header, or the buffer header and the data. The order of the turns after the first is log 2 (DESIGN CHOICE). -/
def Obligations.FragmentationOfSendsDoesNotShow : Prop :=
  ∀ (s : State) (q : Request) (i : Instr) (frame : List Byte) (script : List Nat),
    s.status ≠ .busy → s.turns = [.host] → s.hostIn = [.request q] → decodeRequest q = .ok i →
    ((i = .relSend frame ∧ frame.length ≤ Config.maxPayload) ∨
      (∃ code, i = .sendCmd code ∧ frame = [code, 0x11#8, 0x22#8, 0x33#8]) ∨
      (∃ data, i = .sendBuf data ∧ data.length ≤ Config.maxPayload ∧
        frame = [0x00#8, 0x11#8, 0x22#8, 0x33#8] ++ data) ∨
      (∃ v, i = .sendU64 v ∧
        frame = [0x00#8, 0x11#8, 0x22#8, 0x33#8] ++ (List.range 8).map fun j => v.extractLsb' (8 * j) 8)) →
    (∀ r ∈ script, 0 < r) → script.sum = frame.length →
    s.transportIn = script.map (fun r => TransportAct.progress (r : Int) []) →
    ∃ (n : Nat) (t : State), Host.Core.run Sys2Proof.core n s = .next t ∧ t.status = .doneOk ∧
      t.txs = s.txs ++ frame ∧ t.rxs = s.rxs ∧ t.cnt = frame.length ∧ t.transportIn = []

/-- R137, R161, R162, R165, R166, R167 for whole receive operations: whatever the pieces in which the transport delivers
a frame that the peer's magic heads, the operation runs from its request to `DONE_OK`, `RXS` has grown by the frame,
and the host reads the result: the bytes, the payload, the signed or unsigned value, or the truth value. The order of
the turns after the first is log 2 (DESIGN CHOICE); that signed means two's complement is log 16 (PRESUMED, G1). -/
def Obligations.FragmentationOfReceivesDoesNotShow : Prop :=
  ∀ (s : State) (q : Request) (i : Instr) (pieces : List (List Byte)) (low : Byte) (payload : List Byte)
    (reg : HostReg) (value : HostValue),
    s.status ≠ .busy → s.turns = [.host] → s.hostIn = [.request q] → decodeRequest q = .ok i →
    (∀ p ∈ pieces, p ≠ []) →
    s.transportIn = pieces.map (fun p => TransportAct.progress (p.length : Int) p) →
    ((i = .relRecv pieces.flatten.length ∧ pieces.flatten.length ≤ Config.maxPayload ∧ reg = .resData ∧
        value = .data pieces.flatten) ∨
      pieces.flatten = [low, 0x33#8, 0x22#8, 0x11#8] ++ payload ∧
        ((i = .recvConfirm ∧ payload = [] ∧ reg = .status ∧ value = .status 2#3) ∨
          (i = .recvBuf payload.length ∧ payload.length ≤ Config.maxPayload ∧ reg = .resData ∧ value = .data payload) ∨
          (i = .recvI32 ∧ payload.length = 4 ∧ reg = .resI32 ∧
            value = .signed (BitVec.ofNat 32 (le payload)).toInt) ∨
          (i = .recvU64 ∧ payload.length = 8 ∧ reg = .resU64 ∧ value = .word64 (BitVec.ofNat 64 (le payload))) ∨
          (∃ b, i = .recvBool ∧ payload = [b] ∧ reg = .resBool ∧ value = .truth (decide (b ≠ 0x00#8))))) →
    ∃ (n : Nat) (t : State), Host.Core.run Sys2Proof.core n s = .next t ∧ t.status = .doneOk ∧
      t.rxs = s.rxs ++ pieces.flatten ∧ t.txs = s.txs ∧ t.transportIn = [] ∧ t.hostRead reg = .ok value

/-! ## The headers on the wire (30_encoding R84 to R96; log 6) -/

/-- R84 to R91, R133 (log 6): a command frame's header that the outstanding send offers next leaves whole: its four
bytes enter `TXS`, `CNT` advances by 4, and nothing else changes; no code closes or does anything more. -/
def Obligations.CommandHeadersLeaveOnTheWire : Prop :=
  ∀ (s : State) (i : Instr) (code : Byte), s.pend = true → s.dir = some .tx → s.cnt + 4 ≤ s.len →
    s.len ≤ Config.bufCapacity → s.buf.readBytes s.cnt 4 = some [code, 0x11#8, 0x22#8, 0x33#8] →
    (i, code) ∈ [(.frameSendBuffer, 0x00#8), (.frameConfirm, 0x01#8), (.frameGetControlData, 0x02#8),
      (.frameListApps, 0x03#8), (.frameGetActiveUser, 0x04#8), (.frameGetCurrentApp, 0x05#8),
      (.frameGetVersion, 0x06#8), ((.frameDisconnect : Instr), (0xFF#8 : Byte))] →
    exec i s = .next { s with
      txs := s.txs ++ [code, 0x11#8, 0x22#8, 0x33#8], cnt := s.cnt + 4, pend := false }

/-- R94, R95, R96, R134, R169 (log 6): any header reaches the outstanding receive as the next four bytes, whatever its
magic and low byte: nothing is compared while the bytes arrive. They enter `RXS` and `BUF`, `CNT` advances by 4, and
nothing else changes. So does each of the nine rows as an instruction, and so does every header whatever, one with no row
included, at the transport's turn. -/
def Obligations.HeadersReachAReceiveUncompared : Prop :=
  ∀ s : State, s.pend = true → s.dir = some .rx → s.cnt + 4 ≤ s.len → s.len ≤ Config.bufCapacity →
    let arrived (u : State) (bytes : List Byte) (t : State) : Prop :=
      t = { u with rxs := s.rxs ++ bytes, cnt := s.cnt + 4, pend := false, buf := t.buf } ∧
      ∀ a, t.buf.get a = if s.cnt ≤ a ∧ a < s.cnt + 4 then bytes[a - s.cnt]? else s.buf.get a
    (∀ low : Byte, ∃ t, exec (.framePeer low) s = .next t ∧ arrived s [low, 0x33#8, 0x22#8, 0x11#8] t) ∧
    (∀ (i : Instr) (low : Byte),
      (i, low) ∈ [(.frameSendBuffer, 0x00#8), (.frameConfirm, 0x01#8), (.frameGetControlData, 0x02#8),
        (.frameListApps, 0x03#8), (.frameGetActiveUser, 0x04#8), (.frameGetCurrentApp, 0x05#8),
        (.frameGetVersion, 0x06#8), ((.frameDisconnect : Instr), (0xFF#8 : Byte))] →
      ∃ t, exec i s = .next t ∧ arrived s [low, 0x11#8, 0x22#8, 0x33#8] t) ∧
    (∀ (b0 b1 b2 b3 : Byte) (ts : List Turn) (rest : List TransportAct),
      s.turns = .transport :: ts → s.transportIn = .header ⟨b0, b1, b2, b3⟩ :: rest →
      ∃ t, step s = .next t ∧ arrived { s with turns := ts, transportIn := rest } [b0, b1, b2, b3] t)

/-- R55, R56, R95, R133, R204 (log 6): every header whatever, one with no row of the table included, at the transport's
turn. With no attempt outstanding it stays with the transport; a send that offers those four bytes next has them
accepted; to a send that offers others, and to an attempt with fewer than four bytes to go, it is outside the port's
contract, and no step of the machine. -/
def Obligations.AnyHeaderAtTheTransportsTurn : Prop :=
  ∀ (s : State) (b0 b1 b2 b3 : Byte) (ts : List Turn) (rest : List TransportAct),
    s.turns = .transport :: ts → s.transportIn = .header ⟨b0, b1, b2, b3⟩ :: rest →
    (s.pend = false → step s = .next { s with turns := ts }) ∧
    (s.pend = true → s.dir = some .tx → s.buf.readBytes s.cnt 4 = some [b0, b1, b2, b3] → s.cnt + 4 ≤ s.len →
      s.len ≤ Config.bufCapacity →
      step s = .next { s with
        turns := ts, transportIn := rest, txs := s.txs ++ [b0, b1, b2, b3], cnt := s.cnt + 4, pend := false }) ∧
    (s.pend = true → s.dir = some .tx → s.buf.readBytes s.cnt 4 ≠ some [b0, b1, b2, b3] →
      step s = .refused (.headerNotOffered ⟨b0, b1, b2, b3⟩)) ∧
    (s.pend = true → s.dir = some .tx ∧ s.buf.readBytes s.cnt 4 = some [b0, b1, b2, b3] ∨ s.dir = some .rx →
      s.len - s.cnt < 4 → step s = .refused (.answerBeyondCount 4))

/-- R55, R56, R204 (log 6): a header crosses only as an answer to an outstanding attempt. With none outstanding its row
changes nothing; to a send that does not offer those four bytes next, and to an attempt that has fewer than four bytes
to go, it is outside the port's contract, and no step of the machine. -/
def Obligations.HeadersCrossOnlyAsAnswers : Prop :=
  ∀ (s : State) (i : Instr) (q : Quad), decodeHeader q = .ok i →
    (s.pend = false → exec i s = .next s) ∧
    (s.pend = true → s.dir = some .tx → s.buf.readBytes s.cnt 4 ≠ some q.toList →
      exec i s = .refused (.headerNotOffered q)) ∧
    (s.pend = true → s.dir = some .tx ∧ s.buf.readBytes s.cnt 4 = some q.toList ∨ s.dir = some .rx →
      s.len - s.cnt < 4 → exec i s = .refused (.answerBeyondCount 4))

/-! ## Errors and rules of the whole machine (60_exceptions) -/

/-- R205, R202, R169: from `BUSY` a step takes the ProtocolError only when no attempt is outstanding and the whole frame
has come, and then the expected magic is the peer's; so a stream that ends before the frame does is a TransportError
whatever header bytes are in `BUF`. -/
def Obligations.ProtocolErrorOnlyAfterTheWholeFrame : Prop :=
  ∀ s t : State, step s = .next t → s.status = .busy → t.status = .errProtocol →
    s.pend = false ∧ s.cnt = s.len ∧ t.errExp = 0x112233#24 ∧ t.txs = s.txs ∧ t.rxs = s.rxs

/-- R27, R139, R214: while an attempt is outstanding `STATUS` leaves `BUSY` only by a reset, or by an answer of the
transport's, which is then a TransportError. -/
def Obligations.OnlyAnAnswerOrResetEndsAnAttempt : Prop :=
  ∀ s t : State, step s = .next t → s.status = .busy → s.pend = true → t.pend = false ∨ t.status ≠ .busy →
    (∃ ts, s.turns = .reset :: ts ∧ t.status = .idle) ∨
    (∃ act, s.transportIn = act :: t.transportIn ∧ (t.status = .busy ∧ s.cnt < t.cnt ∨
      t.status = .errTransport ∧ t.cnt = s.cnt ∧ t.txs = s.txs ∧ t.rxs = s.rxs))

/-- R33, R57, R58, R59: no step takes a byte back: `TXS` and `RXS` only grow at their ends. -/
def Obligations.StreamsOnlyGrow : Prop :=
  ∀ s t : State, step s = .next t → s.txs <+: t.txs ∧ s.rxs <+: t.rxs

/-- R23, R25, R26, R34: while an operation stays in flight no step changes the latched request or `LEN`, `CNT` never
decreases, a byte of `BUF` below `CNT` is never rewritten, and a send's frame does not change at all. -/
def Obligations.OperationInFlightKeepsItsRequest : Prop :=
  ∀ s t : State, step s = .next t → s.status = .busy → t.status = .busy →
    t.op = s.op ∧ t.argCode = s.argCode ∧ t.argRole = s.argRole ∧ t.argHdr = s.argHdr ∧ t.argSize = s.argSize ∧
    t.argVal = s.argVal ∧ t.len = s.len ∧ s.cnt ≤ t.cnt ∧ (∀ a, a < s.cnt → t.buf.get a = s.buf.get a) ∧
    (s.dir = some .tx → t.buf = s.buf)

/-- R28: `ERR_OBS` and `ERR_EXP` are written only when a ProtocolError is raised, or by a reset. -/
def Obligations.ErrorRegistersChangeOnlyWithProtocolError : Prop :=
  ∀ s t : State, step s = .next t → t.errObs ≠ s.errObs ∨ t.errExp ≠ s.errExp →
    t.status = .errProtocol ∨ ∃ ts, s.turns = .reset :: ts

/-- R35, R29, R28, R22 (log 12, DESIGN CHOICE: a read is a move of its own): what the host may read. `STATUS` at any
time, by R22's numbers; the error registers under `ERR_PROTOCOL` alone; a result register when its valid bit is 1; any
other read is a fault of the host, and a read changes nothing of FHC. That the host reads `RES_I32` as two's complement is
log 16 (PRESUMED, G1). -/
def Obligations.HostReadsOnlyWhatIsValid : Prop :=
  ∀ (s : State) (ts : List Turn) (reg : HostReg) (rest : List HostAct),
    s.turns = .host :: ts → s.hostIn = .read reg :: rest →
    let readable : Prop :=
      match reg with
      | .status => True
      | .errObs => s.status = .errProtocol
      | .errExp => s.status = .errProtocol
      | .resHdr => s.valid.hdr = true
      | .resLow => s.valid.low = true
      | .resData => s.valid.data = true
      | .resI32 => s.valid.i32 = true
      | .resU64 => s.valid.u64 = true
      | .resBool => s.valid.bool = true
    (¬ readable → step s = .fault (.invalidRead reg)) ∧
    (readable → Invariants s →
      ∃ v, step s = .next { s with turns := ts, hostIn := rest, hostSaw := some v } ∧
        match reg with
        | .status => v = .status (match s.status with
          | .idle => 0#3 | .busy => 1#3 | .doneOk => 2#3 | .errTransport => 3#3 | .errProtocol => 4#3)
        | .errObs => v = .top24 s.errObs
        | .errExp => v = .top24 s.errExp
        | .resHdr => v = .header s.resHdr
        | .resLow => v = .byte s.resLow
        | .resData => ∃ bytes, v = .data bytes ∧ s.buf.readBytes (if s.op = 0x4#4 then 0 else 4) s.resLen = some bytes
        | .resI32 => v = .signed s.resI32.toInt
        | .resU64 => v = .word64 s.resU64
        | .resBool => v = .truth s.resBool)

/-! ## Invariants and isolation -/

/-- R34: every step from a state that meets the invariants gives a state that meets them. -/
def Obligations.EveryStepKeepsTheInvariants : Prop :=
  ∀ s t : State, Invariants s → step s = .next t → Invariants t

/-- R34, R135: from a state that meets the invariants a step stops only at the boundary: a fault is the host's invalid
read, and a refusal is one of the six of `Refusal.atBoundary`. -/
def Obligations.StopsOnlyAtTheBoundary : Prop :=
  ∀ s : State, Invariants s → Result.boundaryOnly (step s)

/-- R20, R170, R34: the relation that no memory between operations rests on is kept by every step. Two machines that
agree in what FHC's coming steps, the host and the transport can tell apart go on to two that agree, or stop alike; and
while they agree the host reads the same from both. -/
def Obligations.AlikeMachinesStayAlike : Prop :=
  ∀ a b : State, Alike a b → Result.alike (step a) (step b) ∧ ∀ reg, a.hostRead reg = b.hostRead reg

/-- R20, R170: no memory between operations. Two machines that accept the same request from any two states that have
nothing in flight, and then see the same inputs, stay alike in all the host can read, stop alike, and move the same
bytes, however many steps are taken and whatever operations follow. -/
def Obligations.NoMemoryBetweenOperations : Prop :=
  ∀ (s₁ s₂ : State) (q : Request) (rest : List HostAct) (ts : List Turn) (i : Instr) (k : Nat),
    s₁.status ≠ .busy → s₂.status ≠ .busy → decodeRequest q = .ok i →
    s₁.hostIn = .request q :: rest → s₂.hostIn = .request q :: rest →
    s₁.turns = .host :: ts → s₂.turns = .host :: ts →
    s₁.transportIn = s₂.transportIn → s₁.orphans = s₂.orphans → s₁.txs = s₂.txs → s₁.rxs = s₂.rxs →
    match Host.Core.run Sys2Proof.core (k + 1) s₁, Host.Core.run Sys2Proof.core (k + 1) s₂ with
    | .next t₁, .next t₂ => (∀ reg, t₁.hostRead reg = t₂.hostRead reg) ∧ t₁.txs = t₂.txs ∧ t₁.rxs = t₂.rxs
    | .fault f₁, .fault f₂ => f₁ = f₂
    | .refused r₁, .refused r₂ => r₁ = r₂
    | _, _ => False
end

