-- ==== Sys2Proof/Laws/Bytes.lean ====
section
/-! SUPPORT. The laws of byte order and of the header constants (00_scope R9, 10_state R21, 30_encoding R82, R101). -/

namespace Sys2Proof

@[simp] theorem Quad.toList_length (q : Quad) : q.toList.length = 4 := rfl

theorem Quad.toList_injective {p q : Quad} (h : p.toList = q.toList) : p = q := by
  cases p; cases q
  simp only [Quad.toList, List.cons.injEq, and_true] at h
  obtain ⟨rfl, rfl, rfl, rfl⟩ := h
  rfl

/-- Bit `i` of `le32`: it is bit `i % 8` of byte `i / 8` (R51, R52). -/
theorem Quad.getLsbD_le32 (q : Quad) (i : Nat) :
    q.le32.getLsbD i =
      if i < 8 then q.b0.getLsbD i
      else if i < 16 then q.b1.getLsbD (i - 8)
      else if i < 24 then q.b2.getLsbD (i - 16)
      else q.b3.getLsbD (i - 24) := by
  simp only [Quad.le32, BitVec.getLsbD_append]
  by_cases h0 : i < 8
  · simp [h0]
  · by_cases h1 : i < 16
    · simp [h0, h1, show i - 8 < 8 by omega]
    · by_cases h2 : i < 24
      · simp only [h0, h1, h2, show ¬ i - 8 < 8 by omega, show i - 8 - 8 = i - 16 by omega, show i - 16 < 8 by omega,
          if_false, if_true]
      · simp only [h0, h1, h2, show ¬ i - 8 < 8 by omega, show i - 8 - 8 = i - 16 by omega,
          show ¬ i - 16 < 8 by omega, show i - 16 - 8 = i - 24 by omega, if_false]

/-- `le32(bytes_le(v, 4)) = v` (R9). -/
@[simp] theorem Quad.le32_ofLe32 (v : BitVec 32) : (Quad.ofLe32 v).le32 = v := by
  refine BitVec.eq_of_getLsbD_eq fun i hi => ?_
  rw [Quad.getLsbD_le32]
  simp only [Quad.ofLe32, BitVec.getLsbD_extractLsb']
  split
  · rename_i h; simp [h]
  · split
    · rename_i h h'; simp [show i - 8 < 8 by omega, show 8 + (i - 8) = i by omega]
    · split
      · simp [show i - 16 < 8 by omega, show 16 + (i - 16) = i by omega]
      · simp [show i - 24 < 8 by omega, show 24 + (i - 24) = i by omega]

/-- `le32` loses nothing. -/
theorem Quad.le32_injective {p q : Quad} (h : p.le32 = q.le32) : p = q := by
  have key : ∀ i, p.le32.getLsbD i = q.le32.getLsbD i := fun i => by rw [h]
  simp only [Quad.getLsbD_le32] at key
  obtain ⟨p0, p1, p2, p3⟩ := p
  obtain ⟨q0, q1, q2, q3⟩ := q
  simp only [Quad.mk.injEq]
  refine ⟨?_, ?_, ?_, ?_⟩ <;> refine BitVec.eq_of_getLsbD_eq fun i hi => ?_
  · simpa [hi] using key i
  · simpa [hi, show ¬ 8 + i < 8 by omega, show 8 + i < 16 by omega] using key (8 + i)
  · simpa [hi, show ¬ 16 + i < 8 by omega, show ¬ 16 + i < 16 by omega, show 16 + i < 24 by omega] using key (16 + i)
  · simpa [hi, show ¬ 24 + i < 8 by omega, show ¬ 24 + i < 16 by omega, show ¬ 24 + i < 24 by omega] using key (24 + i)

/-- `bytes_le(le32(B), 4) = B` (R9). -/
@[simp] theorem Quad.ofLe32_le32 (q : Quad) : Quad.ofLe32 q.le32 = q :=
  Quad.le32_injective (Quad.le32_ofLe32 q.le32)

/-- The top 24 bits are the bytes 1 to 3 (R52). -/
theorem Quad.top24_le32 (q : Quad) : top24 q.le32 = q.b3 ++ q.b2 ++ q.b1 := by
  refine BitVec.eq_of_getLsbD_eq fun i hi => ?_
  simp only [top24, BitVec.getLsbD_extractLsb', Quad.getLsbD_le32, hi, decide_true, Bool.true_and,
    BitVec.getLsbD_append, show ¬ 8 + i < 8 by omega, if_false]
  by_cases h1 : i < 8
  · simp [h1, show 8 + i < 16 by omega]
  · by_cases h2 : i < 16
    · simp [h1, show ¬ 8 + i < 16 by omega, show 8 + i < 24 by omega, show i - 8 < 8 by omega,
        show 8 + i - 16 = i - 8 by omega]
    · simp [h1, show ¬ 8 + i < 16 by omega, show ¬ 8 + i < 24 by omega, show ¬ i - 8 < 8 by omega,
        show 8 + i - 24 = i - 8 - 8 by omega]

/-- The low byte is byte 0 (R52). -/
@[simp] theorem Quad.lowByte_le32 (q : Quad) : lowByte q.le32 = q.b0 := by
  refine BitVec.eq_of_getLsbD_eq fun i hi => ?_
  simp [lowByte, Quad.getLsbD_le32, hi]

/-- Three bytes put together are equal exactly when each is. -/
theorem bytes24_eq (a b c x y z : Byte) : a ++ b ++ c = x ++ y ++ z ↔ a = x ∧ b = y ∧ c = z := by
  constructor
  · intro h
    have key : ∀ i, (a ++ b ++ c).getLsbD i = (x ++ y ++ z).getLsbD i := fun i => by rw [h]
    simp only [BitVec.getLsbD_append] at key
    refine ⟨?_, ?_, ?_⟩ <;> refine BitVec.eq_of_getLsbD_eq fun i hi => ?_
    · simpa [show ¬ 16 + i < 8 by omega, show ¬ 16 + i - 8 < 8 by omega, show 16 + i - 8 - 8 = i by omega]
        using key (16 + i)
    · simpa [hi, show ¬ 8 + i < 8 by omega, show 8 + i - 8 = i by omega] using key (8 + i)
    · simpa [hi] using key i
  · rintro ⟨rfl, rfl, rfl⟩; rfl

/-- The masked test of R112 compares the top 24 bits, for an expected value whose low byte is zero. -/
theorem headerMatches_iff_top24 (v e : BitVec 32) (he : lowByte e = 0x00#8) :
    headerMatches v e = true ↔ top24 v = top24 e := by
  have hmask : ∀ i, i < 32 → hdrMask.getLsbD i = decide (8 ≤ i) := by decide
  have hlow : ∀ i, i < 8 → e.getLsbD i = false := fun i hi => by
    have := congrArg (fun b : Byte => b.getLsbD i) he
    simpa [lowByte, hi] using this
  simp only [headerMatches, decide_eq_true_eq]
  constructor
  · intro h
    refine BitVec.eq_of_getLsbD_eq fun i hi => ?_
    have := congrArg (fun b : BitVec 32 => b.getLsbD (8 + i)) h
    simpa [hmask (8 + i) (by omega), top24, hi] using this
  · intro h
    refine BitVec.eq_of_getLsbD_eq fun i hi => ?_
    rw [BitVec.getLsbD_and, hmask i hi]
    by_cases h8 : 8 ≤ i
    · have := congrArg (fun b : BitVec 24 => b.getLsbD (i - 8)) h
      simp only [top24, BitVec.getLsbD_extractLsb', show i - 8 < 24 by omega, decide_true, Bool.true_and,
        show 8 + (i - 8) = i by omega] at this
      simp [h8, this]
    · simp [h8, hlow i (by omega)]

/-- A header passes the test for the peer role exactly when its bytes 1 to 3 are `{0x33,0x22,0x11}` (R112). -/
theorem headerMatches_peer (q : Quad) :
    headerMatches q.le32 Role.peer.magic = true ↔ q.b1 = 0x33#8 ∧ q.b2 = 0x22#8 ∧ q.b3 = 0x11#8 := by
  rw [headerMatches_iff_top24 _ _ (by decide), Quad.top24_le32,
    show top24 Role.peer.magic = 0x11#8 ++ 0x22#8 ++ 0x33#8 by decide, bytes24_eq]
  exact ⟨fun ⟨a, b, c⟩ => ⟨c, b, a⟩, fun ⟨a, b, c⟩ => ⟨c, b, a⟩⟩

/-- A header passes the test for the client role exactly when its bytes 1 to 3 are `{0x11,0x22,0x33}` (R112). -/
theorem headerMatches_client (q : Quad) :
    headerMatches q.le32 Role.client.magic = true ↔ q.b1 = 0x11#8 ∧ q.b2 = 0x22#8 ∧ q.b3 = 0x33#8 := by
  rw [headerMatches_iff_top24 _ _ (by decide), Quad.top24_le32,
    show top24 Role.client.magic = 0x33#8 ++ 0x22#8 ++ 0x11#8 by decide, bytes24_eq]
  exact ⟨fun ⟨a, b, c⟩ => ⟨c, b, a⟩, fun ⟨a, b, c⟩ => ⟨c, b, a⟩⟩

/-- A command header on the wire is `{code,0x11,0x22,0x33}` (R52, R82). -/
theorem commandHeaderBytes_eq (code : Byte) : commandHeaderBytes code = ⟨code, 0x11#8, 0x22#8, 0x33#8⟩ := by
  refine Quad.le32_injective ?_
  rw [commandHeaderBytes, Quad.le32_ofLe32, commandHeader]
  refine BitVec.eq_of_getLsbD_eq fun i hi => ?_
  have hm : ∀ i, i < 32 → magicClient.getLsbD i =
      if i < 8 then false else if i < 16 then (0x11#8).getLsbD (i - 8)
      else if i < 24 then (0x22#8).getLsbD (i - 16) else (0x33#8).getLsbD (i - 24) := by decide
  rw [Quad.getLsbD_le32, BitVec.getLsbD_or, hm i hi, BitVec.getLsbD_setWidth]
  by_cases h : i < 8
  · simp [h, hi]
  · simp only [h, if_false, hi, decide_true, Bool.true_and, BitVec.getLsbD_of_ge code i (by omega), Bool.or_false]

/-- A peer's header on the wire is `{low,0x33,0x22,0x11}` (R52, R94). -/
theorem peerHeaderBytes_eq (low : Byte) : peerHeaderBytes low = ⟨low, 0x33#8, 0x22#8, 0x11#8⟩ := by
  refine Quad.le32_injective ?_
  rw [peerHeaderBytes, Quad.le32_ofLe32]
  refine BitVec.eq_of_getLsbD_eq fun i hi => ?_
  have hm : ∀ i, i < 32 → magicPeer.getLsbD i =
      if i < 8 then false else if i < 16 then (0x33#8).getLsbD (i - 8)
      else if i < 24 then (0x22#8).getLsbD (i - 16) else (0x11#8).getLsbD (i - 24) := by decide
  rw [Quad.getLsbD_le32, BitVec.getLsbD_or, hm i hi, BitVec.getLsbD_setWidth]
  by_cases h : i < 8
  · simp [h, hi]
  · simp only [h, if_false, hi, decide_true, Bool.true_and, BitVec.getLsbD_of_ge low i (by omega), Bool.or_false]

/-- The buffer header on the wire is `{0x00,0x11,0x22,0x33}` (R101 (b)). -/
theorem bufferHeaderBytes_eq : bufferHeaderBytes = ⟨0x00#8, 0x11#8, 0x22#8, 0x33#8⟩ := by decide

@[simp] theorem bytesLe_length {w : Nat} (v : BitVec w) (n : Nat) : (bytesLe v n).length = n := by
  induction n generalizing v with
  | zero => rfl
  | succ n ih => simp [bytesLe, ih]

/-- `le(bytes_le(v, n))` is the value, as far as `n` bytes hold it (R9). -/
theorem le_bytesLe {w : Nat} (v : BitVec w) (n : Nat) : le (bytesLe v n) = v.toNat % 256 ^ n := by
  induction n generalizing v with
  | zero => simp [bytesLe, le, Nat.mod_one]
  | succ n ih =>
    rw [bytesLe, le, ih, BitVec.toNat_setWidth, BitVec.toNat_ushiftRight, Nat.shiftRight_eq_div_pow,
      show 256 ^ (n + 1) = 256 * 256 ^ n from pow_succ' .., Nat.mod_mul]

/-- A 64-bit value sent as eight bytes reads back as that value (R9, R101 (e), (g)). -/
theorem le64_bytesLe (v : BitVec 64) : le64 (bytesLe v 8) = v := by
  rw [le64, le_bytesLe, Nat.mod_eq_of_lt (by have := v.isLt; omega), BitVec.ofNat_toNat, BitVec.setWidth_eq]

@[simp] theorem bufferFrame_length (data : List Byte) : (bufferFrame data).length = 4 + data.length := by
  simp [bufferFrame]

/-- The eight bytes of a `SEND_U64` payload, one by one (R9, R101 (e)). -/
theorem bytesLe_eight (v : BitVec 64) : bytesLe v 8 = (List.range 8).map fun i => v.extractLsb' (8 * i) 8 := by
  simp only [bytesLe, List.range, List.range.loop, List.map, List.cons.injEq, and_true]
  refine ⟨?_, ?_, ?_, ?_, ?_, ?_, ?_, ?_⟩ <;> refine BitVec.eq_of_getLsbD_eq fun i hi => ?_ <;> simp [hi]

/-- A buffer frame, byte by byte (42_dispatch R163). -/
theorem bufferFrame_eq (data : List Byte) : bufferFrame data = [0x00#8, 0x11#8, 0x22#8, 0x33#8] ++ data := by
  rw [bufferFrame, bufferHeaderBytes_eq]
  rfl

/-- Four bytes read little-endian (R9). -/
theorem le_four (p0 p1 p2 p3 : Byte) : BitVec.ofNat 32 (le [p0, p1, p2, p3]) = p3 ++ p2 ++ p1 ++ p0 := by
  apply BitVec.eq_of_toNat_eq
  have h0 := p0.isLt
  have h1 := p1.isLt
  have h2 := p2.isLt
  have h3 := p3.isLt
  simp only [le, BitVec.toNat_ofNat, BitVec.toNat_append]
  rw [← Nat.shiftLeft_add_eq_or_of_lt h0, ← Nat.shiftLeft_add_eq_or_of_lt h1, ← Nat.shiftLeft_add_eq_or_of_lt h2]
  simp only [Nat.shiftLeft_eq]
  omega

/-- Eight bytes read little-endian (R9, R101 (g)). -/
theorem le64_eight (p0 p1 p2 p3 p4 p5 p6 p7 : Byte) :
    le64 [p0, p1, p2, p3, p4, p5, p6, p7] = p7 ++ p6 ++ p5 ++ p4 ++ p3 ++ p2 ++ p1 ++ p0 := by
  apply BitVec.eq_of_toNat_eq
  have h0 := p0.isLt
  have h1 := p1.isLt
  have h2 := p2.isLt
  have h3 := p3.isLt
  have h4 := p4.isLt
  have h5 := p5.isLt
  have h6 := p6.isLt
  have h7 := p7.isLt
  simp only [le64, le, BitVec.toNat_ofNat, BitVec.toNat_append]
  rw [← Nat.shiftLeft_add_eq_or_of_lt h0, ← Nat.shiftLeft_add_eq_or_of_lt h1, ← Nat.shiftLeft_add_eq_or_of_lt h2,
    ← Nat.shiftLeft_add_eq_or_of_lt h3, ← Nat.shiftLeft_add_eq_or_of_lt h4, ← Nat.shiftLeft_add_eq_or_of_lt h5,
    ← Nat.shiftLeft_add_eq_or_of_lt h6]
  simp only [Nat.shiftLeft_eq]
  omega

end Sys2Proof
end

