-- ==== Sys2Proof/Laws/Decode.lean ====
section
/-! SUPPORT. The laws of the encoded forms: the fields of a control word (30_encoding R97) and the selectors (R99). -/

namespace Sys2Proof

/-- Every selector names its operation (R99). -/
@[simp] theorem Op.ofCode_code (o : Op) : Op.ofCode o.code = some o := by cases o <;> decide

/-- A selector that names an operation is that operation's number (R99). -/
theorem Op.code_of_ofCode {c : BitVec 4} {o : Op} (h : Op.ofCode c = some o) : o.code = c := by
  have := List.find?_some h
  simpa using this

/-- The selector `0xD` and those above it name none (R100). -/
theorem Op.ofCode_eq_none {c : BitVec 4} : Op.ofCode c = none ↔ 0xD#4 ≤ c := by revert c; decide

@[simp] theorem Role.ofBit_bit (r : Role) : Role.ofBit r.bit = r := by cases r <;> rfl

section
variable (o : Op) (role : BitVec 1) (code : Byte) (hdr : Quad) (size : Nat) (data : List Byte) (val : BitVec 64)

@[simp] theorem Request.opsel_controlWord :
    Request.opsel ⟨controlWord o role code, hdr, size, data, val⟩ = o.code := by
  refine BitVec.eq_of_getLsbD_eq fun i hi => ?_
  simp only [Request.opsel, controlWord, BitVec.getLsbD_extractLsb', BitVec.getLsbD_append, hi, decide_true,
    Bool.true_and, Nat.zero_add, if_true]

@[simp] theorem Request.role_controlWord :
    Request.role ⟨controlWord o role code, hdr, size, data, val⟩ = role := by
  refine BitVec.eq_of_getLsbD_eq fun i hi => ?_
  simp only [Request.role, controlWord, BitVec.getLsbD_extractLsb', BitVec.getLsbD_append, hi, decide_true,
    Bool.true_and, show ¬ 4 + i < 4 by omega, if_false, show 4 + i - 4 = i by omega, if_true]

@[simp] theorem Request.reserved_controlWord :
    Request.reserved ⟨controlWord o role code, hdr, size, data, val⟩ = 0#3 := by
  refine BitVec.eq_of_getLsbD_eq fun i hi => ?_
  simp only [Request.reserved, controlWord, BitVec.getLsbD_extractLsb', BitVec.getLsbD_append, hi, decide_true,
    Bool.true_and, show ¬ 5 + i < 4 by omega, show ¬ 5 + i - 4 < 1 by omega, if_false,
    show 5 + i - 4 - 1 = i by omega, if_true]

@[simp] theorem Request.code_controlWord :
    Request.code ⟨controlWord o role code, hdr, size, data, val⟩ = code := by
  refine BitVec.eq_of_getLsbD_eq fun i hi => ?_
  simp only [Request.code, controlWord, BitVec.getLsbD_extractLsb', BitVec.getLsbD_append, hi, decide_true,
    Bool.true_and, show ¬ 8 + i < 4 by omega, show ¬ 8 + i - 4 < 1 by omega, show ¬ 8 + i - 4 - 1 < 3 by omega,
    if_false, show 8 + i - 4 - 1 - 3 = i by omega]

/-- A request built for an operation is read as that operation with its operands. -/
theorem decodeRequest_controlWord :
    decodeRequest ⟨controlWord o role code, hdr, size, data, val⟩ =
      o.instr ⟨controlWord o role code, hdr, size, data, val⟩ := by
  simp [decodeRequest]

end

/-! ### The fixed bits of a control word -/

/-- The bits the opcode table fixes: `OPSEL` and the reserved bits (30_encoding R99). -/
theorem fixedBits :
    ∀ i, i < 16 → (0x00EF#16).getLsbD i = (decide (i < 4) || (decide (5 ≤ i) && decide (i < 8))) := by decide

/-- A control word's fixed bits are `c` exactly when its reserved bits are 0 and its selector is `c`. -/
theorem Request.fixed_iff (r : Request) (c : BitVec 4) :
    r.word &&& 0x00EF#16 = c.setWidth 16 ↔ r.reserved = 0#3 ∧ r.opsel = c := by
  constructor
  · intro h
    have key : ∀ i, (r.word &&& 0x00EF#16).getLsbD i = (c.setWidth 16).getLsbD i := fun i => by rw [h]
    simp only [BitVec.getLsbD_and, BitVec.getLsbD_setWidth] at key
    constructor <;> refine BitVec.eq_of_getLsbD_eq fun i hi => ?_
    · have := key (5 + i)
      rw [fixedBits _ (by omega), BitVec.getLsbD_of_ge c (5 + i) (by omega)] at this
      simp only [show 5 + i < 8 by omega, show 5 ≤ 5 + i by omega, decide_true, Bool.and_self, Bool.or_true,
        Bool.and_true, Bool.and_false] at this
      simp only [Request.reserved, BitVec.getLsbD_extractLsb', hi, decide_true, Bool.true_and, this,
        BitVec.getLsbD_zero]
    · have := key i
      rw [fixedBits _ (by omega)] at this
      simp only [hi, show i < 16 by omega, decide_true, Bool.true_or, Bool.and_true, Bool.true_and] at this
      simp only [Request.opsel, BitVec.getLsbD_extractLsb', hi, decide_true, Bool.true_and, this, Nat.zero_add]
  · rintro ⟨hr, ho⟩
    refine BitVec.eq_of_getLsbD_eq fun i hi => ?_
    rw [BitVec.getLsbD_and, fixedBits i hi, BitVec.getLsbD_setWidth]
    by_cases h4 : i < 4
    · have := congrArg (fun b : BitVec 4 => b.getLsbD i) ho
      simp only [Request.opsel, BitVec.getLsbD_extractLsb', h4, decide_true, Bool.true_and, Nat.zero_add] at this
      simp only [h4, hi, decide_true, Bool.true_or, Bool.and_true, Bool.true_and, this]
    · rw [BitVec.getLsbD_of_ge c i (by omega)]
      by_cases h8 : 5 ≤ i ∧ i < 8
      · have := congrArg (fun b : BitVec 3 => b.getLsbD (i - 5)) hr
        simp only [Request.reserved, BitVec.getLsbD_extractLsb', show i - 5 < 3 by omega, decide_true, Bool.true_and,
          show 5 + (i - 5) = i by omega, BitVec.getLsbD_zero] at this
        simp only [this, Bool.false_and, Bool.and_false]
      · have : (decide (5 ≤ i) && decide (i < 8)) = false := by simp; omega
        simp only [h4, this, decide_false, Bool.or_self, Bool.and_false]

/-- The fixed bits name the operation (R99). -/
theorem decodeRequest_of_fixed (r : Request) (o : Op) (h : r.word &&& 0x00EF#16 = o.code.setWidth 16) :
    decodeRequest r = o.instr r := by
  obtain ⟨hr, ho⟩ := (Request.fixed_iff r o.code).mp h
  simp [decodeRequest, hr, ho]

/-- Reserved encodings are rejected (R100). -/
theorem decodeRequest_reserved (r : Request) (h : 0x000D#16 ≤ r.word &&& 0x00EF#16) :
    ∃ why, decodeRequest r = .error why := by
  unfold decodeRequest
  by_cases hr : r.reserved = 0#3
  · have hf := (Request.fixed_iff r r.opsel).mpr ⟨hr, rfl⟩
    rw [hf] at h
    have : 0xD#4 ≤ r.opsel := by
      generalize r.opsel = c at h
      revert c; decide
    simp [hr, Op.ofCode_eq_none.mpr this]
  · simp [hr]

end Sys2Proof
end

