-- ==== Sys2Proof/Laws/Memory.lean ====
section
/-! SUPPORT. The laws of the frame buffer: reading after writing, and the canonical form. -/

namespace Sys2Proof.Machine

@[simp] theorem Memory.get_nil (a : Nat) : Memory.get [] a = none := rfl

/-- Reading one byte after writing one byte. -/
theorem Memory.get_set (m : Memory) (a x : Nat) (b : Byte) :
    (m.set a b).get x = if x = a then some b else m.get x := by
  induction m with
  | nil => simp only [Memory.set, Memory.get, eq_comm]
  | cons c cs ih =>
    unfold Memory.set
    split
    · by_cases h : x = a
      · simp [Memory.get, h]
      · simp [Memory.get, h, Ne.symm h]
    · split
      · rename_i _ hc
        by_cases h : x = a
        · simp [Memory.get, h]
        · simp [Memory.get, h, Ne.symm h, ← hc]
      · rename_i _ hc
        by_cases h : c.1 = x
        · have : x ≠ a := fun e => hc (by rw [← e, h])
          simp [Memory.get, h, this]
        · simp only [Memory.get, h, if_false, ih]

/-- Reading one byte after writing a byte string. -/
theorem Memory.get_writeBytes (bs : List Byte) (m : Memory) (a x : Nat) :
    (m.writeBytes a bs).get x = if a ≤ x ∧ x < a + bs.length then bs[x - a]? else m.get x := by
  induction bs generalizing m a with
  | nil => simp [Memory.writeBytes]
  | cons b bs ih =>
    rw [Memory.writeBytes, ih, Memory.get_set]
    by_cases h1 : a + 1 ≤ x ∧ x < a + 1 + bs.length
    · have h2 : a ≤ x ∧ x < a + (b :: bs).length := by simp only [List.length_cons]; omega
      have h3 : x - a = (x - (a + 1)) + 1 := by omega
      rw [if_pos h1, if_pos h2, h3, List.getElem?_cons_succ]
    · rw [if_neg h1]
      by_cases h4 : x = a
      · subst h4; simp
      · have h2 : ¬(a ≤ x ∧ x < a + (b :: bs).length) := by simp only [List.length_cons]; omega
        rw [if_neg h4, if_neg h2]

/-- A fresh buffer reads as the byte string it was made of. -/
theorem Memory.get_ofBytes (bs : List Byte) (x : Nat) : (Memory.ofBytes bs).get x = bs[x]? := by
  rw [Memory.ofBytes, Memory.get_writeBytes]
  by_cases h : x < bs.length
  · simp [h]
  · simp [h]

/-- What reading a range says: every byte of it was written. -/
theorem Memory.readBytes_eq_some (n : Nat) (m : Memory) (a : Nat) (bs : List Byte) :
    m.readBytes a n = some bs ↔ bs.length = n ∧ ∀ i, i < n → m.get (a + i) = bs[i]? := by
  induction n generalizing a bs with
  | zero => cases bs <;> simp [Memory.readBytes]
  | succ n ih =>
    constructor
    · intro h
      rw [Memory.readBytes] at h
      split at h
      · rename_i b rest hb hrest
        obtain rfl := Option.some.inj h
        obtain ⟨hl, hi⟩ := (ih (a + 1) rest).mp hrest
        refine ⟨by simp [hl], fun i hlt => ?_⟩
        cases i with
        | zero => simpa using hb
        | succ i =>
          have := hi i (by omega)
          rw [show a + 1 + i = a + (i + 1) by omega] at this
          simpa using this
      · cases h
    · rintro ⟨hl, hi⟩
      cases bs with
      | nil => simp at hl
      | cons b rest =>
        have h0 : m.get a = some b := by simpa using hi 0 (by omega)
        have hr : m.readBytes (a + 1) n = some rest := by
          refine (ih (a + 1) rest).mpr ⟨by simpa using hl, fun i hlt => ?_⟩
          have := hi (i + 1) (by omega)
          rw [show a + (i + 1) = a + 1 + i by omega] at this
          simpa using this
        rw [Memory.readBytes, h0, hr]

theorem Memory.readBytes_length {m : Memory} {a n : Nat} {bs : List Byte} (h : m.readBytes a n = some bs) :
    bs.length = n := ((Memory.readBytes_eq_some n m a bs).mp h).1

theorem Memory.readBytes_get {m : Memory} {a n : Nat} {bs : List Byte} (h : m.readBytes a n = some bs) {i : Nat}
    (hi : i < n) : m.get (a + i) = bs[i]? := ((Memory.readBytes_eq_some n m a bs).mp h).2 i hi

/-- A range can be read exactly when each of its bytes can. -/
theorem Memory.readBytes_isSome (m : Memory) (a n : Nat) :
    (m.readBytes a n).isSome = true ↔ ∀ i, i < n → (m.get (a + i)).isSome = true := by
  induction n generalizing a with
  | zero => simp [Memory.readBytes]
  | succ n ih =>
    constructor
    · intro h i hi
      obtain ⟨bs, hbs⟩ := Option.isSome_iff_exists.mp h
      have hl := Memory.readBytes_length hbs
      rw [Memory.readBytes_get hbs hi, List.getElem?_eq_getElem (by omega)]
      rfl
    · intro h
      obtain ⟨b, hb⟩ := Option.isSome_iff_exists.mp (h 0 (by omega))
      have hr := (ih (a + 1)).mpr fun i hi => by
        have := h (i + 1) (by omega)
        rwa [show a + (i + 1) = a + 1 + i by omega] at this
      obtain ⟨bs, hbs⟩ := Option.isSome_iff_exists.mp hr
      simp only [Nat.add_zero] at hb
      rw [Memory.readBytes, hb, hbs]
      rfl

/-- A part of a readable range reads as that part. -/
theorem Memory.readBytes_sub {m : Memory} {a n : Nat} {bs : List Byte} (h : m.readBytes a n = some bs) {k j : Nat}
    (hk : k + j ≤ n) : m.readBytes (a + k) j = some ((bs.drop k).take j) := by
  have hl := Memory.readBytes_length h
  refine (Memory.readBytes_eq_some j m (a + k) _).mpr ⟨by simp; omega, fun i hi => ?_⟩
  rw [show a + k + i = a + (k + i) by omega, Memory.readBytes_get h (by omega)]
  simp [hi]

/-- Two neighbouring ranges read as one. -/
theorem Memory.readBytes_append {m : Memory} {a n j : Nat} {bs cs : List Byte} (h : m.readBytes a n = some bs)
    (h' : m.readBytes (a + n) j = some cs) : m.readBytes a (n + j) = some (bs ++ cs) := by
  have hl := Memory.readBytes_length h
  have hl' := Memory.readBytes_length h'
  refine (Memory.readBytes_eq_some (n + j) m a _).mpr ⟨by simp [hl, hl'], fun i hi => ?_⟩
  by_cases hin : i < n
  · rw [Memory.readBytes_get h hin, List.getElem?_append_left (by omega)]
  · rw [List.getElem?_append_right (by omega), hl, ← Memory.readBytes_get h' (by omega)]
    congr 1
    omega

/-- The range a byte string was written to reads as that byte string. -/
theorem Memory.readBytes_writeBytes (m : Memory) (a : Nat) (bs : List Byte) :
    (m.writeBytes a bs).readBytes a bs.length = some bs := by
  refine (Memory.readBytes_eq_some _ _ _ _).mpr ⟨rfl, fun i hi => ?_⟩
  rw [Memory.get_writeBytes, if_pos (by omega)]
  congr 1
  omega

/-- A write above a range leaves the range alone. -/
theorem Memory.readBytes_writeBytes_below (m : Memory) {a n x : Nat} (bs : List Byte) (h : a + n ≤ x) :
    (m.writeBytes x bs).readBytes a n = m.readBytes a n := by
  induction n generalizing a with
  | zero => rfl
  | succ n ih =>
    rw [Memory.readBytes, Memory.readBytes, ih (by omega), Memory.get_writeBytes, if_neg (by omega)]

theorem Memory.readBytes_ofBytes (bs : List Byte) : (Memory.ofBytes bs).readBytes 0 bs.length = some bs :=
  Memory.readBytes_writeBytes [] 0 bs

/-! ### The canonical form -/

theorem Memory.wfFrom_mono {lo lo' : Nat} (h : lo' ≤ lo) {m : Memory} (hm : Memory.wfFrom lo m = true) :
    Memory.wfFrom lo' m = true := by
  cases m with
  | nil => rfl
  | cons c cs =>
    simp only [Memory.wfFrom, Bool.and_eq_true, decide_eq_true_eq] at hm ⊢
    exact ⟨by omega, hm.2⟩

theorem Memory.wfFrom_set {lo a : Nat} (b : Byte) (ha : lo ≤ a) {m : Memory} (hm : Memory.wfFrom lo m = true) :
    Memory.wfFrom lo (m.set a b) = true := by
  induction m generalizing lo with
  | nil => simp [Memory.set, Memory.wfFrom, ha]
  | cons c cs ih =>
    simp only [Memory.wfFrom, Bool.and_eq_true, decide_eq_true_eq] at hm
    unfold Memory.set
    split
    · simp only [Memory.wfFrom, Bool.and_eq_true, decide_eq_true_eq]
      exact ⟨ha, by omega, hm.2⟩
    · split
      · rename_i _ hc
        simp only [Memory.wfFrom, Bool.and_eq_true, decide_eq_true_eq]
        exact ⟨ha, hc ▸ hm.2⟩
      · simp only [Memory.wfFrom, Bool.and_eq_true, decide_eq_true_eq]
        exact ⟨hm.1, ih (by omega) hm.2⟩

/-- Every write keeps the canonical form. -/
theorem Memory.wf_set {m : Memory} (a : Nat) (b : Byte) (hm : m.wf = true) : (m.set a b).wf = true :=
  Memory.wfFrom_set b (Nat.zero_le a) hm

theorem Memory.wf_writeBytes (bs : List Byte) {m : Memory} (a : Nat) (hm : m.wf = true) :
    (m.writeBytes a bs).wf = true := by
  induction bs generalizing m a with
  | nil => exact hm
  | cons b bs ih => exact ih (a + 1) (Memory.wf_set a b hm)

theorem Memory.wf_ofBytes (bs : List Byte) : (Memory.ofBytes bs).wf = true := Memory.wf_writeBytes bs 0 rfl

/-! ### The addresses a write lists -/

theorem Memory.mem_set {m : Memory} {a : Nat} {b : Byte} {c : Host.Cell} (h : c ∈ m.set a b) : c.1 = a ∨ c ∈ m := by
  induction m with
  | nil => simp only [Memory.set, List.mem_singleton] at h; exact .inl (by rw [h])
  | cons d ds ih =>
    unfold Memory.set at h
    split at h
    · rcases List.mem_cons.mp h with rfl | h
      · exact .inl rfl
      · exact .inr h
    · split at h
      · rcases List.mem_cons.mp h with rfl | h
        · exact .inl rfl
        · exact .inr (List.mem_cons_of_mem _ h)
      · rcases List.mem_cons.mp h with rfl | h
        · exact .inr (List.mem_cons_self ..)
        · exact (ih h).imp id (List.mem_cons_of_mem _)

theorem Memory.mem_writeBytes {bs : List Byte} {m : Memory} {a : Nat} {c : Host.Cell} (h : c ∈ m.writeBytes a bs) :
    (a ≤ c.1 ∧ c.1 < a + bs.length) ∨ c ∈ m := by
  induction bs generalizing m a with
  | nil => exact .inr h
  | cons b bs ih =>
    rcases ih h with h | h
    · exact .inl (by simp only [List.length_cons]; omega)
    · rcases Memory.mem_set h with h | h
      · exact .inl (by simp only [List.length_cons]; omega)
      · exact .inr h

end Sys2Proof.Machine
end

