-- ==== Sys2Proof/Laws/State.lean ====
section
/-! SUPPORT. One lemma for each field of State under each named update. -/

namespace Sys2Proof.Machine

/-! ### `s.raise .transport` -/

@[simp] theorem State.raise_transport_status (s : State) : (s.raise .transport).status = .errTransport := rfl
@[simp] theorem State.raise_transport_op (s : State) : (s.raise .transport).op = s.op := rfl
@[simp] theorem State.raise_transport_argCode (s : State) : (s.raise .transport).argCode = s.argCode := rfl
@[simp] theorem State.raise_transport_argRole (s : State) : (s.raise .transport).argRole = s.argRole := rfl
@[simp] theorem State.raise_transport_argHdr (s : State) : (s.raise .transport).argHdr = s.argHdr := rfl
@[simp] theorem State.raise_transport_argSize (s : State) : (s.raise .transport).argSize = s.argSize := rfl
@[simp] theorem State.raise_transport_argVal (s : State) : (s.raise .transport).argVal = s.argVal := rfl
@[simp] theorem State.raise_transport_buf (s : State) : (s.raise .transport).buf = s.buf := rfl
@[simp] theorem State.raise_transport_len (s : State) : (s.raise .transport).len = s.len := rfl
@[simp] theorem State.raise_transport_cnt (s : State) : (s.raise .transport).cnt = s.cnt := rfl
@[simp] theorem State.raise_transport_pend (s : State) : (s.raise .transport).pend = false := rfl
@[simp] theorem State.raise_transport_errObs (s : State) : (s.raise .transport).errObs = s.errObs := rfl
@[simp] theorem State.raise_transport_errExp (s : State) : (s.raise .transport).errExp = s.errExp := rfl
@[simp] theorem State.raise_transport_resHdr (s : State) : (s.raise .transport).resHdr = s.resHdr := rfl
@[simp] theorem State.raise_transport_resLow (s : State) : (s.raise .transport).resLow = s.resLow := rfl
@[simp] theorem State.raise_transport_resLen (s : State) : (s.raise .transport).resLen = s.resLen := rfl
@[simp] theorem State.raise_transport_resI32 (s : State) : (s.raise .transport).resI32 = s.resI32 := rfl
@[simp] theorem State.raise_transport_resU64 (s : State) : (s.raise .transport).resU64 = s.resU64 := rfl
@[simp] theorem State.raise_transport_resBool (s : State) : (s.raise .transport).resBool = s.resBool := rfl
@[simp] theorem State.raise_transport_valid (s : State) : (s.raise .transport).valid = s.valid := rfl
@[simp] theorem State.raise_transport_txs (s : State) : (s.raise .transport).txs = s.txs := rfl
@[simp] theorem State.raise_transport_rxs (s : State) : (s.raise .transport).rxs = s.rxs := rfl
@[simp] theorem State.raise_transport_orphans (s : State) : (s.raise .transport).orphans = s.orphans := rfl
@[simp] theorem State.raise_transport_rxLost (s : State) : (s.raise .transport).rxLost = s.rxLost := rfl
@[simp] theorem State.raise_transport_hostIn (s : State) : (s.raise .transport).hostIn = s.hostIn := rfl
@[simp] theorem State.raise_transport_transportIn (s : State) : (s.raise .transport).transportIn = s.transportIn := rfl
@[simp] theorem State.raise_transport_turns (s : State) : (s.raise .transport).turns = s.turns := rfl
@[simp] theorem State.raise_transport_hostSaw (s : State) : (s.raise .transport).hostSaw = s.hostSaw := rfl

/-! ### `s.raise (.protocol o e)` -/

@[simp] theorem State.raise_protocol_status (s : State) (o e : BitVec 24) : (s.raise (.protocol o e)).status = .errProtocol := rfl
@[simp] theorem State.raise_protocol_op (s : State) (o e : BitVec 24) : (s.raise (.protocol o e)).op = s.op := rfl
@[simp] theorem State.raise_protocol_argCode (s : State) (o e : BitVec 24) : (s.raise (.protocol o e)).argCode = s.argCode := rfl
@[simp] theorem State.raise_protocol_argRole (s : State) (o e : BitVec 24) : (s.raise (.protocol o e)).argRole = s.argRole := rfl
@[simp] theorem State.raise_protocol_argHdr (s : State) (o e : BitVec 24) : (s.raise (.protocol o e)).argHdr = s.argHdr := rfl
@[simp] theorem State.raise_protocol_argSize (s : State) (o e : BitVec 24) : (s.raise (.protocol o e)).argSize = s.argSize := rfl
@[simp] theorem State.raise_protocol_argVal (s : State) (o e : BitVec 24) : (s.raise (.protocol o e)).argVal = s.argVal := rfl
@[simp] theorem State.raise_protocol_buf (s : State) (o e : BitVec 24) : (s.raise (.protocol o e)).buf = s.buf := rfl
@[simp] theorem State.raise_protocol_len (s : State) (o e : BitVec 24) : (s.raise (.protocol o e)).len = s.len := rfl
@[simp] theorem State.raise_protocol_cnt (s : State) (o e : BitVec 24) : (s.raise (.protocol o e)).cnt = s.cnt := rfl
@[simp] theorem State.raise_protocol_pend (s : State) (o e : BitVec 24) : (s.raise (.protocol o e)).pend = false := rfl
@[simp] theorem State.raise_protocol_errObs (s : State) (o e : BitVec 24) : (s.raise (.protocol o e)).errObs = o := rfl
@[simp] theorem State.raise_protocol_errExp (s : State) (o e : BitVec 24) : (s.raise (.protocol o e)).errExp = e := rfl
@[simp] theorem State.raise_protocol_resHdr (s : State) (o e : BitVec 24) : (s.raise (.protocol o e)).resHdr = s.resHdr := rfl
@[simp] theorem State.raise_protocol_resLow (s : State) (o e : BitVec 24) : (s.raise (.protocol o e)).resLow = s.resLow := rfl
@[simp] theorem State.raise_protocol_resLen (s : State) (o e : BitVec 24) : (s.raise (.protocol o e)).resLen = s.resLen := rfl
@[simp] theorem State.raise_protocol_resI32 (s : State) (o e : BitVec 24) : (s.raise (.protocol o e)).resI32 = s.resI32 := rfl
@[simp] theorem State.raise_protocol_resU64 (s : State) (o e : BitVec 24) : (s.raise (.protocol o e)).resU64 = s.resU64 := rfl
@[simp] theorem State.raise_protocol_resBool (s : State) (o e : BitVec 24) : (s.raise (.protocol o e)).resBool = s.resBool := rfl
@[simp] theorem State.raise_protocol_valid (s : State) (o e : BitVec 24) : (s.raise (.protocol o e)).valid = s.valid := rfl
@[simp] theorem State.raise_protocol_txs (s : State) (o e : BitVec 24) : (s.raise (.protocol o e)).txs = s.txs := rfl
@[simp] theorem State.raise_protocol_rxs (s : State) (o e : BitVec 24) : (s.raise (.protocol o e)).rxs = s.rxs := rfl
@[simp] theorem State.raise_protocol_orphans (s : State) (o e : BitVec 24) : (s.raise (.protocol o e)).orphans = s.orphans := rfl
@[simp] theorem State.raise_protocol_rxLost (s : State) (o e : BitVec 24) : (s.raise (.protocol o e)).rxLost = s.rxLost := rfl
@[simp] theorem State.raise_protocol_hostIn (s : State) (o e : BitVec 24) : (s.raise (.protocol o e)).hostIn = s.hostIn := rfl
@[simp] theorem State.raise_protocol_transportIn (s : State) (o e : BitVec 24) : (s.raise (.protocol o e)).transportIn = s.transportIn := rfl
@[simp] theorem State.raise_protocol_turns (s : State) (o e : BitVec 24) : (s.raise (.protocol o e)).turns = s.turns := rfl
@[simp] theorem State.raise_protocol_hostSaw (s : State) (o e : BitVec 24) : (s.raise (.protocol o e)).hostSaw = s.hostSaw := rfl

/-! ### `s.complete` -/

@[simp] theorem State.complete_status (s : State) : (s.complete).status = .doneOk := rfl
@[simp] theorem State.complete_op (s : State) : (s.complete).op = s.op := rfl
@[simp] theorem State.complete_argCode (s : State) : (s.complete).argCode = s.argCode := rfl
@[simp] theorem State.complete_argRole (s : State) : (s.complete).argRole = s.argRole := rfl
@[simp] theorem State.complete_argHdr (s : State) : (s.complete).argHdr = s.argHdr := rfl
@[simp] theorem State.complete_argSize (s : State) : (s.complete).argSize = s.argSize := rfl
@[simp] theorem State.complete_argVal (s : State) : (s.complete).argVal = s.argVal := rfl
@[simp] theorem State.complete_buf (s : State) : (s.complete).buf = s.buf := rfl
@[simp] theorem State.complete_len (s : State) : (s.complete).len = s.len := rfl
@[simp] theorem State.complete_cnt (s : State) : (s.complete).cnt = s.cnt := rfl
@[simp] theorem State.complete_pend (s : State) : (s.complete).pend = s.pend := rfl
@[simp] theorem State.complete_errObs (s : State) : (s.complete).errObs = s.errObs := rfl
@[simp] theorem State.complete_errExp (s : State) : (s.complete).errExp = s.errExp := rfl
@[simp] theorem State.complete_resHdr (s : State) : (s.complete).resHdr = s.resHdr := rfl
@[simp] theorem State.complete_resLow (s : State) : (s.complete).resLow = s.resLow := rfl
@[simp] theorem State.complete_resLen (s : State) : (s.complete).resLen = s.resLen := rfl
@[simp] theorem State.complete_resI32 (s : State) : (s.complete).resI32 = s.resI32 := rfl
@[simp] theorem State.complete_resU64 (s : State) : (s.complete).resU64 = s.resU64 := rfl
@[simp] theorem State.complete_resBool (s : State) : (s.complete).resBool = s.resBool := rfl
@[simp] theorem State.complete_valid (s : State) : (s.complete).valid = s.valid := rfl
@[simp] theorem State.complete_txs (s : State) : (s.complete).txs = s.txs := rfl
@[simp] theorem State.complete_rxs (s : State) : (s.complete).rxs = s.rxs := rfl
@[simp] theorem State.complete_orphans (s : State) : (s.complete).orphans = s.orphans := rfl
@[simp] theorem State.complete_rxLost (s : State) : (s.complete).rxLost = s.rxLost := rfl
@[simp] theorem State.complete_hostIn (s : State) : (s.complete).hostIn = s.hostIn := rfl
@[simp] theorem State.complete_transportIn (s : State) : (s.complete).transportIn = s.transportIn := rfl
@[simp] theorem State.complete_turns (s : State) : (s.complete).turns = s.turns := rfl
@[simp] theorem State.complete_hostSaw (s : State) : (s.complete).hostSaw = s.hostSaw := rfl

/-! ### `s.accept o n` -/

@[simp] theorem State.accept_status (s : State) (o : Op) (n : Nat) : (s.accept o n).status = .busy := rfl
@[simp] theorem State.accept_op (s : State) (o : Op) (n : Nat) : (s.accept o n).op = o.code := rfl
@[simp] theorem State.accept_argCode (s : State) (o : Op) (n : Nat) : (s.accept o n).argCode = State.reset.argCode := rfl
@[simp] theorem State.accept_argRole (s : State) (o : Op) (n : Nat) : (s.accept o n).argRole = State.reset.argRole := rfl
@[simp] theorem State.accept_argHdr (s : State) (o : Op) (n : Nat) : (s.accept o n).argHdr = State.reset.argHdr := rfl
@[simp] theorem State.accept_argSize (s : State) (o : Op) (n : Nat) : (s.accept o n).argSize = State.reset.argSize := rfl
@[simp] theorem State.accept_argVal (s : State) (o : Op) (n : Nat) : (s.accept o n).argVal = State.reset.argVal := rfl
@[simp] theorem State.accept_buf (s : State) (o : Op) (n : Nat) : (s.accept o n).buf = s.buf := rfl
@[simp] theorem State.accept_len (s : State) (o : Op) (n : Nat) : (s.accept o n).len = n := rfl
@[simp] theorem State.accept_cnt (s : State) (o : Op) (n : Nat) : (s.accept o n).cnt = 0 := rfl
@[simp] theorem State.accept_pend (s : State) (o : Op) (n : Nat) : (s.accept o n).pend = false := rfl
@[simp] theorem State.accept_errObs (s : State) (o : Op) (n : Nat) : (s.accept o n).errObs = s.errObs := rfl
@[simp] theorem State.accept_errExp (s : State) (o : Op) (n : Nat) : (s.accept o n).errExp = s.errExp := rfl
@[simp] theorem State.accept_resHdr (s : State) (o : Op) (n : Nat) : (s.accept o n).resHdr = s.resHdr := rfl
@[simp] theorem State.accept_resLow (s : State) (o : Op) (n : Nat) : (s.accept o n).resLow = s.resLow := rfl
@[simp] theorem State.accept_resLen (s : State) (o : Op) (n : Nat) : (s.accept o n).resLen = s.resLen := rfl
@[simp] theorem State.accept_resI32 (s : State) (o : Op) (n : Nat) : (s.accept o n).resI32 = s.resI32 := rfl
@[simp] theorem State.accept_resU64 (s : State) (o : Op) (n : Nat) : (s.accept o n).resU64 = s.resU64 := rfl
@[simp] theorem State.accept_resBool (s : State) (o : Op) (n : Nat) : (s.accept o n).resBool = s.resBool := rfl
@[simp] theorem State.accept_valid (s : State) (o : Op) (n : Nat) : (s.accept o n).valid = ValidBits.none := rfl
@[simp] theorem State.accept_txs (s : State) (o : Op) (n : Nat) : (s.accept o n).txs = s.txs := rfl
@[simp] theorem State.accept_rxs (s : State) (o : Op) (n : Nat) : (s.accept o n).rxs = s.rxs := rfl
@[simp] theorem State.accept_orphans (s : State) (o : Op) (n : Nat) : (s.accept o n).orphans = s.orphans := rfl
@[simp] theorem State.accept_rxLost (s : State) (o : Op) (n : Nat) : (s.accept o n).rxLost = s.rxLost := rfl
@[simp] theorem State.accept_hostIn (s : State) (o : Op) (n : Nat) : (s.accept o n).hostIn = s.hostIn := rfl
@[simp] theorem State.accept_transportIn (s : State) (o : Op) (n : Nat) : (s.accept o n).transportIn = s.transportIn := rfl
@[simp] theorem State.accept_turns (s : State) (o : Op) (n : Nat) : (s.accept o n).turns = s.turns := rfl
@[simp] theorem State.accept_hostSaw (s : State) (o : Op) (n : Nat) : (s.accept o n).hostSaw = s.hostSaw := rfl

/-! ### `s.acceptSend o f` -/

@[simp] theorem State.acceptSend_status (s : State) (o : Op) (f : List Byte) : (s.acceptSend o f).status = .busy := rfl
@[simp] theorem State.acceptSend_op (s : State) (o : Op) (f : List Byte) : (s.acceptSend o f).op = o.code := rfl
@[simp] theorem State.acceptSend_argCode (s : State) (o : Op) (f : List Byte) : (s.acceptSend o f).argCode = State.reset.argCode := rfl
@[simp] theorem State.acceptSend_argRole (s : State) (o : Op) (f : List Byte) : (s.acceptSend o f).argRole = State.reset.argRole := rfl
@[simp] theorem State.acceptSend_argHdr (s : State) (o : Op) (f : List Byte) : (s.acceptSend o f).argHdr = State.reset.argHdr := rfl
@[simp] theorem State.acceptSend_argSize (s : State) (o : Op) (f : List Byte) : (s.acceptSend o f).argSize = State.reset.argSize := rfl
@[simp] theorem State.acceptSend_argVal (s : State) (o : Op) (f : List Byte) : (s.acceptSend o f).argVal = State.reset.argVal := rfl
@[simp] theorem State.acceptSend_buf (s : State) (o : Op) (f : List Byte) : (s.acceptSend o f).buf = Memory.ofBytes f := rfl
@[simp] theorem State.acceptSend_len (s : State) (o : Op) (f : List Byte) : (s.acceptSend o f).len = f.length := rfl
@[simp] theorem State.acceptSend_cnt (s : State) (o : Op) (f : List Byte) : (s.acceptSend o f).cnt = 0 := rfl
@[simp] theorem State.acceptSend_pend (s : State) (o : Op) (f : List Byte) : (s.acceptSend o f).pend = false := rfl
@[simp] theorem State.acceptSend_errObs (s : State) (o : Op) (f : List Byte) : (s.acceptSend o f).errObs = s.errObs := rfl
@[simp] theorem State.acceptSend_errExp (s : State) (o : Op) (f : List Byte) : (s.acceptSend o f).errExp = s.errExp := rfl
@[simp] theorem State.acceptSend_resHdr (s : State) (o : Op) (f : List Byte) : (s.acceptSend o f).resHdr = s.resHdr := rfl
@[simp] theorem State.acceptSend_resLow (s : State) (o : Op) (f : List Byte) : (s.acceptSend o f).resLow = s.resLow := rfl
@[simp] theorem State.acceptSend_resLen (s : State) (o : Op) (f : List Byte) : (s.acceptSend o f).resLen = s.resLen := rfl
@[simp] theorem State.acceptSend_resI32 (s : State) (o : Op) (f : List Byte) : (s.acceptSend o f).resI32 = s.resI32 := rfl
@[simp] theorem State.acceptSend_resU64 (s : State) (o : Op) (f : List Byte) : (s.acceptSend o f).resU64 = s.resU64 := rfl
@[simp] theorem State.acceptSend_resBool (s : State) (o : Op) (f : List Byte) : (s.acceptSend o f).resBool = s.resBool := rfl
@[simp] theorem State.acceptSend_valid (s : State) (o : Op) (f : List Byte) : (s.acceptSend o f).valid = ValidBits.none := rfl
@[simp] theorem State.acceptSend_txs (s : State) (o : Op) (f : List Byte) : (s.acceptSend o f).txs = s.txs := rfl
@[simp] theorem State.acceptSend_rxs (s : State) (o : Op) (f : List Byte) : (s.acceptSend o f).rxs = s.rxs := rfl
@[simp] theorem State.acceptSend_orphans (s : State) (o : Op) (f : List Byte) : (s.acceptSend o f).orphans = s.orphans := rfl
@[simp] theorem State.acceptSend_rxLost (s : State) (o : Op) (f : List Byte) : (s.acceptSend o f).rxLost = s.rxLost := rfl
@[simp] theorem State.acceptSend_hostIn (s : State) (o : Op) (f : List Byte) : (s.acceptSend o f).hostIn = s.hostIn := rfl
@[simp] theorem State.acceptSend_transportIn (s : State) (o : Op) (f : List Byte) : (s.acceptSend o f).transportIn = s.transportIn := rfl
@[simp] theorem State.acceptSend_turns (s : State) (o : Op) (f : List Byte) : (s.acceptSend o f).turns = s.turns := rfl
@[simp] theorem State.acceptSend_hostSaw (s : State) (o : Op) (f : List Byte) : (s.acceptSend o f).hostSaw = s.hostSaw := rfl

/-! ### `s.acceptReceive o n` -/

@[simp] theorem State.acceptReceive_status (s : State) (o : Op) (n : Nat) : (s.acceptReceive o n).status = .busy := rfl
@[simp] theorem State.acceptReceive_op (s : State) (o : Op) (n : Nat) : (s.acceptReceive o n).op = o.code := rfl
@[simp] theorem State.acceptReceive_argCode (s : State) (o : Op) (n : Nat) : (s.acceptReceive o n).argCode = State.reset.argCode := rfl
@[simp] theorem State.acceptReceive_argRole (s : State) (o : Op) (n : Nat) : (s.acceptReceive o n).argRole = State.reset.argRole := rfl
@[simp] theorem State.acceptReceive_argHdr (s : State) (o : Op) (n : Nat) : (s.acceptReceive o n).argHdr = State.reset.argHdr := rfl
@[simp] theorem State.acceptReceive_argSize (s : State) (o : Op) (n : Nat) : (s.acceptReceive o n).argSize = State.reset.argSize := rfl
@[simp] theorem State.acceptReceive_argVal (s : State) (o : Op) (n : Nat) : (s.acceptReceive o n).argVal = State.reset.argVal := rfl
@[simp] theorem State.acceptReceive_buf (s : State) (o : Op) (n : Nat) : (s.acceptReceive o n).buf = [] := rfl
@[simp] theorem State.acceptReceive_len (s : State) (o : Op) (n : Nat) : (s.acceptReceive o n).len = n := rfl
@[simp] theorem State.acceptReceive_cnt (s : State) (o : Op) (n : Nat) : (s.acceptReceive o n).cnt = 0 := rfl
@[simp] theorem State.acceptReceive_pend (s : State) (o : Op) (n : Nat) : (s.acceptReceive o n).pend = false := rfl
@[simp] theorem State.acceptReceive_errObs (s : State) (o : Op) (n : Nat) : (s.acceptReceive o n).errObs = s.errObs := rfl
@[simp] theorem State.acceptReceive_errExp (s : State) (o : Op) (n : Nat) : (s.acceptReceive o n).errExp = s.errExp := rfl
@[simp] theorem State.acceptReceive_resHdr (s : State) (o : Op) (n : Nat) : (s.acceptReceive o n).resHdr = s.resHdr := rfl
@[simp] theorem State.acceptReceive_resLow (s : State) (o : Op) (n : Nat) : (s.acceptReceive o n).resLow = s.resLow := rfl
@[simp] theorem State.acceptReceive_resLen (s : State) (o : Op) (n : Nat) : (s.acceptReceive o n).resLen = s.resLen := rfl
@[simp] theorem State.acceptReceive_resI32 (s : State) (o : Op) (n : Nat) : (s.acceptReceive o n).resI32 = s.resI32 := rfl
@[simp] theorem State.acceptReceive_resU64 (s : State) (o : Op) (n : Nat) : (s.acceptReceive o n).resU64 = s.resU64 := rfl
@[simp] theorem State.acceptReceive_resBool (s : State) (o : Op) (n : Nat) : (s.acceptReceive o n).resBool = s.resBool := rfl
@[simp] theorem State.acceptReceive_valid (s : State) (o : Op) (n : Nat) : (s.acceptReceive o n).valid = ValidBits.none := rfl
@[simp] theorem State.acceptReceive_txs (s : State) (o : Op) (n : Nat) : (s.acceptReceive o n).txs = s.txs := rfl
@[simp] theorem State.acceptReceive_rxs (s : State) (o : Op) (n : Nat) : (s.acceptReceive o n).rxs = s.rxs := rfl
@[simp] theorem State.acceptReceive_orphans (s : State) (o : Op) (n : Nat) : (s.acceptReceive o n).orphans = s.orphans := rfl
@[simp] theorem State.acceptReceive_rxLost (s : State) (o : Op) (n : Nat) : (s.acceptReceive o n).rxLost = s.rxLost := rfl
@[simp] theorem State.acceptReceive_hostIn (s : State) (o : Op) (n : Nat) : (s.acceptReceive o n).hostIn = s.hostIn := rfl
@[simp] theorem State.acceptReceive_transportIn (s : State) (o : Op) (n : Nat) : (s.acceptReceive o n).transportIn = s.transportIn := rfl
@[simp] theorem State.acceptReceive_turns (s : State) (o : Op) (n : Nat) : (s.acceptReceive o n).turns = s.turns := rfl
@[simp] theorem State.acceptReceive_hostSaw (s : State) (o : Op) (n : Nat) : (s.acceptReceive o n).hostSaw = s.hostSaw := rfl

/-! ### `s.issue` -/

@[simp] theorem State.issue_status (s : State) : (s.issue).status = s.status := rfl
@[simp] theorem State.issue_op (s : State) : (s.issue).op = s.op := rfl
@[simp] theorem State.issue_argCode (s : State) : (s.issue).argCode = s.argCode := rfl
@[simp] theorem State.issue_argRole (s : State) : (s.issue).argRole = s.argRole := rfl
@[simp] theorem State.issue_argHdr (s : State) : (s.issue).argHdr = s.argHdr := rfl
@[simp] theorem State.issue_argSize (s : State) : (s.issue).argSize = s.argSize := rfl
@[simp] theorem State.issue_argVal (s : State) : (s.issue).argVal = s.argVal := rfl
@[simp] theorem State.issue_buf (s : State) : (s.issue).buf = s.buf := rfl
@[simp] theorem State.issue_len (s : State) : (s.issue).len = s.len := rfl
@[simp] theorem State.issue_cnt (s : State) : (s.issue).cnt = s.cnt := rfl
@[simp] theorem State.issue_pend (s : State) : (s.issue).pend = true := rfl
@[simp] theorem State.issue_errObs (s : State) : (s.issue).errObs = s.errObs := rfl
@[simp] theorem State.issue_errExp (s : State) : (s.issue).errExp = s.errExp := rfl
@[simp] theorem State.issue_resHdr (s : State) : (s.issue).resHdr = s.resHdr := rfl
@[simp] theorem State.issue_resLow (s : State) : (s.issue).resLow = s.resLow := rfl
@[simp] theorem State.issue_resLen (s : State) : (s.issue).resLen = s.resLen := rfl
@[simp] theorem State.issue_resI32 (s : State) : (s.issue).resI32 = s.resI32 := rfl
@[simp] theorem State.issue_resU64 (s : State) : (s.issue).resU64 = s.resU64 := rfl
@[simp] theorem State.issue_resBool (s : State) : (s.issue).resBool = s.resBool := rfl
@[simp] theorem State.issue_valid (s : State) : (s.issue).valid = s.valid := rfl
@[simp] theorem State.issue_txs (s : State) : (s.issue).txs = s.txs := rfl
@[simp] theorem State.issue_rxs (s : State) : (s.issue).rxs = s.rxs := rfl
@[simp] theorem State.issue_orphans (s : State) : (s.issue).orphans = s.orphans := rfl
@[simp] theorem State.issue_rxLost (s : State) : (s.issue).rxLost = s.rxLost := rfl
@[simp] theorem State.issue_hostIn (s : State) : (s.issue).hostIn = s.hostIn := rfl
@[simp] theorem State.issue_transportIn (s : State) : (s.issue).transportIn = s.transportIn := rfl
@[simp] theorem State.issue_turns (s : State) : (s.issue).turns = s.turns := rfl
@[simp] theorem State.issue_hostSaw (s : State) : (s.issue).hostSaw = s.hostSaw := rfl

/-! ### `s.advance r` -/

@[simp] theorem State.advance_status (s : State) (r : Nat) : (s.advance r).status = s.status := rfl
@[simp] theorem State.advance_op (s : State) (r : Nat) : (s.advance r).op = s.op := rfl
@[simp] theorem State.advance_argCode (s : State) (r : Nat) : (s.advance r).argCode = s.argCode := rfl
@[simp] theorem State.advance_argRole (s : State) (r : Nat) : (s.advance r).argRole = s.argRole := rfl
@[simp] theorem State.advance_argHdr (s : State) (r : Nat) : (s.advance r).argHdr = s.argHdr := rfl
@[simp] theorem State.advance_argSize (s : State) (r : Nat) : (s.advance r).argSize = s.argSize := rfl
@[simp] theorem State.advance_argVal (s : State) (r : Nat) : (s.advance r).argVal = s.argVal := rfl
@[simp] theorem State.advance_buf (s : State) (r : Nat) : (s.advance r).buf = s.buf := rfl
@[simp] theorem State.advance_len (s : State) (r : Nat) : (s.advance r).len = s.len := rfl
@[simp] theorem State.advance_cnt (s : State) (r : Nat) : (s.advance r).cnt = s.cnt + r := rfl
@[simp] theorem State.advance_pend (s : State) (r : Nat) : (s.advance r).pend = false := rfl
@[simp] theorem State.advance_errObs (s : State) (r : Nat) : (s.advance r).errObs = s.errObs := rfl
@[simp] theorem State.advance_errExp (s : State) (r : Nat) : (s.advance r).errExp = s.errExp := rfl
@[simp] theorem State.advance_resHdr (s : State) (r : Nat) : (s.advance r).resHdr = s.resHdr := rfl
@[simp] theorem State.advance_resLow (s : State) (r : Nat) : (s.advance r).resLow = s.resLow := rfl
@[simp] theorem State.advance_resLen (s : State) (r : Nat) : (s.advance r).resLen = s.resLen := rfl
@[simp] theorem State.advance_resI32 (s : State) (r : Nat) : (s.advance r).resI32 = s.resI32 := rfl
@[simp] theorem State.advance_resU64 (s : State) (r : Nat) : (s.advance r).resU64 = s.resU64 := rfl
@[simp] theorem State.advance_resBool (s : State) (r : Nat) : (s.advance r).resBool = s.resBool := rfl
@[simp] theorem State.advance_valid (s : State) (r : Nat) : (s.advance r).valid = s.valid := rfl
@[simp] theorem State.advance_txs (s : State) (r : Nat) : (s.advance r).txs = s.txs := rfl
@[simp] theorem State.advance_rxs (s : State) (r : Nat) : (s.advance r).rxs = s.rxs := rfl
@[simp] theorem State.advance_orphans (s : State) (r : Nat) : (s.advance r).orphans = s.orphans := rfl
@[simp] theorem State.advance_rxLost (s : State) (r : Nat) : (s.advance r).rxLost = s.rxLost := rfl
@[simp] theorem State.advance_hostIn (s : State) (r : Nat) : (s.advance r).hostIn = s.hostIn := rfl
@[simp] theorem State.advance_transportIn (s : State) (r : Nat) : (s.advance r).transportIn = s.transportIn := rfl
@[simp] theorem State.advance_turns (s : State) (r : Nat) : (s.advance r).turns = s.turns := rfl
@[simp] theorem State.advance_hostSaw (s : State) (r : Nat) : (s.advance r).hostSaw = s.hostSaw := rfl

/-! ### `s.deliverHeader q` -/

@[simp] theorem State.deliverHeader_status (s : State) (q : Quad) : (s.deliverHeader q).status = .doneOk := rfl
@[simp] theorem State.deliverHeader_op (s : State) (q : Quad) : (s.deliverHeader q).op = s.op := rfl
@[simp] theorem State.deliverHeader_argCode (s : State) (q : Quad) : (s.deliverHeader q).argCode = s.argCode := rfl
@[simp] theorem State.deliverHeader_argRole (s : State) (q : Quad) : (s.deliverHeader q).argRole = s.argRole := rfl
@[simp] theorem State.deliverHeader_argHdr (s : State) (q : Quad) : (s.deliverHeader q).argHdr = s.argHdr := rfl
@[simp] theorem State.deliverHeader_argSize (s : State) (q : Quad) : (s.deliverHeader q).argSize = s.argSize := rfl
@[simp] theorem State.deliverHeader_argVal (s : State) (q : Quad) : (s.deliverHeader q).argVal = s.argVal := rfl
@[simp] theorem State.deliverHeader_buf (s : State) (q : Quad) : (s.deliverHeader q).buf = s.buf := rfl
@[simp] theorem State.deliverHeader_len (s : State) (q : Quad) : (s.deliverHeader q).len = s.len := rfl
@[simp] theorem State.deliverHeader_cnt (s : State) (q : Quad) : (s.deliverHeader q).cnt = s.cnt := rfl
@[simp] theorem State.deliverHeader_pend (s : State) (q : Quad) : (s.deliverHeader q).pend = s.pend := rfl
@[simp] theorem State.deliverHeader_errObs (s : State) (q : Quad) : (s.deliverHeader q).errObs = s.errObs := rfl
@[simp] theorem State.deliverHeader_errExp (s : State) (q : Quad) : (s.deliverHeader q).errExp = s.errExp := rfl
@[simp] theorem State.deliverHeader_resHdr (s : State) (q : Quad) : (s.deliverHeader q).resHdr = q := rfl
@[simp] theorem State.deliverHeader_resLow (s : State) (q : Quad) : (s.deliverHeader q).resLow = s.resLow := rfl
@[simp] theorem State.deliverHeader_resLen (s : State) (q : Quad) : (s.deliverHeader q).resLen = s.resLen := rfl
@[simp] theorem State.deliverHeader_resI32 (s : State) (q : Quad) : (s.deliverHeader q).resI32 = s.resI32 := rfl
@[simp] theorem State.deliverHeader_resU64 (s : State) (q : Quad) : (s.deliverHeader q).resU64 = s.resU64 := rfl
@[simp] theorem State.deliverHeader_resBool (s : State) (q : Quad) : (s.deliverHeader q).resBool = s.resBool := rfl
@[simp] theorem State.deliverHeader_valid (s : State) (q : Quad) : (s.deliverHeader q).valid = { s.valid with hdr := true } := rfl
@[simp] theorem State.deliverHeader_txs (s : State) (q : Quad) : (s.deliverHeader q).txs = s.txs := rfl
@[simp] theorem State.deliverHeader_rxs (s : State) (q : Quad) : (s.deliverHeader q).rxs = s.rxs := rfl
@[simp] theorem State.deliverHeader_orphans (s : State) (q : Quad) : (s.deliverHeader q).orphans = s.orphans := rfl
@[simp] theorem State.deliverHeader_rxLost (s : State) (q : Quad) : (s.deliverHeader q).rxLost = s.rxLost := rfl
@[simp] theorem State.deliverHeader_hostIn (s : State) (q : Quad) : (s.deliverHeader q).hostIn = s.hostIn := rfl
@[simp] theorem State.deliverHeader_transportIn (s : State) (q : Quad) : (s.deliverHeader q).transportIn = s.transportIn := rfl
@[simp] theorem State.deliverHeader_turns (s : State) (q : Quad) : (s.deliverHeader q).turns = s.turns := rfl
@[simp] theorem State.deliverHeader_hostSaw (s : State) (q : Quad) : (s.deliverHeader q).hostSaw = s.hostSaw := rfl

/-! ### `s.deliverLow b` -/

@[simp] theorem State.deliverLow_status (s : State) (b : Byte) : (s.deliverLow b).status = .doneOk := rfl
@[simp] theorem State.deliverLow_op (s : State) (b : Byte) : (s.deliverLow b).op = s.op := rfl
@[simp] theorem State.deliverLow_argCode (s : State) (b : Byte) : (s.deliverLow b).argCode = s.argCode := rfl
@[simp] theorem State.deliverLow_argRole (s : State) (b : Byte) : (s.deliverLow b).argRole = s.argRole := rfl
@[simp] theorem State.deliverLow_argHdr (s : State) (b : Byte) : (s.deliverLow b).argHdr = s.argHdr := rfl
@[simp] theorem State.deliverLow_argSize (s : State) (b : Byte) : (s.deliverLow b).argSize = s.argSize := rfl
@[simp] theorem State.deliverLow_argVal (s : State) (b : Byte) : (s.deliverLow b).argVal = s.argVal := rfl
@[simp] theorem State.deliverLow_buf (s : State) (b : Byte) : (s.deliverLow b).buf = s.buf := rfl
@[simp] theorem State.deliverLow_len (s : State) (b : Byte) : (s.deliverLow b).len = s.len := rfl
@[simp] theorem State.deliverLow_cnt (s : State) (b : Byte) : (s.deliverLow b).cnt = s.cnt := rfl
@[simp] theorem State.deliverLow_pend (s : State) (b : Byte) : (s.deliverLow b).pend = s.pend := rfl
@[simp] theorem State.deliverLow_errObs (s : State) (b : Byte) : (s.deliverLow b).errObs = s.errObs := rfl
@[simp] theorem State.deliverLow_errExp (s : State) (b : Byte) : (s.deliverLow b).errExp = s.errExp := rfl
@[simp] theorem State.deliverLow_resHdr (s : State) (b : Byte) : (s.deliverLow b).resHdr = s.resHdr := rfl
@[simp] theorem State.deliverLow_resLow (s : State) (b : Byte) : (s.deliverLow b).resLow = b := rfl
@[simp] theorem State.deliverLow_resLen (s : State) (b : Byte) : (s.deliverLow b).resLen = s.resLen := rfl
@[simp] theorem State.deliverLow_resI32 (s : State) (b : Byte) : (s.deliverLow b).resI32 = s.resI32 := rfl
@[simp] theorem State.deliverLow_resU64 (s : State) (b : Byte) : (s.deliverLow b).resU64 = s.resU64 := rfl
@[simp] theorem State.deliverLow_resBool (s : State) (b : Byte) : (s.deliverLow b).resBool = s.resBool := rfl
@[simp] theorem State.deliverLow_valid (s : State) (b : Byte) : (s.deliverLow b).valid = { s.valid with low := true } := rfl
@[simp] theorem State.deliverLow_txs (s : State) (b : Byte) : (s.deliverLow b).txs = s.txs := rfl
@[simp] theorem State.deliverLow_rxs (s : State) (b : Byte) : (s.deliverLow b).rxs = s.rxs := rfl
@[simp] theorem State.deliverLow_orphans (s : State) (b : Byte) : (s.deliverLow b).orphans = s.orphans := rfl
@[simp] theorem State.deliverLow_rxLost (s : State) (b : Byte) : (s.deliverLow b).rxLost = s.rxLost := rfl
@[simp] theorem State.deliverLow_hostIn (s : State) (b : Byte) : (s.deliverLow b).hostIn = s.hostIn := rfl
@[simp] theorem State.deliverLow_transportIn (s : State) (b : Byte) : (s.deliverLow b).transportIn = s.transportIn := rfl
@[simp] theorem State.deliverLow_turns (s : State) (b : Byte) : (s.deliverLow b).turns = s.turns := rfl
@[simp] theorem State.deliverLow_hostSaw (s : State) (b : Byte) : (s.deliverLow b).hostSaw = s.hostSaw := rfl

/-! ### `s.deliverData n` -/

@[simp] theorem State.deliverData_status (s : State) (n : Nat) : (s.deliverData n).status = s.status := rfl
@[simp] theorem State.deliverData_op (s : State) (n : Nat) : (s.deliverData n).op = s.op := rfl
@[simp] theorem State.deliverData_argCode (s : State) (n : Nat) : (s.deliverData n).argCode = s.argCode := rfl
@[simp] theorem State.deliverData_argRole (s : State) (n : Nat) : (s.deliverData n).argRole = s.argRole := rfl
@[simp] theorem State.deliverData_argHdr (s : State) (n : Nat) : (s.deliverData n).argHdr = s.argHdr := rfl
@[simp] theorem State.deliverData_argSize (s : State) (n : Nat) : (s.deliverData n).argSize = s.argSize := rfl
@[simp] theorem State.deliverData_argVal (s : State) (n : Nat) : (s.deliverData n).argVal = s.argVal := rfl
@[simp] theorem State.deliverData_buf (s : State) (n : Nat) : (s.deliverData n).buf = s.buf := rfl
@[simp] theorem State.deliverData_len (s : State) (n : Nat) : (s.deliverData n).len = s.len := rfl
@[simp] theorem State.deliverData_cnt (s : State) (n : Nat) : (s.deliverData n).cnt = s.cnt := rfl
@[simp] theorem State.deliverData_pend (s : State) (n : Nat) : (s.deliverData n).pend = s.pend := rfl
@[simp] theorem State.deliverData_errObs (s : State) (n : Nat) : (s.deliverData n).errObs = s.errObs := rfl
@[simp] theorem State.deliverData_errExp (s : State) (n : Nat) : (s.deliverData n).errExp = s.errExp := rfl
@[simp] theorem State.deliverData_resHdr (s : State) (n : Nat) : (s.deliverData n).resHdr = s.resHdr := rfl
@[simp] theorem State.deliverData_resLow (s : State) (n : Nat) : (s.deliverData n).resLow = s.resLow := rfl
@[simp] theorem State.deliverData_resLen (s : State) (n : Nat) : (s.deliverData n).resLen = n := rfl
@[simp] theorem State.deliverData_resI32 (s : State) (n : Nat) : (s.deliverData n).resI32 = s.resI32 := rfl
@[simp] theorem State.deliverData_resU64 (s : State) (n : Nat) : (s.deliverData n).resU64 = s.resU64 := rfl
@[simp] theorem State.deliverData_resBool (s : State) (n : Nat) : (s.deliverData n).resBool = s.resBool := rfl
@[simp] theorem State.deliverData_valid (s : State) (n : Nat) : (s.deliverData n).valid = { s.valid with data := true } := rfl
@[simp] theorem State.deliverData_txs (s : State) (n : Nat) : (s.deliverData n).txs = s.txs := rfl
@[simp] theorem State.deliverData_rxs (s : State) (n : Nat) : (s.deliverData n).rxs = s.rxs := rfl
@[simp] theorem State.deliverData_orphans (s : State) (n : Nat) : (s.deliverData n).orphans = s.orphans := rfl
@[simp] theorem State.deliverData_rxLost (s : State) (n : Nat) : (s.deliverData n).rxLost = s.rxLost := rfl
@[simp] theorem State.deliverData_hostIn (s : State) (n : Nat) : (s.deliverData n).hostIn = s.hostIn := rfl
@[simp] theorem State.deliverData_transportIn (s : State) (n : Nat) : (s.deliverData n).transportIn = s.transportIn := rfl
@[simp] theorem State.deliverData_turns (s : State) (n : Nat) : (s.deliverData n).turns = s.turns := rfl
@[simp] theorem State.deliverData_hostSaw (s : State) (n : Nat) : (s.deliverData n).hostSaw = s.hostSaw := rfl

/-! ### `s.deliverI32 q` -/

@[simp] theorem State.deliverI32_status (s : State) (q : Quad) : (s.deliverI32 q).status = s.status := rfl
@[simp] theorem State.deliverI32_op (s : State) (q : Quad) : (s.deliverI32 q).op = s.op := rfl
@[simp] theorem State.deliverI32_argCode (s : State) (q : Quad) : (s.deliverI32 q).argCode = s.argCode := rfl
@[simp] theorem State.deliverI32_argRole (s : State) (q : Quad) : (s.deliverI32 q).argRole = s.argRole := rfl
@[simp] theorem State.deliverI32_argHdr (s : State) (q : Quad) : (s.deliverI32 q).argHdr = s.argHdr := rfl
@[simp] theorem State.deliverI32_argSize (s : State) (q : Quad) : (s.deliverI32 q).argSize = s.argSize := rfl
@[simp] theorem State.deliverI32_argVal (s : State) (q : Quad) : (s.deliverI32 q).argVal = s.argVal := rfl
@[simp] theorem State.deliverI32_buf (s : State) (q : Quad) : (s.deliverI32 q).buf = s.buf := rfl
@[simp] theorem State.deliverI32_len (s : State) (q : Quad) : (s.deliverI32 q).len = s.len := rfl
@[simp] theorem State.deliverI32_cnt (s : State) (q : Quad) : (s.deliverI32 q).cnt = s.cnt := rfl
@[simp] theorem State.deliverI32_pend (s : State) (q : Quad) : (s.deliverI32 q).pend = s.pend := rfl
@[simp] theorem State.deliverI32_errObs (s : State) (q : Quad) : (s.deliverI32 q).errObs = s.errObs := rfl
@[simp] theorem State.deliverI32_errExp (s : State) (q : Quad) : (s.deliverI32 q).errExp = s.errExp := rfl
@[simp] theorem State.deliverI32_resHdr (s : State) (q : Quad) : (s.deliverI32 q).resHdr = s.resHdr := rfl
@[simp] theorem State.deliverI32_resLow (s : State) (q : Quad) : (s.deliverI32 q).resLow = s.resLow := rfl
@[simp] theorem State.deliverI32_resLen (s : State) (q : Quad) : (s.deliverI32 q).resLen = s.resLen := rfl
@[simp] theorem State.deliverI32_resI32 (s : State) (q : Quad) : (s.deliverI32 q).resI32 = q.le32 := rfl
@[simp] theorem State.deliverI32_resU64 (s : State) (q : Quad) : (s.deliverI32 q).resU64 = s.resU64 := rfl
@[simp] theorem State.deliverI32_resBool (s : State) (q : Quad) : (s.deliverI32 q).resBool = s.resBool := rfl
@[simp] theorem State.deliverI32_valid (s : State) (q : Quad) : (s.deliverI32 q).valid = { s.valid with i32 := true } := rfl
@[simp] theorem State.deliverI32_txs (s : State) (q : Quad) : (s.deliverI32 q).txs = s.txs := rfl
@[simp] theorem State.deliverI32_rxs (s : State) (q : Quad) : (s.deliverI32 q).rxs = s.rxs := rfl
@[simp] theorem State.deliverI32_orphans (s : State) (q : Quad) : (s.deliverI32 q).orphans = s.orphans := rfl
@[simp] theorem State.deliverI32_rxLost (s : State) (q : Quad) : (s.deliverI32 q).rxLost = s.rxLost := rfl
@[simp] theorem State.deliverI32_hostIn (s : State) (q : Quad) : (s.deliverI32 q).hostIn = s.hostIn := rfl
@[simp] theorem State.deliverI32_transportIn (s : State) (q : Quad) : (s.deliverI32 q).transportIn = s.transportIn := rfl
@[simp] theorem State.deliverI32_turns (s : State) (q : Quad) : (s.deliverI32 q).turns = s.turns := rfl
@[simp] theorem State.deliverI32_hostSaw (s : State) (q : Quad) : (s.deliverI32 q).hostSaw = s.hostSaw := rfl

/-! ### `s.deliverU64 p` -/

@[simp] theorem State.deliverU64_status (s : State) (p : List Byte) : (s.deliverU64 p).status = s.status := rfl
@[simp] theorem State.deliverU64_op (s : State) (p : List Byte) : (s.deliverU64 p).op = s.op := rfl
@[simp] theorem State.deliverU64_argCode (s : State) (p : List Byte) : (s.deliverU64 p).argCode = s.argCode := rfl
@[simp] theorem State.deliverU64_argRole (s : State) (p : List Byte) : (s.deliverU64 p).argRole = s.argRole := rfl
@[simp] theorem State.deliverU64_argHdr (s : State) (p : List Byte) : (s.deliverU64 p).argHdr = s.argHdr := rfl
@[simp] theorem State.deliverU64_argSize (s : State) (p : List Byte) : (s.deliverU64 p).argSize = s.argSize := rfl
@[simp] theorem State.deliverU64_argVal (s : State) (p : List Byte) : (s.deliverU64 p).argVal = s.argVal := rfl
@[simp] theorem State.deliverU64_buf (s : State) (p : List Byte) : (s.deliverU64 p).buf = s.buf := rfl
@[simp] theorem State.deliverU64_len (s : State) (p : List Byte) : (s.deliverU64 p).len = s.len := rfl
@[simp] theorem State.deliverU64_cnt (s : State) (p : List Byte) : (s.deliverU64 p).cnt = s.cnt := rfl
@[simp] theorem State.deliverU64_pend (s : State) (p : List Byte) : (s.deliverU64 p).pend = s.pend := rfl
@[simp] theorem State.deliverU64_errObs (s : State) (p : List Byte) : (s.deliverU64 p).errObs = s.errObs := rfl
@[simp] theorem State.deliverU64_errExp (s : State) (p : List Byte) : (s.deliverU64 p).errExp = s.errExp := rfl
@[simp] theorem State.deliverU64_resHdr (s : State) (p : List Byte) : (s.deliverU64 p).resHdr = s.resHdr := rfl
@[simp] theorem State.deliverU64_resLow (s : State) (p : List Byte) : (s.deliverU64 p).resLow = s.resLow := rfl
@[simp] theorem State.deliverU64_resLen (s : State) (p : List Byte) : (s.deliverU64 p).resLen = s.resLen := rfl
@[simp] theorem State.deliverU64_resI32 (s : State) (p : List Byte) : (s.deliverU64 p).resI32 = s.resI32 := rfl
@[simp] theorem State.deliverU64_resU64 (s : State) (p : List Byte) : (s.deliverU64 p).resU64 = le64 p := rfl
@[simp] theorem State.deliverU64_resBool (s : State) (p : List Byte) : (s.deliverU64 p).resBool = s.resBool := rfl
@[simp] theorem State.deliverU64_valid (s : State) (p : List Byte) : (s.deliverU64 p).valid = { s.valid with u64 := true } := rfl
@[simp] theorem State.deliverU64_txs (s : State) (p : List Byte) : (s.deliverU64 p).txs = s.txs := rfl
@[simp] theorem State.deliverU64_rxs (s : State) (p : List Byte) : (s.deliverU64 p).rxs = s.rxs := rfl
@[simp] theorem State.deliverU64_orphans (s : State) (p : List Byte) : (s.deliverU64 p).orphans = s.orphans := rfl
@[simp] theorem State.deliverU64_rxLost (s : State) (p : List Byte) : (s.deliverU64 p).rxLost = s.rxLost := rfl
@[simp] theorem State.deliverU64_hostIn (s : State) (p : List Byte) : (s.deliverU64 p).hostIn = s.hostIn := rfl
@[simp] theorem State.deliverU64_transportIn (s : State) (p : List Byte) : (s.deliverU64 p).transportIn = s.transportIn := rfl
@[simp] theorem State.deliverU64_turns (s : State) (p : List Byte) : (s.deliverU64 p).turns = s.turns := rfl
@[simp] theorem State.deliverU64_hostSaw (s : State) (p : List Byte) : (s.deliverU64 p).hostSaw = s.hostSaw := rfl

/-! ### `s.deliverBool p` -/

@[simp] theorem State.deliverBool_status (s : State) (p : List Byte) : (s.deliverBool p).status = s.status := rfl
@[simp] theorem State.deliverBool_op (s : State) (p : List Byte) : (s.deliverBool p).op = s.op := rfl
@[simp] theorem State.deliverBool_argCode (s : State) (p : List Byte) : (s.deliverBool p).argCode = s.argCode := rfl
@[simp] theorem State.deliverBool_argRole (s : State) (p : List Byte) : (s.deliverBool p).argRole = s.argRole := rfl
@[simp] theorem State.deliverBool_argHdr (s : State) (p : List Byte) : (s.deliverBool p).argHdr = s.argHdr := rfl
@[simp] theorem State.deliverBool_argSize (s : State) (p : List Byte) : (s.deliverBool p).argSize = s.argSize := rfl
@[simp] theorem State.deliverBool_argVal (s : State) (p : List Byte) : (s.deliverBool p).argVal = s.argVal := rfl
@[simp] theorem State.deliverBool_buf (s : State) (p : List Byte) : (s.deliverBool p).buf = s.buf := rfl
@[simp] theorem State.deliverBool_len (s : State) (p : List Byte) : (s.deliverBool p).len = s.len := rfl
@[simp] theorem State.deliverBool_cnt (s : State) (p : List Byte) : (s.deliverBool p).cnt = s.cnt := rfl
@[simp] theorem State.deliverBool_pend (s : State) (p : List Byte) : (s.deliverBool p).pend = s.pend := rfl
@[simp] theorem State.deliverBool_errObs (s : State) (p : List Byte) : (s.deliverBool p).errObs = s.errObs := rfl
@[simp] theorem State.deliverBool_errExp (s : State) (p : List Byte) : (s.deliverBool p).errExp = s.errExp := rfl
@[simp] theorem State.deliverBool_resHdr (s : State) (p : List Byte) : (s.deliverBool p).resHdr = s.resHdr := rfl
@[simp] theorem State.deliverBool_resLow (s : State) (p : List Byte) : (s.deliverBool p).resLow = s.resLow := rfl
@[simp] theorem State.deliverBool_resLen (s : State) (p : List Byte) : (s.deliverBool p).resLen = s.resLen := rfl
@[simp] theorem State.deliverBool_resI32 (s : State) (p : List Byte) : (s.deliverBool p).resI32 = s.resI32 := rfl
@[simp] theorem State.deliverBool_resU64 (s : State) (p : List Byte) : (s.deliverBool p).resU64 = s.resU64 := rfl
@[simp] theorem State.deliverBool_resBool (s : State) (p : List Byte) : (s.deliverBool p).resBool = p.any nonzeroByte := rfl
@[simp] theorem State.deliverBool_valid (s : State) (p : List Byte) : (s.deliverBool p).valid = { s.valid with bool := true } := rfl
@[simp] theorem State.deliverBool_txs (s : State) (p : List Byte) : (s.deliverBool p).txs = s.txs := rfl
@[simp] theorem State.deliverBool_rxs (s : State) (p : List Byte) : (s.deliverBool p).rxs = s.rxs := rfl
@[simp] theorem State.deliverBool_orphans (s : State) (p : List Byte) : (s.deliverBool p).orphans = s.orphans := rfl
@[simp] theorem State.deliverBool_rxLost (s : State) (p : List Byte) : (s.deliverBool p).rxLost = s.rxLost := rfl
@[simp] theorem State.deliverBool_hostIn (s : State) (p : List Byte) : (s.deliverBool p).hostIn = s.hostIn := rfl
@[simp] theorem State.deliverBool_transportIn (s : State) (p : List Byte) : (s.deliverBool p).transportIn = s.transportIn := rfl
@[simp] theorem State.deliverBool_turns (s : State) (p : List Byte) : (s.deliverBool p).turns = s.turns := rfl
@[simp] theorem State.deliverBool_hostSaw (s : State) (p : List Byte) : (s.deliverBool p).hostSaw = s.hostSaw := rfl

/-! ### `s.setTurns x` -/

@[simp] theorem State.setTurns_status (s : State) (x : List Turn) : (s.setTurns x).status = s.status := rfl
@[simp] theorem State.setTurns_op (s : State) (x : List Turn) : (s.setTurns x).op = s.op := rfl
@[simp] theorem State.setTurns_argCode (s : State) (x : List Turn) : (s.setTurns x).argCode = s.argCode := rfl
@[simp] theorem State.setTurns_argRole (s : State) (x : List Turn) : (s.setTurns x).argRole = s.argRole := rfl
@[simp] theorem State.setTurns_argHdr (s : State) (x : List Turn) : (s.setTurns x).argHdr = s.argHdr := rfl
@[simp] theorem State.setTurns_argSize (s : State) (x : List Turn) : (s.setTurns x).argSize = s.argSize := rfl
@[simp] theorem State.setTurns_argVal (s : State) (x : List Turn) : (s.setTurns x).argVal = s.argVal := rfl
@[simp] theorem State.setTurns_buf (s : State) (x : List Turn) : (s.setTurns x).buf = s.buf := rfl
@[simp] theorem State.setTurns_len (s : State) (x : List Turn) : (s.setTurns x).len = s.len := rfl
@[simp] theorem State.setTurns_cnt (s : State) (x : List Turn) : (s.setTurns x).cnt = s.cnt := rfl
@[simp] theorem State.setTurns_pend (s : State) (x : List Turn) : (s.setTurns x).pend = s.pend := rfl
@[simp] theorem State.setTurns_errObs (s : State) (x : List Turn) : (s.setTurns x).errObs = s.errObs := rfl
@[simp] theorem State.setTurns_errExp (s : State) (x : List Turn) : (s.setTurns x).errExp = s.errExp := rfl
@[simp] theorem State.setTurns_resHdr (s : State) (x : List Turn) : (s.setTurns x).resHdr = s.resHdr := rfl
@[simp] theorem State.setTurns_resLow (s : State) (x : List Turn) : (s.setTurns x).resLow = s.resLow := rfl
@[simp] theorem State.setTurns_resLen (s : State) (x : List Turn) : (s.setTurns x).resLen = s.resLen := rfl
@[simp] theorem State.setTurns_resI32 (s : State) (x : List Turn) : (s.setTurns x).resI32 = s.resI32 := rfl
@[simp] theorem State.setTurns_resU64 (s : State) (x : List Turn) : (s.setTurns x).resU64 = s.resU64 := rfl
@[simp] theorem State.setTurns_resBool (s : State) (x : List Turn) : (s.setTurns x).resBool = s.resBool := rfl
@[simp] theorem State.setTurns_valid (s : State) (x : List Turn) : (s.setTurns x).valid = s.valid := rfl
@[simp] theorem State.setTurns_txs (s : State) (x : List Turn) : (s.setTurns x).txs = s.txs := rfl
@[simp] theorem State.setTurns_rxs (s : State) (x : List Turn) : (s.setTurns x).rxs = s.rxs := rfl
@[simp] theorem State.setTurns_orphans (s : State) (x : List Turn) : (s.setTurns x).orphans = s.orphans := rfl
@[simp] theorem State.setTurns_rxLost (s : State) (x : List Turn) : (s.setTurns x).rxLost = s.rxLost := rfl
@[simp] theorem State.setTurns_hostIn (s : State) (x : List Turn) : (s.setTurns x).hostIn = s.hostIn := rfl
@[simp] theorem State.setTurns_transportIn (s : State) (x : List Turn) : (s.setTurns x).transportIn = s.transportIn := rfl
@[simp] theorem State.setTurns_turns (s : State) (x : List Turn) : (s.setTurns x).turns = x := rfl
@[simp] theorem State.setTurns_hostSaw (s : State) (x : List Turn) : (s.setTurns x).hostSaw = s.hostSaw := rfl
@[simp] theorem State.setTurns_dir (s : State) (x : List Turn) : (s.setTurns x).dir = s.dir := rfl
@[simp] theorem State.setTurns_orphanNow (s : State) (x : List Turn) : (s.setTurns x).orphanNow = s.orphanNow := rfl
@[simp] theorem State.setTurns_dataBase (s : State) (x : List Turn) : (s.setTurns x).dataBase = s.dataBase := rfl
@[simp] theorem State.setTurns_hostRead (s : State) (x : List Turn) (r : HostReg) : (s.setTurns x).hostRead r = s.hostRead r := by
  cases r <;> rfl

/-! ### `s.setHostIn x` -/

@[simp] theorem State.setHostIn_status (s : State) (x : List HostAct) : (s.setHostIn x).status = s.status := rfl
@[simp] theorem State.setHostIn_op (s : State) (x : List HostAct) : (s.setHostIn x).op = s.op := rfl
@[simp] theorem State.setHostIn_argCode (s : State) (x : List HostAct) : (s.setHostIn x).argCode = s.argCode := rfl
@[simp] theorem State.setHostIn_argRole (s : State) (x : List HostAct) : (s.setHostIn x).argRole = s.argRole := rfl
@[simp] theorem State.setHostIn_argHdr (s : State) (x : List HostAct) : (s.setHostIn x).argHdr = s.argHdr := rfl
@[simp] theorem State.setHostIn_argSize (s : State) (x : List HostAct) : (s.setHostIn x).argSize = s.argSize := rfl
@[simp] theorem State.setHostIn_argVal (s : State) (x : List HostAct) : (s.setHostIn x).argVal = s.argVal := rfl
@[simp] theorem State.setHostIn_buf (s : State) (x : List HostAct) : (s.setHostIn x).buf = s.buf := rfl
@[simp] theorem State.setHostIn_len (s : State) (x : List HostAct) : (s.setHostIn x).len = s.len := rfl
@[simp] theorem State.setHostIn_cnt (s : State) (x : List HostAct) : (s.setHostIn x).cnt = s.cnt := rfl
@[simp] theorem State.setHostIn_pend (s : State) (x : List HostAct) : (s.setHostIn x).pend = s.pend := rfl
@[simp] theorem State.setHostIn_errObs (s : State) (x : List HostAct) : (s.setHostIn x).errObs = s.errObs := rfl
@[simp] theorem State.setHostIn_errExp (s : State) (x : List HostAct) : (s.setHostIn x).errExp = s.errExp := rfl
@[simp] theorem State.setHostIn_resHdr (s : State) (x : List HostAct) : (s.setHostIn x).resHdr = s.resHdr := rfl
@[simp] theorem State.setHostIn_resLow (s : State) (x : List HostAct) : (s.setHostIn x).resLow = s.resLow := rfl
@[simp] theorem State.setHostIn_resLen (s : State) (x : List HostAct) : (s.setHostIn x).resLen = s.resLen := rfl
@[simp] theorem State.setHostIn_resI32 (s : State) (x : List HostAct) : (s.setHostIn x).resI32 = s.resI32 := rfl
@[simp] theorem State.setHostIn_resU64 (s : State) (x : List HostAct) : (s.setHostIn x).resU64 = s.resU64 := rfl
@[simp] theorem State.setHostIn_resBool (s : State) (x : List HostAct) : (s.setHostIn x).resBool = s.resBool := rfl
@[simp] theorem State.setHostIn_valid (s : State) (x : List HostAct) : (s.setHostIn x).valid = s.valid := rfl
@[simp] theorem State.setHostIn_txs (s : State) (x : List HostAct) : (s.setHostIn x).txs = s.txs := rfl
@[simp] theorem State.setHostIn_rxs (s : State) (x : List HostAct) : (s.setHostIn x).rxs = s.rxs := rfl
@[simp] theorem State.setHostIn_orphans (s : State) (x : List HostAct) : (s.setHostIn x).orphans = s.orphans := rfl
@[simp] theorem State.setHostIn_rxLost (s : State) (x : List HostAct) : (s.setHostIn x).rxLost = s.rxLost := rfl
@[simp] theorem State.setHostIn_hostIn (s : State) (x : List HostAct) : (s.setHostIn x).hostIn = x := rfl
@[simp] theorem State.setHostIn_transportIn (s : State) (x : List HostAct) : (s.setHostIn x).transportIn = s.transportIn := rfl
@[simp] theorem State.setHostIn_turns (s : State) (x : List HostAct) : (s.setHostIn x).turns = s.turns := rfl
@[simp] theorem State.setHostIn_hostSaw (s : State) (x : List HostAct) : (s.setHostIn x).hostSaw = s.hostSaw := rfl
@[simp] theorem State.setHostIn_dir (s : State) (x : List HostAct) : (s.setHostIn x).dir = s.dir := rfl
@[simp] theorem State.setHostIn_orphanNow (s : State) (x : List HostAct) : (s.setHostIn x).orphanNow = s.orphanNow := rfl
@[simp] theorem State.setHostIn_dataBase (s : State) (x : List HostAct) : (s.setHostIn x).dataBase = s.dataBase := rfl
@[simp] theorem State.setHostIn_hostRead (s : State) (x : List HostAct) (r : HostReg) : (s.setHostIn x).hostRead r = s.hostRead r := by
  cases r <;> rfl

/-! ### `s.setTransportIn x` -/

@[simp] theorem State.setTransportIn_status (s : State) (x : List TransportAct) : (s.setTransportIn x).status = s.status := rfl
@[simp] theorem State.setTransportIn_op (s : State) (x : List TransportAct) : (s.setTransportIn x).op = s.op := rfl
@[simp] theorem State.setTransportIn_argCode (s : State) (x : List TransportAct) : (s.setTransportIn x).argCode = s.argCode := rfl
@[simp] theorem State.setTransportIn_argRole (s : State) (x : List TransportAct) : (s.setTransportIn x).argRole = s.argRole := rfl
@[simp] theorem State.setTransportIn_argHdr (s : State) (x : List TransportAct) : (s.setTransportIn x).argHdr = s.argHdr := rfl
@[simp] theorem State.setTransportIn_argSize (s : State) (x : List TransportAct) : (s.setTransportIn x).argSize = s.argSize := rfl
@[simp] theorem State.setTransportIn_argVal (s : State) (x : List TransportAct) : (s.setTransportIn x).argVal = s.argVal := rfl
@[simp] theorem State.setTransportIn_buf (s : State) (x : List TransportAct) : (s.setTransportIn x).buf = s.buf := rfl
@[simp] theorem State.setTransportIn_len (s : State) (x : List TransportAct) : (s.setTransportIn x).len = s.len := rfl
@[simp] theorem State.setTransportIn_cnt (s : State) (x : List TransportAct) : (s.setTransportIn x).cnt = s.cnt := rfl
@[simp] theorem State.setTransportIn_pend (s : State) (x : List TransportAct) : (s.setTransportIn x).pend = s.pend := rfl
@[simp] theorem State.setTransportIn_errObs (s : State) (x : List TransportAct) : (s.setTransportIn x).errObs = s.errObs := rfl
@[simp] theorem State.setTransportIn_errExp (s : State) (x : List TransportAct) : (s.setTransportIn x).errExp = s.errExp := rfl
@[simp] theorem State.setTransportIn_resHdr (s : State) (x : List TransportAct) : (s.setTransportIn x).resHdr = s.resHdr := rfl
@[simp] theorem State.setTransportIn_resLow (s : State) (x : List TransportAct) : (s.setTransportIn x).resLow = s.resLow := rfl
@[simp] theorem State.setTransportIn_resLen (s : State) (x : List TransportAct) : (s.setTransportIn x).resLen = s.resLen := rfl
@[simp] theorem State.setTransportIn_resI32 (s : State) (x : List TransportAct) : (s.setTransportIn x).resI32 = s.resI32 := rfl
@[simp] theorem State.setTransportIn_resU64 (s : State) (x : List TransportAct) : (s.setTransportIn x).resU64 = s.resU64 := rfl
@[simp] theorem State.setTransportIn_resBool (s : State) (x : List TransportAct) : (s.setTransportIn x).resBool = s.resBool := rfl
@[simp] theorem State.setTransportIn_valid (s : State) (x : List TransportAct) : (s.setTransportIn x).valid = s.valid := rfl
@[simp] theorem State.setTransportIn_txs (s : State) (x : List TransportAct) : (s.setTransportIn x).txs = s.txs := rfl
@[simp] theorem State.setTransportIn_rxs (s : State) (x : List TransportAct) : (s.setTransportIn x).rxs = s.rxs := rfl
@[simp] theorem State.setTransportIn_orphans (s : State) (x : List TransportAct) : (s.setTransportIn x).orphans = s.orphans := rfl
@[simp] theorem State.setTransportIn_rxLost (s : State) (x : List TransportAct) : (s.setTransportIn x).rxLost = s.rxLost := rfl
@[simp] theorem State.setTransportIn_hostIn (s : State) (x : List TransportAct) : (s.setTransportIn x).hostIn = s.hostIn := rfl
@[simp] theorem State.setTransportIn_transportIn (s : State) (x : List TransportAct) : (s.setTransportIn x).transportIn = x := rfl
@[simp] theorem State.setTransportIn_turns (s : State) (x : List TransportAct) : (s.setTransportIn x).turns = s.turns := rfl
@[simp] theorem State.setTransportIn_hostSaw (s : State) (x : List TransportAct) : (s.setTransportIn x).hostSaw = s.hostSaw := rfl
@[simp] theorem State.setTransportIn_dir (s : State) (x : List TransportAct) : (s.setTransportIn x).dir = s.dir := rfl
@[simp] theorem State.setTransportIn_orphanNow (s : State) (x : List TransportAct) : (s.setTransportIn x).orphanNow = s.orphanNow := rfl
@[simp] theorem State.setTransportIn_dataBase (s : State) (x : List TransportAct) : (s.setTransportIn x).dataBase = s.dataBase := rfl
@[simp] theorem State.setTransportIn_hostRead (s : State) (x : List TransportAct) (r : HostReg) : (s.setTransportIn x).hostRead r = s.hostRead r := by
  cases r <;> rfl

/-! ### `s.platformReset` -/

@[simp] theorem State.platformReset_status (s : State) : s.platformReset.status = State.reset.status := rfl
@[simp] theorem State.platformReset_op (s : State) : s.platformReset.op = State.reset.op := rfl
@[simp] theorem State.platformReset_argCode (s : State) : s.platformReset.argCode = State.reset.argCode := rfl
@[simp] theorem State.platformReset_argRole (s : State) : s.platformReset.argRole = State.reset.argRole := rfl
@[simp] theorem State.platformReset_argHdr (s : State) : s.platformReset.argHdr = State.reset.argHdr := rfl
@[simp] theorem State.platformReset_argSize (s : State) : s.platformReset.argSize = State.reset.argSize := rfl
@[simp] theorem State.platformReset_argVal (s : State) : s.platformReset.argVal = State.reset.argVal := rfl
@[simp] theorem State.platformReset_buf (s : State) : s.platformReset.buf = State.reset.buf := rfl
@[simp] theorem State.platformReset_len (s : State) : s.platformReset.len = State.reset.len := rfl
@[simp] theorem State.platformReset_cnt (s : State) : s.platformReset.cnt = State.reset.cnt := rfl
@[simp] theorem State.platformReset_pend (s : State) : s.platformReset.pend = State.reset.pend := rfl
@[simp] theorem State.platformReset_errObs (s : State) : s.platformReset.errObs = State.reset.errObs := rfl
@[simp] theorem State.platformReset_errExp (s : State) : s.platformReset.errExp = State.reset.errExp := rfl
@[simp] theorem State.platformReset_resHdr (s : State) : s.platformReset.resHdr = State.reset.resHdr := rfl
@[simp] theorem State.platformReset_resLow (s : State) : s.platformReset.resLow = State.reset.resLow := rfl
@[simp] theorem State.platformReset_resLen (s : State) : s.platformReset.resLen = State.reset.resLen := rfl
@[simp] theorem State.platformReset_resI32 (s : State) : s.platformReset.resI32 = State.reset.resI32 := rfl
@[simp] theorem State.platformReset_resU64 (s : State) : s.platformReset.resU64 = State.reset.resU64 := rfl
@[simp] theorem State.platformReset_resBool (s : State) : s.platformReset.resBool = State.reset.resBool := rfl
@[simp] theorem State.platformReset_valid (s : State) : s.platformReset.valid = State.reset.valid := rfl
@[simp] theorem State.platformReset_txs (s : State) : s.platformReset.txs = s.txs := rfl
@[simp] theorem State.platformReset_rxs (s : State) : s.platformReset.rxs = s.rxs := rfl
@[simp] theorem State.platformReset_orphans (s : State) : s.platformReset.orphans = s.orphans ++ s.orphanNow := rfl
@[simp] theorem State.platformReset_rxLost (s : State) : s.platformReset.rxLost = s.rxLost := rfl
@[simp] theorem State.platformReset_hostIn (s : State) : s.platformReset.hostIn = s.hostIn := rfl
@[simp] theorem State.platformReset_transportIn (s : State) : s.platformReset.transportIn = s.transportIn := rfl
@[simp] theorem State.platformReset_turns (s : State) : s.platformReset.turns = s.turns := rfl
@[simp] theorem State.platformReset_hostSaw (s : State) : s.platformReset.hostSaw = s.hostSaw := rfl

end Sys2Proof.Machine
end

