-- ==== Sys2Proof/Laws/Ops.lean ====
section
/-! SUPPORT. What each shared operation can do, said once. -/

namespace Sys2Proof.Machine

theorem fitsPayload_iff (n : Nat) : fitsPayload n = true ↔ n ≤ Config.maxPayload := by
  have := Config.payload_least
  simp only [fitsPayload, Bool.or_eq_true, decide_eq_true_eq]
  omega

theorem fitsBuf_iff (n : Nat) : fitsBuf n = true ↔ n ≤ Config.bufCapacity := by
  have := Config.payload_least
  simp only [fitsBuf, Bool.or_eq_true, decide_eq_true_eq]
  simp only [Config.bufCapacity]
  omega

/-- A load of a written range within the capacity gives its bytes. -/
theorem State.bufLoad_eq_ok (s : State) (a n : Nat) (bs : List Byte) :
    s.bufLoad a n = .ok bs ↔ a + n ≤ Config.bufCapacity ∧ s.buf.readBytes a n = some bs := by
  unfold State.bufLoad
  by_cases h : fitsBuf (a + n) = true
  · simp only [h, if_true, (fitsBuf_iff _).mp h, true_and]
    cases s.buf.readBytes a n <;> simp
  · simp only [h]
    have := mt (fitsBuf_iff _).mpr h
    simp [this]

/-- A store within the capacity writes the bytes. -/
theorem State.bufStore_eq_ok (s t : State) (a : Nat) (bs : List Byte) :
    s.bufStore a bs = .ok t ↔
      a + bs.length ≤ Config.bufCapacity ∧ t = { s with buf := s.buf.writeBytes a bs } := by
  unfold State.bufStore
  by_cases h : fitsBuf (a + bs.length) = true
  · simp [h, (fitsBuf_iff _).mp h, eq_comm]
  · simp only [h]
    have := mt (fitsBuf_iff _).mpr h
    simp [this]

/-- Four bytes of `BUF` read as a header exactly when they read as that byte string. -/
theorem State.bufQuad_eq_ok (s : State) (a : Nat) (q : Quad) :
    s.bufQuad a = .ok q ↔ a + 4 ≤ Config.bufCapacity ∧ s.buf.readBytes a 4 = some q.toList := by
  rw [← State.bufLoad_eq_ok]
  unfold State.bufQuad
  constructor
  · intro h
    split at h
    · rename_i hl; cases h; simpa [Quad.toList] using hl
    · cases h
    · cases h
  · intro h; rw [h]; rfl

/-- A header and a payload behind it, as they stand in a received frame. -/
theorem State.frame_reads {s : State} {q : Quad} {payload : List Byte} {n : Nat} (hn : n = 4 + payload.length)
    (hc : n ≤ Config.bufCapacity) (h : s.buf.readBytes 0 n = some (q.toList ++ payload)) :
    s.bufQuad 0 = .ok q ∧ s.bufLoad 4 payload.length = .ok payload := by
  subst hn
  have h0 := Memory.readBytes_sub h (k := 0) (j := 4) (by omega)
  have h4 := Memory.readBytes_sub h (k := 4) (j := payload.length) (by omega)
  refine ⟨(State.bufQuad_eq_ok ..).mpr ⟨by omega, ?_⟩, (State.bufLoad_eq_ok ..).mpr ⟨by omega, ?_⟩⟩
  · simpa [List.take_append, Quad.toList] using h0
  · simpa [Quad.toList] using h4

/-! ### The header test -/

theorem State.validate_of_matches {s : State} {q : Quad} {role : Role} {ok : State → State}
    (h : headerMatches q.le32 role.magic = true) : s.validate q role ok = ok s := by
  simp [State.validate, h]

theorem State.validate_of_mismatch {s : State} {q : Quad} {role : Role} {ok : State → State}
    (h : headerMatches q.le32 role.magic = false) :
    s.validate q role ok = s.raise (.protocol (top24 q.le32) (top24 role.magic)) := by
  simp [State.validate, h]

/-! ### Acceptance and the loop -/

theorem acceptSized_of_le {n : Nat} (h : n ≤ Config.maxPayload) (f : State → State) (s : State) :
    acceptSized n f s = .next { f s with argSize := n } := by
  simp [acceptSized, (fitsPayload_iff n).mpr h]

theorem acceptSized_of_lt {n : Nat} (h : Config.maxPayload < n) (f : State → State) (s : State) :
    acceptSized n f s = .refused (.oversizePayload n) := by
  have : ¬ fitsPayload n = true := fun hf => by have := (fitsPayload_iff n).mp hf; omega
  simp [acceptSized, this]

section
variable {o : Op} {acc fin : State → Result} {run : State → State} {s : State}

theorem transferStep_of_not_busy (h : s.status ≠ .busy) : transferStep o acc fin s = acc s := by
  simp [transferStep, h]

theorem transferStep_issue (hb : s.status = .busy) (ho : s.op = o.code) (hp : s.pend = false) (hc : s.cnt < s.len) :
    transferStep o acc fin s = .next s.issue := by
  simp [transferStep, hb, ho, hp, hc]

theorem transferStep_finish (hb : s.status = .busy) (ho : s.op = o.code) (hp : s.pend = false) (hc : s.cnt = s.len) :
    transferStep o acc fin s = fin s := by
  simp [transferStep, hb, ho, hp, hc]

theorem transferStep_wait (hb : s.status = .busy) (h : s.op ≠ o.code ∨ s.pend = true) :
    transferStep o acc fin s = .next s := by
  rcases h with h | h <;> simp [transferStep, hb, h]

/-- Everything the step of a transfer operation can be. -/
theorem transferStep_cases (o : Op) (acc fin : State → Result) (s : State) :
    (s.status ≠ .busy ∧ transferStep o acc fin s = acc s) ∨
    (s.status = .busy ∧ s.op = o.code ∧ s.pend = false ∧ s.cnt < s.len ∧ transferStep o acc fin s = .next s.issue) ∨
    (s.status = .busy ∧ s.op = o.code ∧ s.pend = false ∧ s.cnt = s.len ∧ transferStep o acc fin s = fin s) ∨
    (s.status = .busy ∧ transferStep o acc fin s = .next s) := by
  by_cases hb : s.status = .busy
  · by_cases hw : s.op ≠ o.code ∨ s.pend = true
    · exact .inr (.inr (.inr ⟨hb, transferStep_wait hb hw⟩))
    · have ho : s.op = o.code := by_contra fun h => hw (.inl h)
      have hp : s.pend = false := by simpa using fun h => hw (.inr h)
      rcases Nat.lt_trichotomy s.cnt s.len with hc | hc | hc
      · exact .inr (.inl ⟨hb, ho, hp, hc, transferStep_issue hb ho hp hc⟩)
      · exact .inr (.inr (.inl ⟨hb, ho, hp, hc, transferStep_finish hb ho hp hc⟩))
      · exact .inr (.inr (.inr ⟨hb, by
          simp [transferStep, hb, ho, hp, show ¬ s.cnt < s.len by omega, show ¬ s.cnt = s.len by omega]⟩))
  · exact .inl ⟨hb, transferStep_of_not_busy hb⟩

theorem codecStep_of_not_busy (h : s.status ≠ .busy) : codecStep o run s = .next (run (s.accept o 0)) := by
  simp [codecStep, h]

theorem codecStep_of_busy (h : s.status = .busy) : codecStep o run s = .next s := by
  simp [codecStep, h]

end

/-- The finish of a sequencer's receive, once the header and the payload can be read. -/
theorem finishReceive_of_ok {α : Type} {read : State → Except Fault α} {deliver : State → α → State} {s : State}
    {q : Quad} {p : α} (hq : s.bufQuad 0 = .ok q) (hp : read s = .ok p) :
    finishReceive read deliver s = .next (s.validate q .peer fun t => (deliver t p).complete) := by
  rw [finishReceive, hq, hp]

/-- Everything the finish of a sequencer's receive can be. -/
theorem finishReceive_cases {α : Type} (read : State → Except Fault α) (deliver : State → α → State) (s : State) :
    (∃ q p, s.bufQuad 0 = .ok q ∧ read s = .ok p ∧ headerMatches q.le32 Role.peer.magic = true ∧
      finishReceive read deliver s = .next (deliver s p).complete) ∨
    (∃ q p, s.bufQuad 0 = .ok q ∧ read s = .ok p ∧ headerMatches q.le32 Role.peer.magic = false ∧
      finishReceive read deliver s = .next (s.raise (.protocol (top24 q.le32) (top24 Role.peer.magic)))) ∨
    (∃ f, (s.bufQuad 0 = .error f ∨ read s = .error f) ∧ finishReceive read deliver s = .fault f) := by
  rcases hq : s.bufQuad 0 with f | q
  · exact .inr (.inr ⟨f, .inl rfl, by rw [finishReceive, hq]⟩)
  · rcases hp : read s with f | p
    · exact .inr (.inr ⟨f, .inr rfl, by rw [finishReceive, hq, hp]⟩)
    · rcases hm : headerMatches q.le32 Role.peer.magic with _ | _
      · exact .inr (.inl ⟨q, p, rfl, rfl, hm, by rw [finishReceive_of_ok hq hp, State.validate_of_mismatch hm]⟩)
      · exact .inl ⟨q, p, rfl, rfl, hm, by rw [finishReceive_of_ok hq hp, State.validate_of_matches hm]⟩

/-! ### The transport's answers -/

theorem State.answer_of_no_attempt {s : State} (h : s.pend = false) (r : Int) (d : List Byte) :
    s.answer r d = .next s := by
  simp [State.answer, h]

theorem State.answer_tx {s : State} (hp : s.pend = true) (hd : s.dir = some .tx) (r : Int) (d : List Byte) :
    s.answer r d = s.answerTx r := by
  simp [State.answer, hp, hd]

theorem State.answer_rx {s : State} (hp : s.pend = true) (hd : s.dir = some .rx) (r : Int) (d : List Byte) :
    s.answer r d = s.answerRx r d := by
  simp [State.answer, hp, hd]

/-- A positive answer to a send within the count asked (R133). -/
theorem State.answerTx_progress {s : State} {k : Nat} {bs : List Byte} (h0 : 0 < k) (hk : k ≤ s.len - s.cnt)
    (hb : s.bufLoad s.cnt k = .ok bs) : s.answerTx k = .next ({ s with txs := s.txs ++ bs }.advance k) := by
  have h1 : ¬ (k : Int) ≤ 0 := by omega
  have h2 : ¬ ((s.len - s.cnt : Nat) : Int) < (k : Int) := by omega
  simp only [State.answerTx, h1, h2, if_false, Int.toNat_natCast, hb]

/-- A positive answer to a receive within the count asked, with its bytes (R134). -/
theorem State.answerRx_progress {s : State} {d : List Byte} (h0 : 0 < d.length) (hk : d.length ≤ s.len - s.cnt)
    (hc : s.cnt + d.length ≤ Config.bufCapacity) :
    s.answerRx d.length d =
      .next ({ s with rxs := s.rxs ++ d, buf := s.buf.writeBytes s.cnt d }.advance d.length) := by
  have h1 : ¬ (d.length : Int) ≤ 0 := by omega
  have h2 : ¬ ((s.len - s.cnt : Nat) : Int) < (d.length : Int) := by omega
  have hs := (State.bufStore_eq_ok { s with rxs := s.rxs ++ d } _ s.cnt d).mpr ⟨hc, rfl⟩
  simp only [State.answerRx, h1, h2, if_false, ne_eq, not_true, Int.toNat_natCast, hs]

/-- A non-positive answer is a TransportError, in either direction (R133, R134, R201). -/
theorem State.answerTx_nonpositive {s : State} {r : Int} (h : r ≤ 0) : s.answerTx r = .next (s.raise .transport) := by
  simp [State.answerTx, h]

theorem State.answerRx_nonpositive {s : State} {r : Int} (h : r ≤ 0) (d : List Byte) :
    s.answerRx r d = .next (s.raise .transport) := by
  simp [State.answerRx, h]

/-- Everything an answer to a send can be. -/
theorem State.answerTx_cases (s : State) (r : Int) :
    (r ≤ 0 ∧ s.answerTx r = .next (s.raise .transport)) ∨
    (∃ bs, 0 < r.toNat ∧ r.toNat ≤ s.len - s.cnt ∧ s.bufLoad s.cnt r.toNat = .ok bs ∧
      s.answerTx r = .next ({ s with txs := s.txs ++ bs }.advance r.toNat)) ∨
    s.answerTx r = .refused (.answerBeyondCount r) ∨
    (∃ f, 0 < r.toNat ∧ r.toNat ≤ s.len - s.cnt ∧ s.bufLoad s.cnt r.toNat = .error f ∧ s.answerTx r = .fault f) := by
  unfold State.answerTx
  by_cases h1 : r ≤ 0
  · exact .inl ⟨h1, by simp [h1]⟩
  · by_cases h2 : ((s.len - s.cnt : Nat) : Int) < r
    · exact .inr (.inr (.inl (by simp [h1, h2])))
    · rcases hb : s.bufLoad s.cnt r.toNat with f | bs
      · exact .inr (.inr (.inr ⟨f, by omega, by omega, rfl, by simp [h1, h2]⟩))
      · exact .inr (.inl ⟨bs, by omega, by omega, rfl, by simp [h1, h2]⟩)

/-- Everything an answer to a receive can be. -/
theorem State.answerRx_cases (s : State) (r : Int) (d : List Byte) :
    (r ≤ 0 ∧ s.answerRx r d = .next (s.raise .transport)) ∨
    (0 < d.length ∧ d.length ≤ s.len - s.cnt ∧ r = d.length ∧ s.cnt + d.length ≤ Config.bufCapacity ∧
      s.answerRx r d =
        .next ({ s with rxs := s.rxs ++ d, buf := s.buf.writeBytes s.cnt d }.advance d.length)) ∨
    s.answerRx r d = .refused (.answerBeyondCount r) ∨
    s.answerRx r d = .refused (.answerNotCountBytes r) ∨
    (d.length ≤ s.len - s.cnt ∧ Config.bufCapacity < s.cnt + d.length ∧
      s.answerRx r d = .fault (.bufOutOfRange (s.cnt + d.length))) := by
  by_cases h1 : r ≤ 0
  · exact .inl ⟨h1, State.answerRx_nonpositive h1 d⟩
  · by_cases h2 : ((s.len - s.cnt : Nat) : Int) < r
    · exact .inr (.inr (.inl (by simp [State.answerRx, h1, h2])))
    · by_cases h3 : (d.length : Int) = r
      · subst h3
        by_cases h4 : s.cnt + d.length ≤ Config.bufCapacity
        · exact .inr (.inl ⟨by omega, by omega, rfl, h4, State.answerRx_progress (by omega) (by omega) h4⟩)
        · have hf : ¬ fitsBuf (s.cnt + d.length) = true := mt (fitsBuf_iff _).mp h4
          refine .inr (.inr (.inr (.inr ⟨by omega, by omega, ?_⟩)))
          simp only [State.answerRx, h1, h2, if_false, ne_eq, not_true, State.bufStore, hf]
          rfl
      · exact .inr (.inr (.inr (.inl (by simp [State.answerRx, h1, h2, h3]))))

/-- A header crosses as an answer of its four bytes, or is refused because the send does not offer it. -/
theorem State.crossHeader_cases (s : State) (q : Quad) :
    s.crossHeader q = .refused (.headerNotOffered q) ∨ s.crossHeader q = s.answer 4 q.toList := by
  unfold State.crossHeader
  split
  · exact .inl rfl
  · exact .inr rfl

/-- A header that a send offers next crosses (R133). -/
theorem State.crossHeader_offered {s : State} {q : Quad} (h : s.buf.readBytes s.cnt 4 = some q.toList) :
    s.crossHeader q = s.answer 4 q.toList := by
  simp [State.crossHeader, h]

/-- A header reaches a receive (R134). -/
theorem State.crossHeader_rx {s : State} (hd : s.dir = some .rx) (q : Quad) :
    s.crossHeader q = s.answer 4 q.toList := by
  simp [State.crossHeader, hd]

/-! ### The latched operation -/

theorem State.dir_of_op {s : State} {o : Op} (h : s.op = o.code) : s.dir = dirOf o := by
  simp [State.dir, h]

/-- `LEN` and `CNT` fit in the width R25 gives them. -/
theorem bufCapacity_lt_lenWidth : Config.bufCapacity < 2 ^ Config.lenWidth := by
  unfold Config.lenWidth
  exact Nat.lt_log2_self

end Sys2Proof.Machine
end

