-- ==== Sys2Proof/Laws/Step.lean ====
section
/-! SUPPORT. One step, agent by agent. -/

namespace Sys2Proof.Machine

theorem step_of_turn {s : State} {t : Turn} {ts : List Turn} (h : s.turns = t :: ts) :
    step s = takeTurn t (s.setTurns ts) := by
  simp [step, nextTurn, h]

theorem step_of_free {s : State} (h : s.turns = []) : step s = freeTurn s := by
  simp [step, nextTurn, h]

/-- Whose turn it is: a step is one agent's turn, on the state with that turn used up. -/
theorem step_cases (s : State) :
    (∃ ts, s.turns = .reset :: ts ∧ step s = .next (s.setTurns ts).platformReset) ∨
    ∃ u : State, (s.turns = [] ∧ u = s ∨ ∃ t ts, s.turns = t :: ts ∧ u = s.setTurns ts) ∧
      (step s = hostTurn u ∨ step s = transportTurn u ∨ step s = fhcTurn u) := by
  rcases hts : s.turns with _ | ⟨t, ts⟩
  · refine .inr ⟨s, .inl ⟨rfl, rfl⟩, ?_⟩
    rw [step_of_free hts, freeTurn]
    split
    · exact .inr (.inr rfl)
    · split
      · exact .inr (.inl rfl)
      · exact .inl rfl
  · rw [step_of_turn hts]
    cases t with
    | reset => exact .inl ⟨ts, rfl, rfl⟩
    | host => exact .inr ⟨_, .inr ⟨_, ts, rfl, rfl⟩, .inl rfl⟩
    | transport => exact .inr ⟨_, .inr ⟨_, ts, rfl, rfl⟩, .inr (.inl rfl)⟩
    | fhc => exact .inr ⟨_, .inr ⟨_, ts, rfl, rfl⟩, .inr (.inr rfl)⟩

/-! ### FHC's turn -/

theorem inFlight_of_busy {s : State} {o : Op} (hb : s.status = .busy) (ho : Op.ofCode s.op = some o) :
    s.inFlight = some (s.latchedInstr o) := by
  simp [State.inFlight, hb, ho]

theorem fhcTurn_of_busy {s : State} {o : Op} (hb : s.status = .busy) (ho : Op.ofCode s.op = some o) :
    fhcTurn s = exec (s.latchedInstr o) s := by
  rw [fhcTurn, inFlight_of_busy hb ho]

theorem fhcTurn_of_not_busy {s : State} (hb : s.status ≠ .busy) : fhcTurn s = .next s := by
  simp [fhcTurn, State.inFlight, hb]

/-! ### The host's turn -/

theorem hostTurn_request {s : State} {q : Request} {rest : List HostAct} {i : Instr}
    (h : s.hostIn = .request q :: rest) (hb : s.status ≠ .busy) (hd : decodeRequest q = .ok i) :
    hostTurn s = exec i (s.setHostIn rest) := by
  simp [hostTurn, h, hb, hd]

theorem hostTurn_request_busy {s : State} {q : Request} {rest : List HostAct}
    (h : s.hostIn = .request q :: rest) (hb : s.status = .busy) : hostTurn s = .next s := by
  simp [hostTurn, h, hb]

/-! ### The transport's turn -/

theorem transportTurn_progress {s : State} {r : Int} {d : List Byte} {rest : List TransportAct}
    (h : s.transportIn = .progress r d :: rest) (hp : s.pend = true) :
    transportTurn s = (s.setTransportIn rest).answer r d := by
  simp [transportTurn, h, hp]

theorem transportTurn_header {s : State} {q : Quad} {rest : List TransportAct} {i : Instr}
    (h : s.transportIn = .header q :: rest) (hp : s.pend = true) (hd : decodeHeader q = .ok i) :
    transportTurn s = exec i (s.setTransportIn rest) := by
  simp [transportTurn, h, hp, hd]

/-! ### The free order (log 2) -/

theorem freeTurn_fhc {s : State} (hb : s.status = .busy) (hp : s.pend = false) (hc : s.cnt ≤ s.len) :
    freeTurn s = fhcTurn s := by
  simp [freeTurn, State.fhcReady, hb, hp, hc]

theorem freeTurn_of_pend {s : State} (hp : s.pend = true) :
    freeTurn s = if s.transportReady = true then transportTurn s else hostTurn s := by
  simp [freeTurn, State.fhcReady, hp]

theorem freeTurn_progress {s : State} {r : Int} {d : List Byte} {rest : List TransportAct}
    (h : s.transportIn = .progress r d :: rest) (hp : s.pend = true) :
    freeTurn s = (s.setTransportIn rest).answer r d := by
  rw [freeTurn_of_pend hp, ← transportTurn_progress h hp]
  simp [State.transportReady, h, hp]

/-- Running some steps, then some more. -/
theorem run_add (M : Host.Core) (j k : Nat) {s t : M.State} (h : M.run j s = .next t) : M.run (j + k) s = M.run k t := by
  induction j generalizing s with
  | zero => cases h; simp
  | succ j ih =>
    rw [Nat.succ_add, Host.Core.run]
    rw [Host.Core.run] at h
    split at h
    · rename_i u hu; simp [ih h]
    · cases h
    · cases h

theorem run_one {s t : State} (h : step s = .next t) : Host.Core.run Sys2Proof.core 1 s = .next t := by
  have hc : Sys2Proof.core.step s = .next t := h
  simp only [Host.Core.run, hc]

/-- One step, then the rest of the run. -/
theorem run_succ {s t : State} (h : step s = .next t) (k : Nat) :
    Host.Core.run Sys2Proof.core (k + 1) s = Host.Core.run Sys2Proof.core k t := by
  rw [Nat.add_comm]
  exact run_add Sys2Proof.core 1 k (run_one h)

theorem run_fault {s : State} {f : Fault} (h : step s = .fault f) (k : Nat) :
    Host.Core.run Sys2Proof.core (k + 1) s = .fault f := by
  have hc : Sys2Proof.core.step s = .fault f := h
  simp only [Host.Core.run, hc]

theorem run_refused {s : State} {r : Refusal} (h : step s = .refused r) (k : Nat) :
    Host.Core.run Sys2Proof.core (k + 1) s = .refused r := by
  have hc : Sys2Proof.core.step s = .refused r := h
  simp only [Host.Core.run, hc]

end Sys2Proof.Machine
end

