-- ==== Sys2Proof/Laws/Exec.lean ====
section
/-! SUPPORT. Everything a meaning can do: a request is accepted, an operation issues an attempt, an operation finishes, a
header crosses, or nothing changes. -/

namespace Sys2Proof.Machine

/-- What FHC's own steps leave alone: the transport's strings and the agents' coming moves. -/
structure SameOutside (s t : State) : Prop where
  txs : t.txs = s.txs
  rxs : t.rxs = s.rxs
  orphans : t.orphans = s.orphans
  rxLost : t.rxLost = s.rxLost
  hostIn : t.hostIn = s.hostIn
  transportIn : t.transportIn = s.transportIn
  turns : t.turns = s.turns
  hostSaw : t.hostSaw = s.hostSaw

/-- What the accepting step of a codec operation leaves (R110, R111, R112, R115). -/
structure CodecDone (s t : State) : Prop extends SameOutside s t where
  status : t.status = .doneOk ∨ t.status = .errProtocol
  len : t.len = 0
  cnt : t.cnt = 0
  pend : t.pend = false
  buf : t.buf = s.buf
  valid_done : t.valid.any = true → t.status = .doneOk
  valid_data : t.valid.data = false
  err : t.status = .errProtocol ∨ t.errObs = s.errObs ∧ t.errExp = s.errExp

/-- What the acceptance of an operation that moves bytes leaves (R97, R130, R131, R160 to R167). -/
structure TransferBegun (s t : State) (o : Op) : Prop extends SameOutside s t where
  status : t.status = .busy
  op : t.op = o.code
  len : t.len = t.expectedLen o
  len_le : t.len ≤ Config.bufCapacity
  cnt : t.cnt = 0
  pend : t.pend = false
  valid : t.valid = ValidBits.none
  buf : (dirOf o = some .tx ∧ ∃ frame : List Byte, frame.length = t.len ∧ t.buf = Memory.ofBytes frame) ∨
    (dirOf o = some .rx ∧ t.buf = [])
  errObs : t.errObs = s.errObs
  errExp : t.errExp = s.errExp

/-- What the finish of an operation leaves (R135, R169, R206). -/
structure Finished (s t : State) : Prop extends SameOutside s t where
  status : (t.status = .doneOk ∧ t.errObs = s.errObs ∧ t.errExp = s.errExp) ∨
    (t.status = .errProtocol ∧ t.errExp = 0x112233#24 ∧ t.valid = s.valid)
  op : t.op = s.op
  argSize : t.argSize = s.argSize
  len : t.len = s.len
  cnt : t.cnt = s.cnt
  pend : t.pend = false
  buf : t.buf = s.buf
  window : t.valid.data = true → s.valid.data = true ∨ (s.op = Op.relRecv.code ∧ t.resLen = s.len) ∨
    (s.op = Op.recvBuf.code ∧ t.resLen = s.argSize)

/-- The finish of each operation (R135); the codec operations have none. -/
def finishOf : Op → State → Result
  | .encCmdHdr => .next
  | .encBufHdr => .next
  | .decValHdr => .next
  | .relSend => finishSend
  | .relRecv => finishRelRecv
  | .sendCmd => finishSend
  | .recvConfirm => finishReceive (fun _ => .ok ()) (fun t _ => t)
  | .recvBuf => finishReceive (fun _ => .ok ()) (fun t _ => t.deliverData t.argSize)
  | .sendBuf => finishSend
  | .sendU64 => finishSend
  | .recvI32 => finishReceive (fun t => t.bufQuad 4) State.deliverI32
  | .recvU64 => finishReceive (fun t => t.bufLoad 4 8) State.deliverU64
  | .recvBool => finishReceive (fun t => t.bufLoad 4 1) State.deliverBool

theorem codecDone_deliverHeader (s : State) (o : Op) (c : Byte) (q : Quad) :
    CodecDone s (State.deliverHeader { s.accept o 0 with argCode := c } q) :=
  { txs := rfl, rxs := rfl, orphans := rfl, rxLost := rfl, hostIn := rfl, transportIn := rfl, turns := rfl,
    hostSaw := rfl, status := .inl rfl, len := rfl, cnt := rfl, pend := rfl, buf := rfl, valid_done := fun _ => rfl,
    valid_data := rfl, err := .inr ⟨rfl, rfl⟩ }

theorem codecDone_deliverHeader' (s : State) (o : Op) (q : Quad) :
    CodecDone s (State.deliverHeader (s.accept o 0) q) :=
  { txs := rfl, rxs := rfl, orphans := rfl, rxLost := rfl, hostIn := rfl, transportIn := rfl, turns := rfl,
    hostSaw := rfl, status := .inl rfl, len := rfl, cnt := rfl, pend := rfl, buf := rfl, valid_done := fun _ => rfl,
    valid_data := rfl, err := .inr ⟨rfl, rfl⟩ }

theorem codecDone_validate (s : State) (hdr : Quad) (role : Role) (low : Byte) :
    CodecDone s (({ s.accept .decValHdr 0 with argHdr := hdr, argRole := role } : State).validate hdr role
      (fun u => u.deliverLow low)) := by
  rcases hm : headerMatches hdr.le32 role.magic with _ | _
  · rw [State.validate_of_mismatch hm]
    exact { txs := rfl, rxs := rfl, orphans := rfl, rxLost := rfl, hostIn := rfl, transportIn := rfl, turns := rfl,
            hostSaw := rfl, status := .inr rfl, len := rfl, cnt := rfl, pend := rfl, buf := rfl, valid_done := nofun,
            valid_data := rfl, err := .inl rfl }
  · rw [State.validate_of_matches hm]
    exact { txs := rfl, rxs := rfl, orphans := rfl, rxLost := rfl, hostIn := rfl, transportIn := rfl, turns := rfl,
            hostSaw := rfl, status := .inl rfl, len := rfl, cnt := rfl, pend := rfl, buf := rfl, valid_done := fun _ => rfl,
            valid_data := rfl, err := .inr ⟨rfl, rfl⟩ }

/-- The acceptance of a transfer, whichever operands it latches. -/
theorem transferBegun_of_eq {s t : State} {o : Op} {n : Nat} {m : Memory}
    (ht : t = { s.accept o n with argCode := t.argCode, argSize := t.argSize, argVal := t.argVal, buf := m })
    (hm : (dirOf o = some .tx ∧ ∃ frame : List Byte, frame.length = n ∧ m = Memory.ofBytes frame) ∨
      (dirOf o = some .rx ∧ m = []))
    (hl : n = t.expectedLen o) (hc : n ≤ Config.bufCapacity) : TransferBegun s t o := by
  have hn : t.len = n := congrArg State.len ht
  have hb : t.buf = m := congrArg State.buf ht
  exact {
    txs := (congrArg State.txs ht :), rxs := (congrArg State.rxs ht :), orphans := (congrArg State.orphans ht :),
    rxLost := (congrArg State.rxLost ht :), hostIn := (congrArg State.hostIn ht :),
    transportIn := (congrArg State.transportIn ht :), turns := (congrArg State.turns ht :),
    hostSaw := (congrArg State.hostSaw ht :), status := (congrArg State.status ht :), op := (congrArg State.op ht :),
    len := hn.trans hl, len_le := by rw [hn]; exact hc, cnt := (congrArg State.cnt ht :),
    pend := (congrArg State.pend ht :), valid := (congrArg State.valid ht :), buf := by rw [hn, hb]; exact hm, errObs := (congrArg State.errObs ht :),
    errExp := (congrArg State.errExp ht :) }

/-- The acceptance of a send. -/
theorem transferBegun_send {s t : State} {o : Op} {frame : List Byte}
    (ht : t = { s.acceptSend o frame with argCode := t.argCode, argSize := t.argSize, argVal := t.argVal })
    (hd : dirOf o = some .tx) (hl : frame.length = t.expectedLen o) (hc : frame.length ≤ Config.bufCapacity) :
    TransferBegun s t o :=
  transferBegun_of_eq ht (.inl ⟨hd, frame, rfl, rfl⟩) hl hc

/-- The acceptance of a receive. -/
theorem transferBegun_receive {s t : State} {o : Op} {n : Nat}
    (ht : t = { s.acceptReceive o n with argCode := t.argCode, argSize := t.argSize, argVal := t.argVal })
    (hd : dirOf o = some .rx) (hl : n = t.expectedLen o) (hc : n ≤ Config.bufCapacity) : TransferBegun s t o :=
  transferBegun_of_eq ht (.inr ⟨hd, rfl⟩) hl hc

theorem SameOutside.refl (s : State) : SameOutside s s := ⟨rfl, rfl, rfl, rfl, rfl, rfl, rfl, rfl⟩

theorem acceptSized_outcome {o : Op} {n : Nat} {f : State → State} {s : State}
    (h : n ≤ Config.maxPayload → TransferBegun s { f s with argSize := n } o) :
    (∃ t, acceptSized n f s = .next t ∧ TransferBegun s t o) ∨ ∃ k, acceptSized n f s = .refused (.oversizePayload k) := by
  rcases Nat.lt_or_ge Config.maxPayload n with hn | hn
  · exact .inr ⟨n, acceptSized_of_lt hn f s⟩
  · exact .inl ⟨_, acceptSized_of_le hn f s, h hn⟩

/-- Everything the meaning of a request can do: nothing; accept the request, when nothing is in flight; issue or finish,
when its own operation is in flight. -/
def Outcomes (s : State) (r : Result) : Prop :=
  r = .next s ∨
  (s.status ≠ .busy ∧ ((∃ t, r = .next t ∧ CodecDone s t) ∨ (∃ t o, r = .next t ∧ TransferBegun s t o) ∨
    ∃ n, r = .refused (.oversizePayload n))) ∨
  ∃ o, s.status = .busy ∧ s.op = o.code ∧ s.pend = false ∧ dirOf o ≠ none ∧
    (s.cnt < s.len ∧ r = .next s.issue ∨ s.cnt = s.len ∧ r = finishOf o s)

theorem codecStep_outcomes {o : Op} {run : State → State} {s : State} (h : CodecDone s (run (s.accept o 0))) :
    Outcomes s (codecStep o run s) := by
  by_cases hb : s.status = .busy
  · exact .inl (codecStep_of_busy hb)
  · exact .inr (.inl ⟨hb, .inl ⟨_, codecStep_of_not_busy hb, h⟩⟩)

theorem transferStep_outcomes {o : Op} {acc : State → Result} {s : State} (hd : dirOf o ≠ none)
    (ha : (∃ t, acc s = .next t ∧ TransferBegun s t o) ∨ ∃ n, acc s = .refused (.oversizePayload n)) :
    Outcomes s (transferStep o acc (finishOf o) s) := by
  rcases transferStep_cases o acc (finishOf o) s with ⟨hb, h⟩ | ⟨hb, ho, hp, hc, h⟩ | ⟨hb, ho, hp, hc, h⟩ | ⟨_, h⟩
  · rw [h]
    exact .inr (.inl ⟨hb, .inr (ha.imp (fun ⟨t, h, ht⟩ => ⟨t, o, h, ht⟩) id)⟩)
  · exact .inr (.inr ⟨o, hb, ho, hp, hd, .inl ⟨hc, h⟩⟩)
  · exact .inr (.inr ⟨o, hb, ho, hp, hd, .inr ⟨hc, h⟩⟩)
  · exact .inl h

/-- Everything a meaning can do: what a request's meaning can do, or a header crosses. -/
theorem exec_cases (i : Instr) (s : State) :
    Outcomes s (exec i s) ∨ ∃ q, encode i = .header q ∧ exec i s = s.crossHeader q := by
  have hm := Config.payload_least
  have hcap : Config.bufCapacity = Config.maxPayload + 4 := rfl
  cases i with
  | encCmdHdr code =>
    rw [exec, execEncCmdHdr]
    refine .inl (codecStep_outcomes ?_)
    exact codecDone_deliverHeader s .encCmdHdr code _
  | encBufHdr =>
    rw [exec, execEncBufHdr]
    refine .inl (codecStep_outcomes ?_)
    exact codecDone_deliverHeader' s .encBufHdr _
  | decValHdr hdr role =>
    rw [exec, execDecValHdr]
    refine .inl (codecStep_outcomes ?_)
    exact codecDone_validate s hdr role _
  | relSend data =>
    rw [exec, execRelSend]
    refine .inl <| transferStep_outcomes (o := .relSend) nofun (acceptSized_outcome fun h => ?_)
    exact transferBegun_send rfl rfl rfl (by omega)
  | relRecv size =>
    rw [exec, execRelRecv]
    refine .inl <| transferStep_outcomes (o := .relRecv) nofun (acceptSized_outcome fun h => ?_)
    exact transferBegun_receive rfl rfl rfl (by omega)
  | sendCmd code =>
    rw [exec, execSendCmd]
    refine .inl <| transferStep_outcomes (o := .sendCmd) nofun (.inl ⟨_, rfl, ?_⟩)
    exact transferBegun_send rfl rfl rfl
      (by rw [Quad.toList_length]; omega)
  | recvConfirm =>
    rw [exec, execRecvConfirm]
    refine .inl <| transferStep_outcomes (o := .recvConfirm) nofun (.inl ⟨_, rfl, ?_⟩)
    exact transferBegun_receive rfl rfl rfl (by omega)
  | recvBuf size =>
    rw [exec, execRecvBuf]
    refine .inl <| transferStep_outcomes (o := .recvBuf) nofun (acceptSized_outcome fun h => ?_)
    exact transferBegun_receive rfl rfl rfl (by omega)
  | sendBuf data =>
    rw [exec, execSendBuf]
    refine .inl <| transferStep_outcomes (o := .sendBuf) nofun (acceptSized_outcome fun h => ?_)
    exact transferBegun_send rfl rfl (bufferFrame_length data)
      (by rw [bufferFrame_length]; omega)
  | sendU64 val =>
    rw [exec, execSendU64]
    refine .inl <| transferStep_outcomes (o := .sendU64) nofun (.inl ⟨_, rfl, ?_⟩)
    refine transferBegun_send rfl rfl ?_ ?_ <;>
      rw [bufferFrame_length, bytesLe_length]
    · rfl
    · omega
  | recvI32 =>
    rw [exec, execRecvI32]
    refine .inl <| transferStep_outcomes (o := .recvI32) nofun (.inl ⟨_, rfl, ?_⟩)
    exact transferBegun_receive rfl rfl rfl (by omega)
  | recvU64 =>
    rw [exec, execRecvU64]
    refine .inl <| transferStep_outcomes (o := .recvU64) nofun (.inl ⟨_, rfl, ?_⟩)
    exact transferBegun_receive rfl rfl rfl (by omega)
  | recvBool =>
    rw [exec, execRecvBool]
    refine .inl <| transferStep_outcomes (o := .recvBool) nofun (.inl ⟨_, rfl, ?_⟩)
    exact transferBegun_receive rfl rfl rfl (by omega)
  | frameSendBuffer => exact .inr ⟨_, rfl, rfl⟩
  | frameConfirm => exact .inr ⟨_, rfl, rfl⟩
  | frameGetControlData => exact .inr ⟨_, rfl, rfl⟩
  | frameListApps => exact .inr ⟨_, rfl, rfl⟩
  | frameGetActiveUser => exact .inr ⟨_, rfl, rfl⟩
  | frameGetCurrentApp => exact .inr ⟨_, rfl, rfl⟩
  | frameGetVersion => exact .inr ⟨_, rfl, rfl⟩
  | frameDisconnect => exact .inr ⟨_, rfl, rfl⟩
  | framePeer low => exact .inr ⟨_, rfl, by rw [exec, execFramePeer, peerHeaderBytes_eq]⟩

/-- A request is never read as a header's row (log 24). -/
theorem decodeRequest_not_header {r : Request} {i : Instr} (h : decodeRequest r = .ok i) (q : Quad) :
    encode i ≠ .header q := by
  unfold decodeRequest at h
  split at h
  · cases h
  · split at h
    · rename_i o _
      cases o <;> simp only [Op.instr] at h <;> (try split at h) <;> cases h <;> nofun
    · cases h

/-- Everything the meaning of a decoded request can do. -/
theorem exec_request_cases {r : Request} {i : Instr} (h : decodeRequest r = .ok i) (s : State) :
    Outcomes s (exec i s) :=
  (exec_cases i s).elim id fun ⟨q, hq, _⟩ => absurd hq (decodeRequest_not_header h q)

/-! ### The finish -/

theorem finished_deliver {s t : State} (same : SameOutside s t) (hs : t.status = .doneOk)
    (he : t.errObs = s.errObs ∧ t.errExp = s.errExp) (ho : t.op = s.op) (ha : t.argSize = s.argSize)
    (hl : t.len = s.len) (hc : t.cnt = s.cnt) (hp : t.pend = false) (hb : t.buf = s.buf)
    (hw : t.valid.data = true → s.valid.data = true ∨ (s.op = Op.relRecv.code ∧ t.resLen = s.len) ∨
      (s.op = Op.recvBuf.code ∧ t.resLen = s.argSize)) : Finished s t :=
  { same with
    status := .inl ⟨hs, he⟩, op := ho, argSize := ha, len := hl, cnt := hc, pend := hp, buf := hb, window := hw }

theorem finished_mismatch (s : State) (obs : BitVec 24) :
    Finished s (s.raise (.protocol obs (top24 Role.peer.magic))) :=
  { txs := rfl, rxs := rfl, orphans := rfl, rxLost := rfl, hostIn := rfl, transportIn := rfl, turns := rfl,
    hostSaw := rfl, status := .inr ⟨rfl, (by decide : top24 Role.peer.magic = 0x112233#24), rfl⟩, op := rfl, argSize := rfl, len := rfl, cnt := rfl,
    pend := rfl, buf := rfl, window := .inl }

theorem finishReceive_finished {α : Type} {read : State → Except Fault α} {deliver : State → α → State} {s : State}
    (h : ∀ p, Finished s (deliver s p).complete) :
    (∃ t, finishReceive read deliver s = .next t ∧ Finished s t) ∨
      ∃ f, (s.bufQuad 0 = .error f ∨ read s = .error f) ∧ finishReceive read deliver s = .fault f := by
  rcases finishReceive_cases read deliver s with ⟨q, p, _, _, _, he⟩ | ⟨q, p, _, _, _, he⟩ | hf
  · exact .inl ⟨_, he, h p⟩
  · exact .inl ⟨_, he, finished_mismatch s _⟩
  · exact .inr hf

/-- A finish ends the operation, or it stops because a byte it needs has no value or no place in `BUF`. -/
theorem finishOf_cases {o : Op} {s : State} (hd : dirOf o ≠ none) (ho : s.op = o.code) (hp : s.pend = false) :
    (∃ t, finishOf o s = .next t ∧ Finished s t) ∨
      dirOf o = some .rx ∧ ∃ f, (s.bufQuad 0 = .error f ∨ s.bufQuad 4 = .error f ∨ s.bufLoad 4 8 = .error f ∨
        s.bufLoad 4 1 = .error f) ∧ finishOf o s = .fault f := by
  have same : SameOutside s s.complete := ⟨rfl, rfl, rfl, rfl, rfl, rfl, rfl, rfl⟩
  have done : Finished s s.complete := finished_deliver same rfl ⟨rfl, rfl⟩ rfl rfl rfl rfl hp rfl .inl
  have other : ∀ {α : Type} (read : State → Except Fault α) (deliver : State → α → State),
      finishOf o s = finishReceive read deliver s → dirOf o = some .rx → (∀ p, Finished s (deliver s p).complete) →
      (∀ f, read s = .error f → s.bufQuad 4 = .error f ∨ s.bufLoad 4 8 = .error f ∨ s.bufLoad 4 1 = .error f) →
      (∃ t, finishOf o s = .next t ∧ Finished s t) ∨
        dirOf o = some .rx ∧ ∃ f, (s.bufQuad 0 = .error f ∨ s.bufQuad 4 = .error f ∨ s.bufLoad 4 8 = .error f ∨
          s.bufLoad 4 1 = .error f) ∧ finishOf o s = .fault f := by
    intro α read deliver he hrx hfin hread
    rw [he]
    exact (finishReceive_finished hfin).imp id fun ⟨f, h, hf⟩ => ⟨hrx, f, h.imp id (hread f), hf⟩
  cases o with
  | encCmdHdr => exact absurd rfl hd
  | encBufHdr => exact absurd rfl hd
  | decValHdr => exact absurd rfl hd
  | relSend => exact .inl ⟨_, rfl, done⟩
  | relRecv =>
    exact .inl ⟨_, rfl, finished_deliver ⟨rfl, rfl, rfl, rfl, rfl, rfl, rfl, rfl⟩ rfl ⟨rfl, rfl⟩ rfl rfl rfl rfl hp rfl
      fun _ => .inr (.inl ⟨ho, rfl⟩)⟩
  | sendCmd => exact .inl ⟨_, rfl, done⟩
  | recvConfirm => exact other (fun _ => .ok ()) (fun t _ => t) rfl rfl (fun _ => done) fun _ h => by cases h
  | recvBuf =>
    refine other (fun _ => .ok ()) (fun t _ => t.deliverData t.argSize) rfl rfl (fun _ => ?_) fun _ h => by cases h
    exact finished_deliver ⟨rfl, rfl, rfl, rfl, rfl, rfl, rfl, rfl⟩ rfl ⟨rfl, rfl⟩ rfl rfl rfl rfl hp rfl
      fun _ => .inr (.inr ⟨ho, rfl⟩)
  | sendBuf => exact .inl ⟨_, rfl, done⟩
  | sendU64 => exact .inl ⟨_, rfl, done⟩
  | recvI32 =>
    refine other (fun t => t.bufQuad 4) State.deliverI32 rfl rfl (fun _ => ?_) fun _ h => ?_
    · exact finished_deliver ⟨rfl, rfl, rfl, rfl, rfl, rfl, rfl, rfl⟩ rfl ⟨rfl, rfl⟩ rfl rfl rfl rfl hp rfl .inl
    · exact .inl h
  | recvU64 =>
    refine other (fun t => t.bufLoad 4 8) State.deliverU64 rfl rfl (fun _ => ?_) fun _ h => ?_
    · exact finished_deliver ⟨rfl, rfl, rfl, rfl, rfl, rfl, rfl, rfl⟩ rfl ⟨rfl, rfl⟩ rfl rfl rfl rfl hp rfl .inl
    · exact .inr <| .inl h
  | recvBool =>
    refine other (fun t => t.bufLoad 4 1) State.deliverBool rfl rfl (fun _ => ?_) fun _ h => ?_
    · exact finished_deliver ⟨rfl, rfl, rfl, rfl, rfl, rfl, rfl, rfl⟩ rfl ⟨rfl, rfl⟩ rfl rfl rfl rfl hp rfl .inl
    · exact .inr <| .inr h

/-- A range of written bytes within the capacity loads. -/
theorem State.bufLoad_of_isSome {s : State} {a n m : Nat} (h : (s.buf.readBytes 0 m).isSome = true) (hn : a + n ≤ m)
    (hc : m ≤ Config.bufCapacity) : ∃ bytes, s.bufLoad a n = .ok bytes := by
  obtain ⟨bs, hbs⟩ := Option.isSome_iff_exists.mp h
  have := Memory.readBytes_sub hbs hn
  exact ⟨_, (State.bufLoad_eq_ok ..).mpr ⟨by omega, by simpa using this⟩⟩

theorem State.bufQuad_of_isSome {s : State} {a m : Nat} (h : (s.buf.readBytes 0 m).isSome = true) (hn : a + 4 ≤ m)
    (hc : m ≤ Config.bufCapacity) : ∃ q, s.bufQuad a = .ok q := by
  obtain ⟨bs, hbs⟩ := State.bufLoad_of_isSome h hn hc
  obtain ⟨_, hr⟩ := (State.bufLoad_eq_ok ..).mp hbs
  match bs, Memory.readBytes_length hr with
  | [b0, b1, b2, b3], _ => exact ⟨⟨b0, b1, b2, b3⟩, (State.bufQuad_eq_ok ..).mpr ⟨by omega, hr⟩⟩

/-- In a state of `Invariants` the finish is never stuck (R135). -/
theorem finishOf_next {o : Op} {s : State} (hI : Invariants s) (hb : s.status = .busy) (ho : s.op = o.code)
    (hp : s.pend = false) (hc : s.cnt = s.len) : ∃ t, finishOf o s = .next t ∧ Finished s t := by
  have hof : Op.ofCode s.op = some o := by rw [ho, Op.ofCode_code]
  obtain ⟨o', ho', hd, hl⟩ := hI.busy_op hb
  obtain rfl : o = o' := Option.some.inj (hof.symm.trans ho')
  refine (finishOf_cases hd ho hp).elim id fun ⟨hrx, _⟩ => ?_
  have hr := hI.receive_bytes hb ((State.dir_of_op ho).trans hrx)
  rw [hc] at hr
  refine (finishOf_cases hd ho hp).elim id fun ⟨_, f, _, he⟩ => ?_
  exfalso
  cases o <;> simp only [finishOf, finishSend, finishRelRecv, reduceCtorEq] at he
  all_goals
    simp only [State.expectedLen] at hl
    obtain ⟨q, hq⟩ := State.bufQuad_of_isSome (a := 0) hr (by omega) hI.len_le_capacity
  · rw [finishReceive_of_ok hq (p := ()) rfl] at he; cases he
  · rw [finishReceive_of_ok hq (p := ()) rfl] at he; cases he
  · obtain ⟨p, h⟩ := State.bufQuad_of_isSome (a := 4) hr (by omega) hI.len_le_capacity
    rw [finishReceive_of_ok hq h] at he; cases he
  · obtain ⟨p, h⟩ := State.bufLoad_of_isSome (a := 4) (n := 8) hr (by omega) hI.len_le_capacity
    rw [finishReceive_of_ok hq h] at he; cases he
  · obtain ⟨p, h⟩ := State.bufLoad_of_isSome (a := 4) (n := 1) hr (by omega) hI.len_le_capacity
    rw [finishReceive_of_ok hq h] at he; cases he

end Sys2Proof.Machine
end

