-- ==== Sys2Proof/Laws/PerInstr.lean ====
section
/-! SUPPORT. The family `TableRow`: the encoding of every instruction has the bits spec/opcode_table.json fixes for its
row (its mask and match, and the format). -/

namespace Sys2Proof.Laws.TableRow

/-- An HREQ row: mask 0x00EF, this match (30_encoding R99). -/
def requestRow (m : BitVec 16) : Encoded → Prop
  | .request r => r.word &&& 0x00EF#16 = m
  | .header _ => False

/-- An HDR32 row: this mask and match (R80, R83). -/
def headerRow (mask m : BitVec 32) : Encoded → Prop
  | .request _ => False
  | .header q => q.le32 &&& mask = m

/-- The row of the opcode table that an instruction's encoding must fit. -/
def Statement (i : Instr) : Prop :=
  match i with
  | .encCmdHdr _ => requestRow 0x0000#16 (encode i)
  | .encBufHdr => requestRow 0x0001#16 (encode i)
  | .decValHdr _ _ => requestRow 0x0002#16 (encode i)
  | .relSend _ => requestRow 0x0003#16 (encode i)
  | .relRecv _ => requestRow 0x0004#16 (encode i)
  | .sendCmd _ => requestRow 0x0005#16 (encode i)
  | .recvConfirm => requestRow 0x0006#16 (encode i)
  | .recvBuf _ => requestRow 0x0007#16 (encode i)
  | .sendBuf _ => requestRow 0x0008#16 (encode i)
  | .sendU64 _ => requestRow 0x0009#16 (encode i)
  | .recvI32 => requestRow 0x000A#16 (encode i)
  | .recvU64 => requestRow 0x000B#16 (encode i)
  | .recvBool => requestRow 0x000C#16 (encode i)
  | .frameSendBuffer => headerRow 0xFFFFFFFF#32 0x33221100#32 (encode i)
  | .frameConfirm => headerRow 0xFFFFFFFF#32 0x33221101#32 (encode i)
  | .frameGetControlData => headerRow 0xFFFFFFFF#32 0x33221102#32 (encode i)
  | .frameListApps => headerRow 0xFFFFFFFF#32 0x33221103#32 (encode i)
  | .frameGetActiveUser => headerRow 0xFFFFFFFF#32 0x33221104#32 (encode i)
  | .frameGetCurrentApp => headerRow 0xFFFFFFFF#32 0x33221105#32 (encode i)
  | .frameGetVersion => headerRow 0xFFFFFFFF#32 0x33221106#32 (encode i)
  | .frameDisconnect => headerRow 0xFFFFFFFF#32 0x332211FF#32 (encode i)
  | .framePeer _ => headerRow 0xFFFFFF00#32 0x11223300#32 (encode i)

/-- The fixed bits of a control word: `OPSEL` and the reserved bits (R97). -/
theorem controlWord_fixed (o : Op) (role : BitVec 1) (code : Byte) :
    controlWord o role code &&& 0x00EF#16 = o.code.setWidth 16 := by
  have hm : ∀ i, i < 16 → (0x00EF#16).getLsbD i = (decide (i < 4) || (decide (5 ≤ i) && decide (i < 8))) := by decide
  refine BitVec.eq_of_getLsbD_eq fun i hi => ?_
  rw [BitVec.getLsbD_and, hm i hi, BitVec.getLsbD_setWidth]
  simp only [controlWord, BitVec.getLsbD_append]
  by_cases h4 : i < 4
  · simp [h4, hi]
  · rw [BitVec.getLsbD_of_ge o.code i (by omega)]
    by_cases h5 : i < 5
    · simp [h4, show ¬ 5 ≤ i by omega]
    · by_cases h8 : i < 8
      · simp [h4, show ¬ i - 4 < 1 by omega, show i - 4 - 1 < 3 by omega]
      · simp [h4, h8]

/-- The request built for an operation fits the operation's row. -/
theorem request_fits {o : Op} {m : BitVec 16} (h : o.code.setWidth 16 = m) (code : Byte) (role : Role) (hdr : Quad)
    (size : Nat) (data : List Byte) (val : BitVec 64) :
    requestRow m (o.request code role hdr size data val) := (controlWord_fixed ..).trans h

/-- The header built from a value fits a row whose mask takes all of it. -/
theorem header_fits (v : BitVec 32) : headerRow 0xFFFFFFFF#32 v (.header (Quad.ofLe32 v)) := by
  rw [headerRow, Quad.le32_ofLe32]
  exact BitVec.and_allOnes

section
variable (code low : Byte) (hdr : Quad) (role : Role) (data : List Byte) (size : Nat) (val : BitVec 64)

theorem encCmdHdr : Statement (.encCmdHdr code) := request_fits (by decide) ..
theorem encBufHdr : Statement .encBufHdr := request_fits (by decide) ..
theorem decValHdr : Statement (.decValHdr hdr role) := request_fits (by decide) ..
theorem relSend : Statement (.relSend data) := request_fits (by decide) ..
theorem relRecv : Statement (.relRecv size) := request_fits (by decide) ..
theorem sendCmd : Statement (.sendCmd code) := request_fits (by decide) ..
theorem recvConfirm : Statement .recvConfirm := request_fits (by decide) ..
theorem recvBuf : Statement (.recvBuf size) := request_fits (by decide) ..
theorem sendBuf : Statement (.sendBuf data) := request_fits (by decide) ..
theorem sendU64 : Statement (.sendU64 val) := request_fits (by decide) ..
theorem recvI32 : Statement .recvI32 := request_fits (by decide) ..
theorem recvU64 : Statement .recvU64 := request_fits (by decide) ..
theorem recvBool : Statement .recvBool := request_fits (by decide) ..
theorem frameSendBuffer : Statement .frameSendBuffer := header_fits _
theorem frameConfirm : Statement .frameConfirm := header_fits _
theorem frameGetControlData : Statement .frameGetControlData := header_fits _
theorem frameListApps : Statement .frameListApps := header_fits _
theorem frameGetActiveUser : Statement .frameGetActiveUser := header_fits _
theorem frameGetCurrentApp : Statement .frameGetCurrentApp := header_fits _
theorem frameGetVersion : Statement .frameGetVersion := header_fits _
theorem frameDisconnect : Statement .frameDisconnect := header_fits _
theorem framePeer : Statement (.framePeer low) := by
  have h := (headerMatches_peer ⟨low, 0x33#8, 0x22#8, 0x11#8⟩).mpr ⟨rfl, rfl, rfl⟩
  rw [headerMatches, decide_eq_true_eq] at h
  exact h

end

end Sys2Proof.Laws.TableRow
end

