-- ==== Sys2Proof/Laws/Turns.lean ====
section
/-! SUPPORT. Everything each agent's turn can do, and so everything a step can do. -/

namespace Sys2Proof.Machine

/-! ### Headers -/

/-- A client's header is read by its command code (30_encoding R80, R83). -/
theorem decodeHeader_client (c : Byte) : decodeHeader ⟨c, 0x11#8, 0x22#8, 0x33#8⟩ = decodeCommandCode c := by
  have h : top24 (Quad.le32 ⟨c, 0x11#8, 0x22#8, 0x33#8⟩) = 0x332211#24 :=
    (Quad.top24_le32 _).trans (by decide : (0x33#8 ++ 0x22#8 ++ 0x11#8 : BitVec 24) = 0x332211#24)
  simp only [decodeHeader, h, Quad.lowByte_le32]
  rfl

/-- A peer's header is read with any low byte (R94). -/
theorem decodeHeader_peer (c : Byte) : decodeHeader ⟨c, 0x33#8, 0x22#8, 0x11#8⟩ = .ok (.framePeer c) := by
  have h : top24 (Quad.le32 ⟨c, 0x33#8, 0x22#8, 0x11#8⟩) = 0x112233#24 :=
    (Quad.top24_le32 _).trans (by decide : (0x11#8 ++ 0x22#8 ++ 0x33#8 : BitVec 24) = 0x112233#24)
  simp only [decodeHeader, h, Quad.lowByte_le32, if_true]

/-- What a header that decodes looks like: a peer's, or a client's of an assigned code (R81, R83, R95). -/
theorem decodeHeader_eq_ok {q : Quad} {i : Instr} (h : decodeHeader q = .ok i) :
    (q = ⟨q.b0, 0x33#8, 0x22#8, 0x11#8⟩ ∧ i = .framePeer q.b0) ∨
      (q = ⟨q.b0, 0x11#8, 0x22#8, 0x33#8⟩ ∧ decodeCommandCode q.b0 = .ok i) := by
  obtain ⟨b0, b1, b2, b3⟩ := q
  simp only [decodeHeader, Quad.top24_le32, Quad.lowByte_le32,
    show 0x112233#24 = 0x11#8 ++ 0x22#8 ++ 0x33#8 by decide,
    show 0x332211#24 = 0x33#8 ++ 0x22#8 ++ 0x11#8 by decide, bytes24_eq] at h
  split at h
  · rename_i hm
    obtain ⟨rfl, rfl, rfl⟩ := hm
    cases h
    exact .inl ⟨rfl, rfl⟩
  · split at h
    · rename_i hm
      obtain ⟨rfl, rfl, rfl⟩ := hm
      exact .inr ⟨rfl, h⟩
    · cases h

/-- Running a header's row carries that header across (log 6). -/
theorem exec_decodedHeader {q : Quad} {i : Instr} (h : decodeHeader q = .ok i) (s : State) :
    exec i s = s.crossHeader q := by
  rcases decodeHeader_eq_ok h with ⟨hq, rfl⟩ | ⟨hq, hc⟩
  · rw [exec, execFramePeer, peerHeaderBytes_eq, ← hq]
  · rw [hq, ← commandHeaderBytes_eq]
    clear hq h
    generalize q.b0 = c at hc
    unfold decodeCommandCode at hc
    repeat' split at hc
    all_goals (cases hc; try (rename_i hc; subst hc; rfl))

/-! ### The turns -/

/-- Everything FHC can do at its own turn: nothing; issue or finish, for the operation in flight. -/
def OwnOutcomes (s : State) (r : Result) : Prop :=
  r = .next s ∨
  ∃ o, s.status = .busy ∧ s.op = o.code ∧ s.pend = false ∧ dirOf o ≠ none ∧
    (s.cnt < s.len ∧ r = .next s.issue ∨ s.cnt = s.len ∧ r = finishOf o s)

theorem transferStep_own {o : Op} {acc : State → Result} {s : State} (hb : s.status = .busy) (hd : dirOf o ≠ none) :
    OwnOutcomes s (transferStep o acc (finishOf o) s) := by
  rcases transferStep_cases o acc (finishOf o) s with h | ⟨_, ho, hp, hc, h⟩ | ⟨_, ho, hp, hc, h⟩ | ⟨_, h⟩
  · exact absurd hb h.1
  · exact .inr ⟨o, hb, ho, hp, hd, .inl ⟨hc, h⟩⟩
  · exact .inr ⟨o, hb, ho, hp, hd, .inr ⟨hc, h⟩⟩
  · exact .inl h

/-- Everything FHC's turn can do (41_transportio R132, R135). -/
theorem fhcTurn_cases (s : State) : OwnOutcomes s (fhcTurn s) := by
  by_cases hb : s.status = .busy
  · rcases ho : Op.ofCode s.op with _ | o
    · exact .inl (by simp [fhcTurn, State.inFlight, hb, ho])
    · rw [fhcTurn_of_busy hb ho]
      cases o with
      | encCmdHdr => rw [State.latchedInstr, exec, execEncCmdHdr]; exact .inl (codecStep_of_busy hb)
      | encBufHdr => rw [State.latchedInstr, exec, execEncBufHdr]; exact .inl (codecStep_of_busy hb)
      | decValHdr => rw [State.latchedInstr, exec, execDecValHdr]; exact .inl (codecStep_of_busy hb)
      | relSend => rw [State.latchedInstr, exec, execRelSend]; exact transferStep_own (o := .relSend) hb nofun
      | relRecv => rw [State.latchedInstr, exec, execRelRecv]; exact transferStep_own (o := .relRecv) hb nofun
      | sendCmd => rw [State.latchedInstr, exec, execSendCmd]; exact transferStep_own (o := .sendCmd) hb nofun
      | recvConfirm => rw [State.latchedInstr, exec, execRecvConfirm]; exact transferStep_own (o := .recvConfirm) hb nofun
      | recvBuf => rw [State.latchedInstr, exec, execRecvBuf]; exact transferStep_own (o := .recvBuf) hb nofun
      | sendBuf => rw [State.latchedInstr, exec, execSendBuf]; exact transferStep_own (o := .sendBuf) hb nofun
      | sendU64 => rw [State.latchedInstr, exec, execSendU64]; exact transferStep_own (o := .sendU64) hb nofun
      | recvI32 => rw [State.latchedInstr, exec, execRecvI32]; exact transferStep_own (o := .recvI32) hb nofun
      | recvU64 => rw [State.latchedInstr, exec, execRecvU64]; exact transferStep_own (o := .recvU64) hb nofun
      | recvBool => rw [State.latchedInstr, exec, execRecvBool]; exact transferStep_own (o := .recvBool) hb nofun
  · exact .inl (fhcTurn_of_not_busy hb)

/-- The latched operation, when it transfers, runs the shared attempt loop with its own finish. -/
theorem exec_latched {o : Op} (hd : dirOf o ≠ none) (s u : State) :
    ∃ acc, exec (s.latchedInstr o) u = transferStep o acc (finishOf o) u := by
  cases o with
  | encCmdHdr => exact absurd rfl hd
  | encBufHdr => exact absurd rfl hd
  | decValHdr => exact absurd rfl hd
  | relSend => rw [State.latchedInstr, exec, execRelSend]; exact ⟨_, rfl⟩
  | relRecv => rw [State.latchedInstr, exec, execRelRecv]; exact ⟨_, rfl⟩
  | sendCmd => rw [State.latchedInstr, exec, execSendCmd]; exact ⟨_, rfl⟩
  | recvConfirm => rw [State.latchedInstr, exec, execRecvConfirm]; exact ⟨_, rfl⟩
  | recvBuf => rw [State.latchedInstr, exec, execRecvBuf]; exact ⟨_, rfl⟩
  | sendBuf => rw [State.latchedInstr, exec, execSendBuf]; exact ⟨_, rfl⟩
  | sendU64 => rw [State.latchedInstr, exec, execSendU64]; exact ⟨_, rfl⟩
  | recvI32 => rw [State.latchedInstr, exec, execRecvI32]; exact ⟨_, rfl⟩
  | recvU64 => rw [State.latchedInstr, exec, execRecvU64]; exact ⟨_, rfl⟩
  | recvBool => rw [State.latchedInstr, exec, execRecvBool]; exact ⟨_, rfl⟩

/-- With no turn laid down and no attempt outstanding, FHC issues or finishes (R132, R135, D27). -/
theorem step_own {s : State} {o : Op} (hb : s.status = .busy) (ho : s.op = o.code) (hp : s.pend = false)
    (ht : s.turns = []) (hd : dirOf o ≠ none) :
    (s.cnt < s.len → step s = .next s.issue) ∧ (s.cnt = s.len → step s = finishOf o s) := by
  have hof : Op.ofCode s.op = some o := by rw [ho, Op.ofCode_code]
  obtain ⟨acc, h⟩ := exec_latched hd s s
  refine ⟨fun hc => ?_, fun hc => ?_⟩
  · rw [step_of_free ht, freeTurn_fhc hb hp (by omega), fhcTurn_of_busy hb hof, h, transferStep_issue hb ho hp hc]
  · rw [step_of_free ht, freeTurn_fhc hb hp (by omega), fhcTurn_of_busy hb hof, h, transferStep_finish hb ho hp hc]

theorem State.op_of_dir {s : State} {d : Dir} (h : s.dir = some d) : ∃ o : Op, s.op = o.code ∧ dirOf o = some d := by
  unfold State.dir at h
  split at h
  · rename_i o ho
    exact ⟨o, (Op.code_of_ofCode ho).symm, h⟩
  · cases h

/-- The finish of a send ends it (R135). -/
theorem finishOf_send {o : Op} (h : dirOf o = some .tx) (s : State) : finishOf o s = .next s.complete := by
  cases o <;> first | rfl | cases h

/-- Everything the host's turn can do (R35, R97, R100). -/
theorem hostTurn_cases (s : State) :
    hostTurn s = .next s ∨
    (∃ r rest v, s.hostIn = .read r :: rest ∧ s.hostRead r = .ok v ∧
      hostTurn s = .next { s.setHostIn rest with hostSaw := some v }) ∨
    (∃ r rest f, s.hostIn = .read r :: rest ∧ s.hostRead r = .error f ∧ hostTurn s = .fault f) ∨
    (∃ q rest i, s.hostIn = .request q :: rest ∧ s.status ≠ .busy ∧ decodeRequest q = .ok i ∧
      hostTurn s = exec i (s.setHostIn rest)) ∨
    ∃ why, hostTurn s = .refused (.malformedRequest why) := by
  rcases hh : s.hostIn with _ | ⟨r | q, rest⟩
  · exact .inl (by simp [hostTurn, hh])
  · rcases hr : s.hostRead r with f | v
    · exact .inr (.inr (.inl ⟨r, rest, f, rfl, hr, by simp [hostTurn, hh, hr]⟩))
    · exact .inr (.inl ⟨r, rest, v, rfl, hr, by simp [hostTurn, hh, hr]⟩)
  · by_cases hb : s.status = .busy
    · exact .inl (hostTurn_request_busy hh hb)
    · rcases hd : decodeRequest q with why | i
      · exact .inr (.inr (.inr (.inr ⟨why, by simp [hostTurn, hh, hb, hd]⟩)))
      · exact .inr (.inr (.inr (.inl ⟨q, rest, i, rfl, hb, hd, hostTurn_request hh hb hd⟩)))

/-- Everything the transport's turn can do (R133, R134, R231). -/
theorem transportTurn_cases (s : State) :
    transportTurn s = .next s ∨
    (∃ act rest r d, s.transportIn = act :: rest ∧ s.pend = true ∧
      transportTurn s = (s.setTransportIn rest).answer r d) ∨
    (∃ q, transportTurn s = .refused (.headerNotOffered q)) ∨
    (∃ which k d rest, s.transportIn = .late which k d :: rest ∧
      transportTurn s = (s.setTransportIn rest).lateMove which k d) := by
  rcases hx : s.transportIn with _ | ⟨⟨r, d⟩ | q | ⟨which, k, d⟩, rest⟩
  · exact .inl (by simp [transportTurn, hx])
  · by_cases hp : s.pend = true
    · exact .inr (.inl ⟨_, rest, r, d, rfl, hp, transportTurn_progress hx hp⟩)
    · exact .inl (by simp [transportTurn, hx, hp])
  · by_cases hp : s.pend = true
    · have h : transportTurn s = (s.setTransportIn rest).crossHeader q := by
        rcases hd : decodeHeader q with e | i
        · simp [transportTurn, hx, hp, hd]
        · rw [transportTurn_header hx hp hd, exec_decodedHeader hd]
      rcases State.crossHeader_cases (s.setTransportIn rest) q with hc | hc
      · exact .inr (.inr (.inl ⟨q, h.trans hc⟩))
      · exact .inr (.inl ⟨_, rest, 4, q.toList, rfl, hp, h.trans hc⟩)
    · exact .inl (by simp [transportTurn, hx, hp])
  · exact .inr (.inr (.inr ⟨which, k, d, rest, rfl, by simp [transportTurn, hx]⟩))

/-- Everything a late move can do (R231, U10). -/
theorem State.lateMove_cases (s : State) (which k : Nat) (d : List Byte) :
    (∃ offered, s.orphans[which]? = some (.tx offered) ∧ k ≤ offered.length ∧
      s.lateMove which k d = .next { s with
        txs := s.txs ++ offered.take k, orphans := s.orphans.set which (.tx (offered.drop k)) }) ∨
    (∃ asked, s.orphans[which]? = some (.rx asked) ∧ k ≤ asked ∧ d.length = k ∧
      s.lateMove which k d = .next { s with
        rxLost := s.rxLost ++ d, orphans := s.orphans.set which (.rx (asked - k)) }) ∨
    s.lateMove which k d = .refused (.lateBeyondOrphan which k) := by
  unfold State.lateMove
  split
  · rename_i offered h
    by_cases hk : k ≤ offered.length
    · exact .inl ⟨offered, h, hk, by simp [hk]⟩
    · exact .inr (.inr (by simp [hk]))
  · rename_i asked h
    by_cases hk : k ≤ asked ∧ d.length = k
    · exact .inr (.inl ⟨asked, h, hk.1, hk.2, by simp [hk]⟩)
    · exact .inr (.inr (by simp [hk]))
  · exact .inr (.inr rfl)

/-- The answer to an outstanding attempt, whichever way the operation transfers. -/
theorem State.answer_cases (s : State) (r : Int) (d : List Byte) :
    s.answer r d = .next s ∨ (s.dir = some .tx ∧ s.answer r d = s.answerTx r) ∨
      (s.dir = some .rx ∧ s.answer r d = s.answerRx r d) := by
  by_cases hp : s.pend = false
  · exact .inl (State.answer_of_no_attempt hp r d)
  · have hp : s.pend = true := by simpa using hp
    rcases hd : s.dir with _ | _ | _
    · exact .inl (by simp [State.answer, hp, hd])
    · exact .inr (.inl ⟨rfl, State.answer_tx hp hd r d⟩)
    · exact .inr (.inr ⟨rfl, State.answer_rx hp hd r d⟩)

/-! ### A step that goes on -/

/-- Everything a step that goes on can be, from the state `u` whose turn is used up. -/
inductive StepKind (u t : State) : Prop
  /-- Nothing of FHC's or the transport's moves; the host may have read a register. -/
  | idle (h : t = { u with hostIn := t.hostIn, hostSaw := t.hostSaw })
  /-- A codec operation is accepted and completes (R115). -/
  | codec (v : State) (hb : u.status ≠ .busy) (hv : v = { u with hostIn := v.hostIn }) (h : CodecDone v t)
  /-- A transfer operation is accepted (R97). -/
  | begun (v : State) (o : Op) (hb : u.status ≠ .busy) (hv : v = { u with hostIn := v.hostIn })
      (h : TransferBegun v t o)
  /-- The issue step (R132). -/
  | issue (hb : u.status = .busy) (hp : u.pend = false) (hc : u.cnt < u.len) (h : t = u.issue)
  /-- The finish step (R135). -/
  | finished (o : Op) (hb : u.status = .busy) (ho : u.op = o.code) (hp : u.pend = false) (hc : u.cnt = u.len)
      (h : Finished u t)
  /-- An answer to an attempt of an operation that transfers nothing; no reachable state has one. -/
  | noAnswer (act : TransportAct) (rest : List TransportAct) (hx : u.transportIn = act :: rest) (hp : u.pend = true)
      (h : t = u.setTransportIn rest)
  /-- A non-positive answer (R133, R134, R201). -/
  | error (act : TransportAct) (rest : List TransportAct) (hx : u.transportIn = act :: rest) (hp : u.pend = true)
      (h : t = (u.setTransportIn rest).raise .transport)
  /-- A positive answer to a send (R133). -/
  | sent (act : TransportAct) (rest : List TransportAct) (k : Nat) (bs : List Byte) (hx : u.transportIn = act :: rest)
      (hp : u.pend = true) (hd : u.dir = some .tx) (h0 : 0 < k) (hk : k ≤ u.len - u.cnt)
      (h : t = { u.setTransportIn rest with txs := u.txs ++ bs }.advance k)
  /-- A positive answer to a receive (R134). -/
  | received (act : TransportAct) (rest : List TransportAct) (d : List Byte) (hx : u.transportIn = act :: rest)
      (hp : u.pend = true) (hd : u.dir = some .rx) (h0 : 0 < d.length) (hk : d.length ≤ u.len - u.cnt)
      (h : t = { u.setTransportIn rest with
        rxs := u.rxs ++ d, buf := u.buf.writeBytes u.cnt d }.advance d.length)
  /-- The transport moves bytes of an orphaned attempt (R231, U10). -/
  | late (sent got : List Byte)
      (h : t = { u with
        transportIn := t.transportIn, orphans := t.orphans, txs := u.txs ++ sent, rxLost := u.rxLost ++ got })

theorem stepKind_answer {u t : State} {rest act r d} (hx : u.transportIn = act :: rest) (hp : u.pend = true) (h : (u.setTransportIn rest).answer r d = .next t) : StepKind u t := by
  rcases State.answer_cases (u.setTransportIn rest) r d with h' | ⟨hd, h'⟩ | ⟨hd, h'⟩ <;> rw [h'] at h
  · cases h; exact .noAnswer act rest hx hp rfl
  · rcases State.answerTx_cases (u.setTransportIn rest) r with ⟨_, e⟩ | ⟨bs, h0, hk, _, e⟩ | e | ⟨f, _, hk, hf, e⟩ <;> rw [e] at h <;> cases h
    · exact .error act rest hx hp rfl
    · exact .sent act rest r.toNat bs hx hp hd h0 hk rfl
  · rcases State.answerRx_cases (u.setTransportIn rest) r d with ⟨_, e⟩ | ⟨h0, hk, _, _, e⟩ | e | e | ⟨h1, h2, e⟩ <;> rw [e] at h <;> cases h
    · exact .error act rest hx hp rfl
    · exact .received act rest d hx hp hd h0 hk rfl

theorem step_next_cases {s t : State} (h : step s = .next t) : (∃ ts, s.turns = .reset :: ts ∧ t = (s.setTurns ts).platformReset) ∨
    ∃ u, u = { s with turns := u.turns } ∧ StepKind u t := by
  rcases step_cases s with ⟨ts, hts, e⟩ | ⟨u, hu, hx⟩
  · rw [e] at h; cases h; exact .inl ⟨ts, hts, rfl⟩
  · refine .inr ⟨u, ?_, ?_⟩
    · rcases hu with ⟨_, rfl⟩ | ⟨_, ts, _, rfl⟩ <;> rfl
    rcases hx with e | e | e <;> rw [e] at h
    · rcases hostTurn_cases u with e | ⟨r, rest, v, _, _, e⟩ | ⟨r, rest, f, _, hr, e⟩ | ⟨q, rest, i, _, hb, hdec, e⟩ | ⟨why, e⟩ <;> rw [e] at h
      · cases h; exact .idle rfl
      · cases h; exact .idle rfl
      · cases h
      · rcases exec_request_cases hdec (u.setHostIn rest) with e | ⟨_, ⟨t', e, H⟩ | ⟨t', o, e, H⟩ | ⟨n, e⟩⟩ | ⟨o, hb', _⟩
        · rw [e] at h; cases h; exact .idle rfl
        · rw [e] at h; cases h; exact .codec _ hb rfl H
        · rw [e] at h; cases h; exact .begun _ o hb rfl H
        · rw [e] at h; cases h
        · exact absurd hb' hb
      · cases h
    · rcases transportTurn_cases u with e | ⟨act, rest, r, d, hx, hp, e⟩ | ⟨q, e⟩ | ⟨w, k, d, rest, _, e⟩ <;> rw [e] at h
      · cases h; exact .idle rfl
      · exact stepKind_answer hx hp h
      · cases h
      · rcases State.lateMove_cases (u.setTransportIn rest) w k d with ⟨off, _, _, e⟩ | ⟨_, _, _, _, e⟩ | e <;>
          rw [e] at h <;> cases h
        · exact .late (off.take k) [] (by simp [State.setTransportIn])
        · exact .late [] d (by simp [State.setTransportIn])
    · rcases fhcTurn_cases u with e | ⟨o, hb, ho, hp, hd, ⟨hc, e⟩ | ⟨hc, e⟩⟩ <;> rw [e] at h
      · cases h; exact .idle rfl
      · cases h; exact .issue hb hp hc rfl
      · rcases finishOf_cases hd ho hp with ⟨t', e', H⟩ | ⟨_, f, _, e'⟩ <;> rw [e'] at h <;> cases h
        exact .finished o hb ho hp hc H

end Sys2Proof.Machine
end

