-- ==== Sys2Proof/Tests/Slice0.lean ====
section
/-! SUPPORT. The model's own tests: the ill-formed terms WellFormed refuses, words written out from the encodings of
30_encoding, one-step vectors of 95_test_vectors, and for every statement with hypotheses a state that meets them. -/

namespace Sys2Proof.Tests

open Sys2Proof.Machine

/-! ## WellFormed: each check refuses an ill-formed term (30_encoding R97, R100) -/

/-- One byte more than `MAX_PAYLOAD`. -/
theorem tooLong : decide (Config.maxPayload + 1 ≤ Config.maxPayload) = false := by simp

theorem test_smoke_relSend : (Instr.relSend (List.replicate (Config.maxPayload + 1) 0x00#8)).wellFormed = false := by
  rw [Instr.wellFormed, List.length_replicate, tooLong]

theorem test_smoke_relRecv : (Instr.relRecv (Config.maxPayload + 1)).wellFormed = false := tooLong

theorem test_smoke_recvBuf : (Instr.recvBuf (Config.maxPayload + 1)).wellFormed = false := tooLong

theorem test_smoke_sendBuf : (Instr.sendBuf (List.replicate (Config.maxPayload + 1) 0x00#8)).wellFormed = false := by
  rw [Instr.wellFormed, List.length_replicate, tooLong]

/-! ## Decoding: words written out bit by bit

A control word is `CODE . 000 . ROLE . OPSEL` (R97, R99); the operands an operation does not use are set and ignored. -/

/-- A request with this word and every side operand set. -/
def full (w : BitVec 16) : Request := ⟨w, ⟨0x04#8, 0x33#8, 0x22#8, 0x11#8⟩, 2, [0xDE#8, 0xAD#8], 0x0123456789ABCDEF#64⟩

/-- What a request decodes to, or nothing. -/
def read (r : Request) : Option Instr :=
  match decodeRequest r with
  | .ok i => some i
  | .error _ => none

/-- What the four bytes of a header decode to, or nothing. -/
def readHeader (b0 b1 b2 b3 : Byte) : Option Instr :=
  match decodeHeader ⟨b0, b1, b2, b3⟩ with
  | .ok i => some i
  | .error _ => none

theorem test_decode_encCmdHdr : read (full 0b0000011000000000#16) = some (.encCmdHdr 0x06#8) := by decide

theorem test_decode_encBufHdr : read (full 0b1010101100000001#16) = some .encBufHdr := by decide

theorem test_decode_decValHdr_peer : read (full 0b0000000000010010#16) = some (.decValHdr ⟨0x04#8, 0x33#8, 0x22#8, 0x11#8⟩ .peer) := by decide

theorem test_decode_decValHdr_client : read (full 0b1111111100000010#16) = some (.decValHdr ⟨0x04#8, 0x33#8, 0x22#8, 0x11#8⟩ .client) := by decide

theorem test_decode_relSend : read (full 0b0000000000000011#16) = some (.relSend [0xDE#8, 0xAD#8]) := by decide

theorem test_decode_relRecv : read (full 0b0000000000000100#16) = some (.relRecv 2) := by decide

theorem test_decode_sendCmd : read (full 0b1111111100010101#16) = some (.sendCmd 0xFF#8) := by decide

theorem test_decode_recvConfirm : read (full 0b0000000000000110#16) = some .recvConfirm := by decide

theorem test_decode_recvBuf : read (full 0b0000000000000111#16) = some (.recvBuf 2) := by decide

theorem test_decode_sendBuf : read (full 0b0000000000001000#16) = some (.sendBuf [0xDE#8, 0xAD#8]) := by decide

theorem test_decode_sendU64 : read (full 0b0000000000001001#16) = some (.sendU64 0x0123456789ABCDEF#64) := by decide

theorem test_decode_recvI32 : read (full 0b0000000000001010#16) = some .recvI32 := by decide

theorem test_decode_recvU64 : read (full 0b0000000000001011#16) = some .recvU64 := by decide

theorem test_decode_recvBool : read (full 0b0000000000001100#16) = some .recvBool := by decide

/-- R100, V50, V51: `OPSEL` 0xD, 0xE, 0xF and each reserved bit. -/
theorem test_decode_reserved :
    read (full 0b0000000000001101#16) = none ∧ read (full 0b0000000000001110#16) = none ∧
    read (full 0b0000000000001111#16) = none ∧ read (full 0b0000000000100101#16) = none ∧
    read (full 0b0000000001000101#16) = none ∧ read (full 0b0000000010000101#16) = none := by decide

/-! A header is `MAGIC24 . LOW`, least significant byte first (R80, R52). -/

theorem test_decode_frameSendBuffer : readHeader 0x00#8 0x11#8 0x22#8 0x33#8 = some .frameSendBuffer := by decide

theorem test_decode_frameConfirm : readHeader 0x01#8 0x11#8 0x22#8 0x33#8 = some .frameConfirm := by decide

theorem test_decode_frameGetControlData : readHeader 0x02#8 0x11#8 0x22#8 0x33#8 = some .frameGetControlData := by decide

theorem test_decode_frameListApps : readHeader 0x03#8 0x11#8 0x22#8 0x33#8 = some .frameListApps := by decide

theorem test_decode_frameGetActiveUser : readHeader 0x04#8 0x11#8 0x22#8 0x33#8 = some .frameGetActiveUser := by decide

theorem test_decode_frameGetCurrentApp : readHeader 0x05#8 0x11#8 0x22#8 0x33#8 = some .frameGetCurrentApp := by decide

theorem test_decode_frameGetVersion : readHeader 0x06#8 0x11#8 0x22#8 0x33#8 = some .frameGetVersion := by decide

theorem test_decode_frameDisconnect : readHeader 0xFF#8 0x11#8 0x22#8 0x33#8 = some .frameDisconnect := by decide

theorem test_decode_framePeer : readHeader 0x04#8 0x33#8 0x22#8 0x11#8 = some (.framePeer 0x04#8) := by decide

/-- R81, R95: no role magic, the magic written big-endian, an unassigned code. -/
theorem test_decode_noFrame :
    readHeader 0x00#8 0x33#8 0x22#8 0x10#8 = none ∧ readHeader 0x33#8 0x22#8 0x11#8 0x00#8 = none ∧
    readHeader 0x07#8 0x11#8 0x22#8 0x33#8 = none ∧ readHeader 0xFE#8 0x11#8 0x22#8 0x33#8 = none := by decide

/-- V1, V31, V50, S7: the numbers of the opcode table. -/
theorem test_tableWords :
    decodeTableWord 16 0x8000 = some (.encCmdHdr 0x80#8) ∧ decodeTableWord 16 0x0305 = some (.sendCmd 0x03#8) ∧
    decodeTableWord 16 0x000E = none ∧ decodeTableWord 32 0x11223304 = some (.framePeer 0x04#8) ∧
    decodeTableWord 32 0x33221106 = some .frameGetVersion := by decide

/-! ## One step -/

/-- The state a step goes on to has a property. -/
def goesOn (r : Result) (p : State → Bool) : Bool :=
  match r with
  | .next t => p t
  | _ => false

/-- A step is refused. -/
def isRefused (r : Result) : Bool :=
  match r with
  | .refused _ => true
  | _ => false

/-- A step faults. -/
def isFault (r : Result) : Bool :=
  match r with
  | .fault _ => true
  | _ => false

/-- A send in flight with its frame in `BUF`. -/
def sending (op : BitVec 4) (frame : List Byte) (cnt : Nat) (pend : Bool) : State :=
  { State.reset with status := .busy, op, argSize := 1, len := frame.length, cnt, pend, buf := Memory.ofBytes frame }

/-- A receive of `len` bytes in flight that has got these. -/
def receiving (op : BitVec 4) (size len : Nat) (got : List Byte) (pend : Bool) : State :=
  { State.reset with
    status := .busy, op, argSize := size, len, cnt := got.length, pend, buf := Memory.ofBytes got, rxs := got }

/-- The next turn, and what the host and the transport do next. -/
def State.facing (s : State) (ts : List Turn) (h : List HostAct) (x : List TransportAct) : State :=
  ((s.setTurns ts).setHostIn h).setTransportIn x

/-- V1. -/
theorem test_encCmdHdr :
    goesOn (exec (.encCmdHdr 0x06#8) State.reset) (fun t => decide (t.status = .doneOk ∧
      t.resHdr = ⟨0x06#8, 0x11#8, 0x22#8, 0x33#8⟩ ∧ t.len = 0 ∧ t.cnt = 0 ∧ t.txs = [] ∧ t.rxs = [])) = true := by decide

/-- V2: no carry into byte 1. -/
theorem test_encCmdHdr_ff :
    goesOn (exec (.encCmdHdr 0xFF#8) State.reset)
      (fun t => decide (t.resHdr = ⟨0xFF#8, 0x11#8, 0x22#8, 0x33#8⟩)) = true := by decide

/-- V4. -/
theorem test_encBufHdr :
    goesOn (exec .encBufHdr State.reset)
      (fun t => decide (t.resHdr = ⟨0x00#8, 0x11#8, 0x22#8, 0x33#8⟩ ∧ t.valid.hdr = true)) = true := by decide

/-- V6. -/
theorem test_decValHdr :
    goesOn (exec (.decValHdr ⟨0xFF#8, 0x33#8, 0x22#8, 0x11#8⟩ .peer) State.reset)
      (fun t => decide (t.status = .doneOk ∧ t.resLow = 0xFF#8 ∧ t.valid.low = true)) = true := by decide

/-- V10g: the magic written big-endian. -/
theorem test_decValHdr_mismatch :
    goesOn (exec (.decValHdr ⟨0x11#8, 0x22#8, 0x33#8, 0x00#8⟩ .peer) State.reset)
      (fun t => decide (t.status = .errProtocol ∧ t.errObs = 0x003322#24 ∧ t.errExp = 0x112233#24 ∧
        t.valid.low = false)) = true := by decide

/-- V11: the second answer of `[2, 1]`. -/
theorem test_relSend :
    goesOn (step (State.facing { sending 0x3#4 [0xAA#8, 0xBB#8, 0xCC#8] 2 true with txs := [0xAA#8, 0xBB#8] } [] []
      [.progress 1 []])) (fun t => decide (t.txs = [0xAA#8, 0xBB#8, 0xCC#8] ∧ t.cnt = 3 ∧ t.pend = false)) = true := by
  decide

/-- V13: a negative progress is not added to `CNT`. -/
theorem test_relSend_negative :
    goesOn (step (State.facing (sending 0x3#4 [0xAA#8, 0xBB#8, 0xCC#8] 0 true) [] [] [.progress (-1) []]))
      (fun t => decide (t.status = .errTransport ∧ t.cnt = 0 ∧ t.txs = [])) = true := by decide

/-- V16: the second answer of `[1, 3]`. -/
theorem test_relRecv :
    goesOn (step (State.facing (receiving 0x4#4 4 4 [0x01#8] true) [] [] [.progress 3 [0x33#8, 0x22#8, 0x11#8]]))
      (fun t => decide (t.rxs = [0x01#8, 0x33#8, 0x22#8, 0x11#8] ∧
        t.buf.readBytes 0 4 = some [0x01#8, 0x33#8, 0x22#8, 0x11#8] ∧ t.cnt = 4)) = true := by decide

/-- V19a: an answer of 4 to a count of 3 is no step. -/
theorem test_relRecv_tooMuch :
    isRefused (step (State.facing (receiving 0x4#4 3 3 [] true) [] []
      [.progress 4 [0x01#8, 0x02#8, 0x03#8, 0x04#8]])) = true := by decide

/-- V31: the acceptance. -/
theorem test_sendCmd :
    goesOn (exec (.sendCmd 0x06#8) State.reset) (fun t => decide (t.status = .busy ∧ t.len = 4 ∧ t.cnt = 0 ∧
      t.buf.readBytes 0 4 = some [0x06#8, 0x11#8, 0x22#8, 0x33#8])) = true := by decide

/-- V33: a quarter of a header stays sent. -/
theorem test_sendCmd_closed :
    goesOn (step (State.facing { sending 0x5#4 [0x03#8, 0x11#8, 0x22#8, 0x33#8] 1 true with txs := [0x03#8] } [] []
      [.progress 0 []])) (fun t => decide (t.txs = [0x03#8] ∧ t.cnt = 1 ∧ t.status = .errTransport)) = true := by decide

/-- V22: the low byte is ignored. -/
theorem test_recvConfirm :
    goesOn (exec .recvConfirm (receiving 0x6#4 0 4 [0xFF#8, 0x33#8, 0x22#8, 0x11#8] false))
      (fun t => decide (t.status = .doneOk ∧ t.valid = ValidBits.none)) = true := by decide

/-- V24: one wrong bit in the last byte. -/
theorem test_recvConfirm_mismatch :
    goesOn (exec .recvConfirm (receiving 0x6#4 0 4 [0x00#8, 0x33#8, 0x22#8, 0x10#8] false))
      (fun t => decide (t.status = .errProtocol ∧ t.errObs = 0x102233#24 ∧ t.errExp = 0x112233#24)) = true := by decide

/-- V26: the finish; the window begins after the header. -/
theorem test_recvBuf :
    goesOn (exec (.recvBuf 2) (receiving 0x7#4 2 6 [0x00#8, 0x33#8, 0x22#8, 0x11#8, 0xBE#8, 0xEF#8] false))
      (fun t => decide (t.hostRead .resData = .ok (.data [0xBE#8, 0xEF#8]) ∧ t.valid.low = false)) = true := by decide

/-- V52. -/
theorem test_recvBuf_oversize : exec (.recvBuf (Config.maxPayload + 1)) State.reset =
    .refused (.oversizePayload (Config.maxPayload + 1)) := by
  rw [exec, execRecvBuf, transferStep_of_not_busy (by decide), acceptSized_of_lt (by omega)]

/-- V35: the frame. -/
theorem test_sendBuf :
    goesOn (exec (.sendBuf [0xDE#8, 0xAD#8]) State.reset) (fun t => decide (t.len = 6 ∧ t.argSize = 2 ∧
      t.buf.readBytes 0 6 = some [0x00#8, 0x11#8, 0x22#8, 0x33#8, 0xDE#8, 0xAD#8])) = true := by decide

/-- V37: the frame. -/
theorem test_sendU64 :
    goesOn (exec (.sendU64 0x0123456789ABCDEF#64) State.reset) (fun t => decide (t.len = 12 ∧
      t.buf.readBytes 0 12 = some [0x00#8, 0x11#8, 0x22#8, 0x33#8, 0xEF#8, 0xCD#8, 0xAB#8, 0x89#8, 0x67#8, 0x45#8,
        0x23#8, 0x01#8])) = true := by decide

/-- V41. -/
theorem test_recvI32 :
    goesOn (exec .recvI32 (receiving 0xA#4 0 8 [0x00#8, 0x33#8, 0x22#8, 0x11#8, 0x00#8, 0x00#8, 0x00#8, 0x80#8] false))
      (fun t => decide (t.hostRead .resI32 = .ok (.signed (-2147483648)))) = true := by decide

/-- V43. -/
theorem test_recvI32_mismatch :
    goesOn (exec .recvI32 (receiving 0xA#4 0 8 [0x00#8, 0x11#8, 0x22#8, 0x33#8, 0x01#8, 0x00#8, 0x00#8, 0x00#8] false))
      (fun t => decide (t.errObs = 0x332211#24 ∧ t.valid.i32 = false ∧ t.cnt = 8)) = true := by decide

/-- V45: unsigned. -/
theorem test_recvU64 :
    goesOn (exec .recvU64 (receiving 0xB#4 0 12 ([0x00#8, 0x33#8, 0x22#8, 0x11#8] ++ List.replicate 7 0x00#8 ++ [0x80#8])
      false)) (fun t => decide (t.resU64 = 9223372036854775808#64)) = true := by decide

/-- V46: every byte but zero is true. -/
theorem test_recvBool :
    goesOn (exec .recvBool (receiving 0xC#4 0 5 [0x00#8, 0x33#8, 0x22#8, 0x11#8, 0x80#8] false))
      (fun t => decide (t.hostRead .resBool = .ok (.truth true))) = true ∧
    goesOn (exec .recvBool (receiving 0xC#4 0 5 [0x00#8, 0x33#8, 0x22#8, 0x11#8, 0x00#8] false))
      (fun t => decide (t.hostRead .resBool = .ok (.truth false))) = true := by decide

/-- P1: the header of `SEND_CMD GetVersion` leaves whole. -/
theorem test_frameGetVersion :
    goesOn (step (State.facing (sending 0x5#4 [0x06#8, 0x11#8, 0x22#8, 0x33#8] 0 true) [] []
      [.header ⟨0x06#8, 0x11#8, 0x22#8, 0x33#8⟩]))
      (fun t => decide (t.txs = [0x06#8, 0x11#8, 0x22#8, 0x33#8] ∧ t.cnt = 4)) = true := by decide

/-- S7: a peer's header of low byte 4 reaches the receive. -/
theorem test_framePeer :
    goesOn (step (State.facing (receiving 0xA#4 0 8 [] true) [] [] [.header ⟨0x04#8, 0x33#8, 0x22#8, 0x11#8⟩]))
      (fun t => decide (t.buf.readBytes 0 4 = some [0x04#8, 0x33#8, 0x22#8, 0x11#8] ∧ t.cnt = 4 ∧ t.status = .busy)) =
      true := by decide

/-- V55: reset of a blocked send. -/
theorem test_reset :
    goesOn (step ({ sending 0x3#4 [0xAA#8, 0xBB#8, 0xCC#8] 2 true with txs := [0xAA#8, 0xBB#8] }.setTurns [.reset]))
      (fun t => decide (t.status = .idle ∧ t.pend = false ∧ t.len = 0 ∧ t.cnt = 0 ∧ t.valid = ValidBits.none ∧
        t.txs = [0xAA#8, 0xBB#8] ∧ t.orphans = [.tx [0xCC#8]])) = true := by decide

/-- R29, U7: a register that is not valid is not read. -/
theorem test_invalidRead : isFault (step (State.facing State.reset [.host] [.read .resHdr] [])) = true := by decide


/-! ## A state for the hypotheses of every statement -/

/-- `MAX_PAYLOAD` bytes of zero. -/
def longest : List Byte := List.replicate Config.maxPayload 0x00#8

theorem longest_length : longest.length = Config.maxPayload := List.length_replicate

theorem fits {n : Nat} (h : fitsBuf n = true) : n ≤ Config.bufCapacity := (fitsBuf_iff n).mp h

/-- The command header of code 6. -/
def header6 : List Byte := [0x06#8, 0x11#8, 0x22#8, 0x33#8]

/-- A peer's header. -/
def peerHeader : List Byte := [0x04#8, 0x33#8, 0x22#8, 0x11#8]

/-- A request for nothing but its operation. -/
def bare (w : BitVec 16) : Request := ⟨w, Quad.zero, 0, [], 0#64⟩

theorem test_witness_ResetPutsFhcAtItsResetValues :
    ((sending 0x5#4 header6 1 true).setTurns [.reset]).turns = .reset :: [] ∧
    decodeRequest (bare 0x0600#16) = .ok (.encCmdHdr 0x06#8) := ⟨rfl, rfl⟩

theorem test_witness_ResetOrphansTheOutstandingSend : ∀ k, k = 0 ∨ k = 3 →
    let s := State.facing (sending 0x5#4 header6 1 true) [.reset, .transport] [] [.late 0 k []]
    s.turns = .reset :: .transport :: [] ∧ s.pend = true ∧ s.dir = some .tx ∧
    s.buf.readBytes s.cnt (s.len - s.cnt) = some [0x11#8, 0x22#8, 0x33#8] ∧ s.orphans = [] ∧
    s.transportIn = .late 0 k [] :: [] ∧ k ≤ [0x11#8, 0x22#8, 0x33#8].length := by
  rintro k (rfl | rfl) <;> exact ⟨rfl, rfl, rfl, rfl, rfl, rfl, by decide⟩

/-- None, and all, of the bytes the orphaned receive still asks. -/
theorem test_witness_ResetOrphansTheOutstandingReceive : ∀ data : List Byte, data = [] ∨ data = [0x22#8, 0x11#8] →
    let s := State.facing (receiving 0x6#4 0 4 [0x04#8, 0x33#8] true) [.reset, .transport] [] [.late 0 data.length data]
    s.turns = .reset :: .transport :: [] ∧ s.pend = true ∧ s.dir = some .rx ∧
    s.transportIn = .late s.orphans.length data.length data :: [] ∧ data.length ≤ s.len - s.cnt := by
  rintro data (rfl | rfl) <;> exact ⟨rfl, rfl, rfl, rfl, by decide⟩

/-- A receive in flight after two resets have orphaned a send and a receive. -/
def afterTwoResets (w k : Nat) (data : List Byte) : State :=
  State.facing { receiving 0x6#4 0 4 [0x04#8] true with orphans := [.tx [0xAA#8, 0xBB#8], .rx 2] } [.transport] []
    [.late w k data]

/-- Each clause at the ends of its range. -/
theorem test_witness_LateMovesTouchNothingOfFhc :
    (∀ w k data, (afterTwoResets w k data).turns = .transport :: [] ∧
      (afterTwoResets w k data).transportIn = .late w k data :: [] ∧
      (afterTwoResets w k data).orphans[0]? = some (.tx [0xAA#8, 0xBB#8]) ∧
      (afterTwoResets w k data).orphans[1]? = some (.rx 2) ∧ (afterTwoResets w k data).orphans.length ≤ 2) ∧
    2 ≤ [0xAA#8, 0xBB#8].length ∧ [0xAA#8, 0xBB#8].length < 3 ∧ [0xCC#8, 0xDD#8].length = 2 ∧ [0xCC#8].length ≠ 2 :=
  ⟨fun _ _ _ => ⟨rfl, rfl, rfl, rfl, Nat.le_refl 2⟩, by decide⟩

/-- R34, R231: a late byte of an orphaned receive is lost; it joins neither `RXS` nor the receive in flight. -/
theorem test_late_receive_is_lost :
    goesOn (step (afterTwoResets 1 1 [0xCC#8])) (fun t => decide (t.rxLost = [0xCC#8] ∧ t.rxs = [0x04#8] ∧
      t.buf.readBytes 0 1 = some [0x04#8] ∧ t.pend = true ∧ t.orphans = [.tx [0xAA#8, 0xBB#8], .rx 1])) = true := by
  decide

/-- A late byte of an orphaned send is accepted, and another operation goes on undisturbed (U10). -/
theorem test_late_send_is_accepted :
    goesOn (step (afterTwoResets 0 2 [])) (fun t => decide (t.txs = [0xAA#8, 0xBB#8] ∧ t.cnt = 1 ∧
      t.orphans = [.tx [], .rx 2])) = true := by decide

theorem test_witness_DecodeOfEncodeIsTheInstruction :
    (Instr.sendBuf longest).wellFormed = true ∧ (Instr.recvBuf Config.maxPayload).wellFormed = true ∧
    (Instr.framePeer 0xFF#8).wellFormed = true := by
  simp [Instr.wellFormed, longest_length]

/-- For each clause a word with every ignored bit set; for the last one both ends of its range. -/
theorem test_witness_ControlWordNamesItsOperation :
    (∀ n : Fin 13, BitVec.ofNat 16 (0xFF10 + n) &&& 0x00EF#16 = BitVec.ofNat 16 n) ∧
    0x000D#16 ≤ 0xFF1D#16 &&& 0x00EF#16 ∧ 0x000D#16 ≤ 0xFFFF#16 &&& 0x00EF#16 := by decide

theorem test_witness_MalformedRequestsAreRefused :
    (let s := State.facing State.reset [.host] [.request (bare 0x000D#16)] [];
      s.turns = .host :: [] ∧ s.hostIn = .request (bare 0x000D#16) :: [] ∧ s.status ≠ .busy ∧
      0x000D#16 ≤ (bare 0x000D#16).word &&& 0x00EF#16) ∧
    (let q : Request := ⟨0x0003#16, Quad.zero, Config.maxPayload + 1, 0x00#8 :: longest, 0#64⟩;
      Config.maxPayload < q.size ∧ (q.word &&& 0x00EF#16 = 0x0003#16 ∨ q.word &&& 0x00EF#16 = 0x0008#16) ∧
      q.data.length = q.size) ∧
    (let q : Request := ⟨0x0007#16, Quad.zero, Config.maxPayload + 1, [], 0#64⟩;
      Config.maxPayload < q.size ∧ q.word &&& 0x00EF#16 = 0x0007#16) ∧
    (let q : Request := ⟨0x0008#16, Quad.zero, 1, [], 0#64⟩;
      q.word &&& 0x00EF#16 = 0x0008#16 ∧ q.data.length ≠ q.size ∧ decodeRequest q = .error .dataNotSizeBytes) ∧
    decodeRequest (bare 0x000D#16) = .error .reservedOpsel :=
  ⟨⟨rfl, rfl, nofun, by decide⟩, ⟨Nat.lt_succ_self _, .inl (by decide), by simp [longest_length]⟩,
    ⟨Nat.lt_succ_self _, by decide⟩, ⟨by decide, nofun, rfl⟩, rfl⟩

theorem test_witness_StepRunsTheDecodedRequest :
    (let s := State.facing State.reset [.host] [.request (bare 0x0605#16)] [];
      s.hostIn = .request (bare 0x0605#16) :: [] ∧ s.status ≠ .busy ∧
      decodeRequest (bare 0x0605#16) = .ok (.sendCmd 0x06#8) ∧ s.turns = .host :: []) ∧
    (let s := State.facing State.reset [] [.request (bare 0x0605#16)] [.progress 4 []];
      s.hostIn = .request (bare 0x0605#16) :: [] ∧ s.status ≠ .busy ∧
      decodeRequest (bare 0x0605#16) = .ok (.sendCmd 0x06#8) ∧ s.turns = [] ∧ s.transportReady = false) :=
  ⟨⟨rfl, nofun, rfl, rfl⟩, rfl, nofun, rfl, rfl, rfl⟩

theorem test_witness_StepRunsTheDecodedHeader :
    let q : Quad := ⟨0x06#8, 0x11#8, 0x22#8, 0x33#8⟩
    let s := State.facing (sending 0x5#4 header6 0 true) [.transport] [] [.header q]
    s.turns = .transport :: [] ∧ s.transportIn = .header q :: [] ∧ s.pend = true ∧
    decodeHeader q = .ok .frameGetVersion := ⟨rfl, rfl, rfl, rfl⟩

theorem test_witness_StepRunsTheOperationInFlight :
    (let s := (sending 0x5#4 header6 0 false).setTurns [.fhc];
      s.status = .busy ∧ s.op = Op.sendCmd.code ∧ s.turns = .fhc :: []) ∧
    (let s := sending 0x5#4 header6 4 false;
      s.status = .busy ∧ s.op = Op.sendCmd.code ∧ s.turns = [] ∧ s.pend = false ∧ s.cnt ≤ s.len) :=
  ⟨⟨rfl, rfl, rfl⟩, rfl, rfl, rfl, rfl, by decide⟩

theorem test_witness_RequestWaitsWhileBusy :
    let s := State.facing (sending 0x5#4 header6 1 true) [.host] [.request (bare 0x0001#16)] []
    s.turns = .host :: [] ∧ s.hostIn = .request (bare 0x0001#16) :: [] ∧ s.status = .busy := ⟨rfl, rfl, rfl⟩

/-- Of `EncCmdHdrGivesTheCommandHeader`, `EncBufHdrGivesTheBufferHeader`, `EncodedHeaderDecodesUnderClientOnly` and
`SendU64IsSendBufOfItsBytes`: a state with nothing in flight; and the control words of the first two. -/
theorem test_witness_NothingInFlight : State.reset.status ≠ .busy ∧ 0xFF10#16 &&& 0x00EF#16 = 0x0000#16 ∧
    0xAB01#16 &&& 0x00EF#16 = 0x0001#16 := by decide

theorem test_witness_DecValHdrAcceptsOrRecordsTheMismatch :
    State.reset.status ≠ .busy ∧ 0xFF12#16 &&& 0x00EF#16 = 0x0002#16 ∧
    ((0x33#8, 0x22#8, 0x11#8) : Byte × Byte × Byte) = (0x33#8, 0x22#8, 0x11#8) ∧
    ((0x33#8, 0x22#8, 0x10#8) : Byte × Byte × Byte) ≠ (0x33#8, 0x22#8, 0x11#8) ∧
    ((0x33#8, 0x22#8, 0x11#8) : Byte × Byte × Byte) ≠ (0x11#8, 0x22#8, 0x33#8) := by decide

theorem test_witness_ExpectedLowByteRejectsEveryHeader : lowByte 0x11223301#32 ≠ 0x00#8 := by decide

theorem test_witness_SendAcceptanceBuildsTheWholeFrame :
    State.reset.status ≠ .busy ∧ ([] : List Byte).length ≤ Config.maxPayload ∧ longest.length ≤ Config.maxPayload :=
  ⟨nofun, Nat.zero_le _, Nat.le_of_eq longest_length⟩

theorem test_witness_ReceiveAcceptanceAwaitsTheWholeFrame :
    State.reset.status ≠ .busy ∧ 0 ≤ Config.maxPayload ∧ Config.maxPayload ≤ Config.maxPayload :=
  ⟨nofun, Nat.zero_le _, Nat.le_refl _⟩

/-- R20: after a `SEND_CMD` a receive is accepted, and `ARG_CODE` does not say which command was sent last. -/
theorem test_no_record_of_the_last_command :
    goesOn (exec .recvConfirm { sending 0x5#4 header6 4 false with status := .doneOk, argCode := 0x06#8 })
      (fun t => decide (t.status = .busy ∧ t.argCode = State.reset.argCode ∧ t.argSize = State.reset.argSize)) = true := by
  decide

/-- Two states that earlier operations left different, a request they both accept, and the states that leaves. -/
theorem test_witness_AcceptanceReinitialisesTheRegisters :
    let a := { sending 0x5#4 header6 4 false with status := .doneOk, argCode := 0x06#8 }
    a ≠ State.reset ∧ a.status ≠ .busy ∧ State.reset.status ≠ .busy ∧
    decodeRequest (bare 0x0006#16) = .ok .recvConfirm ∧
    (∃ t, exec .recvConfirm a = .next t) ∧ ∃ t, exec .recvConfirm State.reset = .next t :=
  ⟨by decide, nofun, nofun, rfl, ⟨_, rfl⟩, _, rfl⟩

/-- One state for each of the ten selectors, one byte short of its length. -/
theorem test_witness_IssueStepSetsOnlyPend : ∀ n : Fin 10,
    let s := receiving (BitVec.ofNat 4 (n + 3)) 0 4 [0x00#8, 0x33#8, 0x22#8] false
    s.status = .busy ∧ s.pend = false ∧ s.cnt < s.len ∧ s.op = BitVec.ofNat 4 (n + 3) :=
  fun _ => ⟨rfl, rfl, (by decide : 3 < 4), rfl⟩

/-- Answers of 1 and of all that remains; of 0 and of -1; of one more than remains. -/
theorem test_witness_AnswerStepForASend : ∀ r : Int, r = 1 ∨ r = 3 ∨ r = 0 ∨ r = -1 ∨ r = 4 →
    let s := State.facing (sending 0x5#4 header6 1 true) [.transport] [] [.progress r []]
    s.turns = .transport :: [] ∧ s.transportIn = .progress r [] :: [] ∧ s.pend = true ∧ s.dir = some .tx ∧
    s.len ≤ Config.bufCapacity ∧
    (1 ≤ r ∧ r ≤ ((s.len - s.cnt : Nat) : Int) ∧ (s.buf.readBytes s.cnt r.toNat).isSome = true ∨ r ≤ 0 ∨
      ((s.len - s.cnt : Nat) : Int) < r ∧ 1 ≤ r) := by
  rintro r (rfl | rfl | rfl | rfl | rfl) <;> exact ⟨rfl, rfl, rfl, rfl, fits rfl, by decide⟩

/-- The same, and an answer of 3 that comes with two bytes. -/
theorem test_witness_AnswerStepForAReceive : ∀ r : Int, ∀ d : List Byte,
    (r, d) = (1, [0x33#8]) ∨ (r, d) = (3, [0x33#8, 0x22#8, 0x11#8]) ∨ (r, d) = (0, []) ∨ (r, d) = (-1, []) ∨
      (r, d) = (4, [0x33#8, 0x22#8, 0x11#8, 0x00#8]) ∨ (r, d) = (3, [0x33#8, 0x22#8]) →
    let s := State.facing (receiving 0x6#4 0 4 [0x04#8] true) [.transport] [] [.progress r d]
    s.turns = .transport :: [] ∧ s.transportIn = .progress r d :: [] ∧ s.pend = true ∧ s.dir = some .rx ∧
    s.len ≤ Config.bufCapacity ∧
    (1 ≤ r ∧ r ≤ ((s.len - s.cnt : Nat) : Int) ∧ (d.length : Int) = r ∨ r ≤ 0 ∨
      1 ≤ r ∧ (((s.len - s.cnt : Nat) : Int) < r ∨ (d.length : Int) ≠ r)) := by
  rintro r d (h | h | h | h | h | h) <;> cases h <;> exact ⟨rfl, rfl, rfl, rfl, fits rfl, by decide⟩

/-- A send in flight meets the invariants, from its first byte to its last. -/
theorem sending_invariants (cnt : Nat) (h : cnt ≤ 4) (pend : Bool) (hp : pend = true → cnt < 4) :
    Invariants (sending 0x5#4 header6 cnt pend) where
  cnt_le_len := h
  len_le_capacity := fits rfl
  pend_busy := fun h => ⟨rfl, hp h⟩
  busy_op := fun _ => ⟨.sendCmd, rfl, nofun, rfl⟩
  valid_done := nofun
  buf_wf := rfl
  buf_capacity := fun c hc =>
    Nat.lt_of_lt_of_le ((by decide : ∀ c ∈ Memory.ofBytes header6, c.1 < 4) c hc) (fits rfl)
  send_frame := fun _ _ => rfl
  receive_bytes := nofun
  receive_tail := nofun
  window_readable := nofun

/-- So does a receive in flight that has got a peer's header. -/
theorem receiving_invariants : Invariants (receiving 0x6#4 0 4 peerHeader false) where
  cnt_le_len := Nat.le_refl 4
  len_le_capacity := fits rfl
  pend_busy := nofun
  busy_op := fun _ => ⟨.recvConfirm, rfl, nofun, rfl⟩
  valid_done := nofun
  buf_wf := rfl
  buf_capacity := fun c hc =>
    Nat.lt_of_lt_of_le ((by decide : ∀ c ∈ Memory.ofBytes peerHeader, c.1 < 4) c hc) (fits rfl)
  send_frame := nofun
  receive_bytes := fun _ _ => rfl
  receive_tail := fun _ _ => ⟨[], peerHeader, rfl, rfl, rfl⟩
  window_readable := nofun

/-- And one that has got nothing yet. -/
theorem receivingNothing_invariants (x : List TransportAct) :
    Invariants ((receiving 0x6#4 0 4 [] false).setTransportIn x) where
  cnt_le_len := Nat.zero_le 4
  len_le_capacity := fits rfl
  pend_busy := nofun
  busy_op := fun _ => ⟨.recvConfirm, rfl, nofun, rfl⟩
  valid_done := nofun
  buf_wf := rfl
  buf_capacity := nofun
  send_frame := nofun
  receive_bytes := fun _ _ => rfl
  receive_tail := fun _ _ => ⟨[], [], rfl, rfl, rfl⟩
  window_readable := nofun

/-- The turns and the agents' inputs are no part of the invariants. -/
theorem facing_invariants {s : State} (h : Invariants s) (ts : List Turn) (a : List HostAct) (x : List TransportAct) :
    Invariants (State.facing s ts a x) :=
  ⟨h.1, h.2, h.3, h.4, h.5, h.6, h.7, h.8, h.9, h.10, h.11⟩

theorem test_witness_FhcIsNeverStuck :
    (let s := State.facing (sending 0x5#4 header6 3 false) [.fhc] [] [];
      Invariants s ∧ s.status = .busy ∧ s.pend = false ∧ s.turns = .fhc :: []) ∧
    (let s := State.facing (receiving 0x6#4 0 4 peerHeader false) [.fhc] [] [];
      Invariants s ∧ s.status = .busy ∧ s.pend = false ∧ s.turns = .fhc :: []) :=
  ⟨⟨facing_invariants (sending_invariants 3 (by decide) false nofun) .., rfl, rfl, rfl⟩,
    facing_invariants receiving_invariants .., rfl, rfl, rfl⟩

theorem test_witness_SendsAndRelRecvFinishDoneOk : ∀ op : BitVec 4,
    let s := sending op header6 4 false
    s.status = .busy ∧ s.pend = false ∧ s.cnt = s.len ∧ s.op = op := fun _ => ⟨rfl, rfl, rfl, rfl⟩

/-- For each of the five receives its whole frame. -/
theorem test_witness_ReceivesDeliverTheirResults :
    ∀ c ∈ ([(0x6#4, 0, []), (0x7#4, 0, []), (0x7#4, 2, [0xBE#8, 0xEF#8]), (0xA#4, 0, List.replicate 4 0x01#8),
      (0xC#4, 0, [0xFF#8]), (0xB#4, 0, 0x01#8 :: List.replicate 7 0x80#8)] : List (BitVec 4 × Nat × List Byte)),
    let (op, size, payload) := c
    let s := receiving op size (4 + payload.length) (peerHeader ++ payload) false
    s.status = .busy ∧ s.pend = false ∧ s.cnt = s.len ∧ s.len ≤ Config.bufCapacity ∧ s.op = op ∧
    s.len = 4 + payload.length ∧ (s.op = 0x7#4 → s.len = 4 + s.argSize) ∧
    s.buf.readBytes 0 s.len = some (peerHeader ++ payload) := by
  intro c h
  fin_cases h <;> exact ⟨rfl, rfl, rfl, fits rfl, rfl, rfl, by decide, rfl⟩

/-- For each of the five receives a whole frame under the client's magic. -/
theorem test_witness_ReceivesTakeTheProtocolError :
    ∀ c ∈ ([(0x6#4, .recvConfirm, []), (0x7#4, .recvBuf 1, [0x00#8]), (0xC#4, .recvBool, [0x00#8]),
      (0xA#4, .recvI32, List.replicate 4 0x00#8), (0xB#4, .recvU64, List.replicate 8 0x00#8)] :
        List (BitVec 4 × Instr × List Byte)),
    let (op, i, payload) := c
    let s := receiving op 1 (4 + payload.length) (header6 ++ payload) false
    s.status = .busy ∧ s.pend = false ∧ s.cnt = s.len ∧ s.len ≤ Config.bufCapacity ∧ s.len = 4 + payload.length ∧
    s.buf.readBytes 0 s.len = some ([0x06#8, 0x11#8, 0x22#8, 0x33#8] ++ payload) ∧
    ¬ (0x11#8 = 0x33#8 ∧ 0x22#8 = 0x22#8 ∧ 0x33#8 = 0x11#8) ∧
    (s.op = 0x6#4 ∧ i = .recvConfirm ∨ s.op = 0x7#4 ∧ i = .recvBuf 1 ∨ s.op = 0xA#4 ∧ i = .recvI32 ∧ s.len = 8 ∨
      s.op = 0xB#4 ∧ i = .recvU64 ∧ s.len = 12 ∨ s.op = 0xC#4 ∧ i = .recvBool ∧ s.len = 5) := by
  intro c h
  fin_cases h <;> exact ⟨rfl, rfl, rfl, fits rfl, rfl, rfl, by decide, by decide⟩

theorem test_witness_ZeroLengthTouchesNoTransport :
    (let s := State.facing State.reset [.host, .fhc] [.request (bare 0x0003#16)] [.progress 0 []];
      s.status ≠ .busy ∧ s.turns = .host :: .fhc :: [] ∧ s.hostIn = .request (bare 0x0003#16) :: [] ∧
      decodeRequest (bare 0x0003#16) = .ok (.relSend [])) ∧
    decodeRequest (bare 0x0004#16) = .ok (.relRecv 0) := ⟨⟨nofun, rfl, rfl, rfl⟩, rfl⟩

theorem test_witness_BlockedAttemptStaysBlocked :
    let s := (sending 0x3#4 header6 2 true).setTurns [.fhc, .transport, .host]
    s.status = .busy ∧ s.pend = true ∧ s.transportIn = [] ∧ s.hostIn = [] ∧ .reset ∉ s.turns :=
  ⟨rfl, rfl, rfl, rfl, by decide⟩

/-- A script that ends each of the three ways. -/
theorem test_witness_SendRunsAsTheFunctionSays : ∀ script : List Int,
    script = [1, 3] ∨ script = [1, 0] ∨ script = [1] →
    let s := (sending 0x5#4 header6 0 false).setTransportIn (script.map fun r => .progress r [])
    s.status = .busy ∧ s.pend = false ∧ s.dir = some .tx ∧ s.turns = [] ∧
    s.transportIn = script.map (fun r => TransportAct.progress r []) ∧ s.hostIn = [] ∧ s.cnt ≤ s.len ∧
    s.len ≤ Config.bufCapacity ∧ s.buf.readBytes 0 s.len = some header6 ∧
    (sendLoop s.len s.cnt script).1 ≠ .outsideContract := by
  rintro script (rfl | rfl | rfl) <;> exact ⟨rfl, rfl, rfl, rfl, rfl, rfl, by decide, fits rfl, rfl, by decide⟩

theorem test_witness_ReceiveRunsAsTheFunctionSays : ∀ script : List (Int × List Byte),
    script = [(1, [0x04#8]), (3, [0x33#8, 0x22#8, 0x11#8])] ∨ script = [(1, [0x04#8]), (0, [])] ∨ script = [] →
    let s := (receiving 0x6#4 0 4 [] false).setTransportIn (script.map fun a => .progress a.1 a.2)
    Invariants s ∧ s.status = .busy ∧ s.pend = false ∧ s.dir = some .rx ∧ s.turns = [] ∧ s.cnt = 0 ∧
    s.transportIn = script.map (fun a => TransportAct.progress a.1 a.2) ∧ s.hostIn = [] ∧
    (recvLoop s.len [] script).1 ≠ .outsideContract := by
  rintro script (rfl | rfl | rfl) <;>
    exact ⟨receivingNothing_invariants _, rfl, rfl, rfl, rfl, rfl, rfl, rfl, by decide⟩

/-- For each of the four sends a frame, cut in two. -/
theorem test_witness_FragmentationOfSendsDoesNotShow :
    ∀ c ∈ ([(full 0x0003#16, .relSend [0xDE#8, 0xAD#8], [0xDE#8, 0xAD#8]),
      (full 0x0605#16, .sendCmd 0x06#8, header6),
      (full 0x0008#16, .sendBuf [0xDE#8, 0xAD#8], [0x00#8, 0x11#8, 0x22#8, 0x33#8, 0xDE#8, 0xAD#8]),
      (full 0x0009#16, .sendU64 0x0123456789ABCDEF#64, [0x00#8, 0x11#8, 0x22#8, 0x33#8, 0xEF#8, 0xCD#8, 0xAB#8,
        0x89#8, 0x67#8, 0x45#8, 0x23#8, 0x01#8])] : List (Request × Instr × List Byte)),
    let (q, i, frame) := c
    let script : List Nat := [1, frame.length - 1]
    let s := State.facing State.reset [.host] [.request q] (script.map fun r => .progress (r : Int) [])
    s.status ≠ .busy ∧ s.turns = [.host] ∧ s.hostIn = [.request q] ∧ decodeRequest q = .ok i ∧
    ((i = .relSend frame ∧ frame.length ≤ Config.maxPayload) ∨
      (∃ code, i = .sendCmd code ∧ frame = [code, 0x11#8, 0x22#8, 0x33#8]) ∨
      (∃ data, i = .sendBuf data ∧ data.length ≤ Config.maxPayload ∧
        frame = [0x00#8, 0x11#8, 0x22#8, 0x33#8] ++ data) ∨
      (∃ v, i = .sendU64 v ∧
        frame = [0x00#8, 0x11#8, 0x22#8, 0x33#8] ++ (List.range 8).map fun j => v.extractLsb' (8 * j) 8)) ∧
    (∀ r ∈ script, 0 < r) ∧ script.sum = frame.length ∧
    s.transportIn = script.map (fun r => TransportAct.progress (r : Int) []) := by
  intro c h
  fin_cases h
  · exact ⟨nofun, rfl, rfl, rfl, .inl ⟨rfl, (fitsPayload_iff _).mp rfl⟩, by decide, rfl, rfl⟩
  · exact ⟨nofun, rfl, rfl, rfl, .inr (.inl ⟨_, rfl, rfl⟩), by decide, rfl, rfl⟩
  · exact ⟨nofun, rfl, rfl, rfl, .inr (.inr (.inl ⟨_, rfl, (fitsPayload_iff _).mp rfl, rfl⟩)), by decide, rfl, rfl⟩
  · exact ⟨nofun, rfl, rfl, rfl, .inr (.inr (.inr ⟨_, rfl, rfl⟩)), by decide, rfl, rfl⟩

/-- For each receive a stream of its frame, its header cut in two. -/
theorem test_witness_FragmentationOfReceivesDoesNotShow :
    ∀ c ∈ ([(full 0x0006#16, .recvConfirm, [], .status, .status 2#3),
      (full 0x0007#16, .recvBuf 2, [0xBE#8, 0xEF#8], .resData, .data [0xBE#8, 0xEF#8]),
      (full 0x000A#16, .recvI32, [0xFF#8, 0xFF#8, 0xFF#8, 0xFF#8], .resI32, .signed (-1)),
      (full 0x000B#16, .recvU64, 0x01#8 :: List.replicate 6 0x00#8 ++ [0x80#8], .resU64,
        .word64 0x8000000000000001#64),
      (full 0x000C#16, .recvBool, [0x02#8], .resBool, .truth true)] :
        List (Request × Instr × List Byte × HostReg × HostValue)),
    let (q, i, payload, reg, value) := c
    let pieces : List (List Byte) := [[0x04#8], [0x33#8, 0x22#8, 0x11#8] ++ payload]
    let s := State.facing State.reset [.host] [.request q] (pieces.map fun p => .progress (p.length : Int) p)
    s.status ≠ .busy ∧ s.turns = [.host] ∧ s.hostIn = [.request q] ∧ decodeRequest q = .ok i ∧
    (∀ p ∈ pieces, p ≠ []) ∧ s.transportIn = pieces.map (fun p => TransportAct.progress (p.length : Int) p) ∧
    pieces.flatten = [0x04#8, 0x33#8, 0x22#8, 0x11#8] ++ payload ∧
    ((i = .recvConfirm ∧ payload = [] ∧ reg = .status ∧ value = .status 2#3) ∨
      (i = .recvBuf payload.length ∧ payload.length ≤ Config.maxPayload ∧ reg = .resData ∧ value = .data payload) ∨
      (i = .recvI32 ∧ payload.length = 4 ∧ reg = .resI32 ∧ value = .signed (BitVec.ofNat 32 (le payload)).toInt) ∨
      (i = .recvU64 ∧ payload.length = 8 ∧ reg = .resU64 ∧ value = .word64 (BitVec.ofNat 64 (le payload))) ∨
      (∃ b, i = .recvBool ∧ payload = [b] ∧ reg = .resBool ∧ value = .truth (decide (b ≠ 0x00#8)))) := by
  intro c h
  fin_cases h <;> refine ⟨nofun, rfl, rfl, rfl, by decide, rfl, rfl, ?_⟩
  · exact .inl ⟨rfl, rfl, rfl, rfl⟩
  · exact .inr (.inl ⟨rfl, (fitsPayload_iff _).mp rfl, rfl, rfl⟩)
  · exact .inr (.inr (.inl ⟨rfl, rfl, rfl, by decide⟩))
  · exact .inr (.inr (.inr (.inl ⟨rfl, rfl, rfl, by decide⟩)))
  · exact .inr (.inr (.inr (.inr ⟨_, rfl, rfl, rfl, by decide⟩)))

/-- And `REL_RECV`, of whatever bytes. -/
theorem test_witness_FragmentationOfRelRecvDoesNotShow :
    let pieces : List (List Byte) := [[0xDE#8], [0xAD#8]]
    let s := State.facing State.reset [.host] [.request (full 0x0004#16)]
      (pieces.map fun p => .progress (p.length : Int) p)
    s.status ≠ .busy ∧ s.turns = [.host] ∧ s.hostIn = [.request (full 0x0004#16)] ∧
    decodeRequest (full 0x0004#16) = .ok (.relRecv pieces.flatten.length) ∧ (∀ p ∈ pieces, p ≠ []) ∧
    s.transportIn = pieces.map (fun p => TransportAct.progress (p.length : Int) p) ∧
    pieces.flatten.length ≤ Config.maxPayload :=
  ⟨nofun, rfl, rfl, rfl, by decide, rfl, (fitsPayload_iff _).mp rfl⟩

/-- For each of the eight codes a send that offers the header, with not a byte to spare. -/
theorem test_witness_CommandHeadersLeaveOnTheWire : ∀ code : Byte,
    let s := sending 0x5#4 [code, 0x11#8, 0x22#8, 0x33#8] 0 true
    s.pend = true ∧ s.dir = some .tx ∧ s.cnt + 4 ≤ s.len ∧ s.len ≤ Config.bufCapacity ∧
    s.buf.readBytes s.cnt 4 = some [code, 0x11#8, 0x22#8, 0x33#8] := fun _ => ⟨rfl, rfl, Nat.le_refl 4, fits rfl, rfl⟩

/-- With a header of no row at the transport's turn. -/
theorem test_witness_HeadersReachAReceiveUncompared :
    let q : Quad := ⟨0x04#8, 0x44#8, 0x55#8, 0x66#8⟩
    let s := State.facing (receiving 0x6#4 0 4 [] true) [.transport] [] [.header q]
    s.pend = true ∧ s.dir = some .rx ∧ s.cnt + 4 ≤ s.len ∧ s.len ≤ Config.bufCapacity ∧
    s.turns = .transport :: [] ∧ s.transportIn = .header ⟨0x04#8, 0x44#8, 0x55#8, 0x66#8⟩ :: [] ∧
    readHeader q.b0 q.b1 q.b2 q.b3 = none :=
  ⟨rfl, rfl, by decide, fits rfl, rfl, rfl, by decide⟩

/-- The clauses for a header of an unassigned client code (R95): no attempt; a send that offers it; one that offers
another; a receive with three bytes to go. -/
theorem test_witness_AnyHeaderAtTheTransportsTurn :
    let at_ (s : State) := State.facing s [.transport] [] [.header ⟨0x80#8, 0x11#8, 0x22#8, 0x33#8⟩]
    readHeader 0x80#8 0x11#8 0x22#8 0x33#8 = none ∧
    (∀ s, (at_ s).turns = .transport :: [] ∧
      (at_ s).transportIn = .header ⟨0x80#8, 0x11#8, 0x22#8, 0x33#8⟩ :: []) ∧
    (at_ State.reset).pend = false ∧
    (let s := at_ (sending 0x5#4 [0x80#8, 0x11#8, 0x22#8, 0x33#8] 0 true);
      s.pend = true ∧ s.dir = some .tx ∧ s.buf.readBytes s.cnt 4 = some [0x80#8, 0x11#8, 0x22#8, 0x33#8] ∧
      s.cnt + 4 ≤ s.len ∧ s.len ≤ Config.bufCapacity) ∧
    (let s := at_ (sending 0x5#4 header6 0 true);
      s.pend = true ∧ s.dir = some .tx ∧ s.buf.readBytes s.cnt 4 ≠ some [0x80#8, 0x11#8, 0x22#8, 0x33#8]) ∧
    (let s := at_ (receiving 0x6#4 0 4 [0x04#8] true); s.pend = true ∧ s.dir = some .rx ∧ s.len - s.cnt < 4) :=
  ⟨by decide, fun _ => ⟨rfl, rfl⟩, rfl, ⟨rfl, rfl, rfl, Nat.le_refl 4, fits rfl⟩, ⟨rfl, rfl, by decide⟩, rfl, rfl,
    by decide⟩

/-- R95, R169: a header with no row leaves on the wire like any other. -/
theorem test_header_without_a_row :
    goesOn (step (State.facing (sending 0x5#4 [0x80#8, 0x11#8, 0x22#8, 0x33#8] 0 true) [.transport] []
      [.header ⟨0x80#8, 0x11#8, 0x22#8, 0x33#8⟩])) (fun t =>
        decide (t.txs = [0x80#8, 0x11#8, 0x22#8, 0x33#8] ∧ t.pend = false)) = true := by decide

/-- The three clauses: no attempt; a send that offers another header; a receive with three bytes to go. -/
theorem test_witness_HeadersCrossOnlyAsAnswers :
    let q : Quad := ⟨0x04#8, 0x33#8, 0x22#8, 0x11#8⟩
    decodeHeader q = .ok (.framePeer 0x04#8) ∧ State.reset.pend = false ∧
    (let s := sending 0x5#4 header6 0 true;
      s.pend = true ∧ s.dir = some .tx ∧ s.buf.readBytes s.cnt 4 ≠ some q.toList) ∧
    (let s := receiving 0x6#4 0 4 [0x04#8] true;
      s.pend = true ∧ s.dir = some .rx ∧ s.len - s.cnt < 4) :=
  ⟨rfl, rfl, ⟨rfl, rfl, by decide⟩, rfl, rfl, by decide⟩

/-- A step that goes on from a state. -/
def follows (s : State) (p : State → Bool) : Prop := ∃ t, step s = .next t ∧ p t = true

theorem test_witness_ProtocolErrorOnlyAfterTheWholeFrame :
    (receiving 0x6#4 0 4 header6 false).status = .busy ∧
    follows (receiving 0x6#4 0 4 header6 false) (fun t => decide (t.status = .errProtocol)) :=
  ⟨rfl, _, rfl, by decide⟩

/-- By an answer that ends the attempt, by one that ends the operation, and by a reset. -/
theorem test_witness_OnlyAnAnswerOrResetEndsAnAttempt :
    (sending 0x5#4 header6 1 true).status = .busy ∧ (sending 0x5#4 header6 1 true).pend = true ∧
    follows ((sending 0x5#4 header6 1 true).setTransportIn [.progress 3 []]) (fun t => decide (t.pend = false)) ∧
    follows ((sending 0x5#4 header6 1 true).setTransportIn [.progress 0 []])
      (fun t => decide (t.status = .errTransport)) ∧
    follows ((sending 0x5#4 header6 1 true).setTurns [.reset]) (fun t => decide (t.status = .idle)) :=
  ⟨rfl, rfl, ⟨_, rfl, by decide⟩, ⟨_, rfl, by decide⟩, _, rfl, by decide⟩

theorem test_witness_StreamsOnlyGrow :
    follows ((sending 0x5#4 header6 1 true).setTransportIn [.progress 3 []])
      (fun t => decide (t.txs = [0x11#8, 0x22#8, 0x33#8])) := ⟨_, rfl, by decide⟩

theorem test_witness_OperationInFlightKeepsItsRequest :
    (receiving 0x6#4 0 4 [0x04#8] true).status = .busy ∧
    follows ((receiving 0x6#4 0 4 [0x04#8] true).setTransportIn [.progress 1 [0x33#8]])
      (fun t => decide (t.status = .busy)) ∧
    (sending 0x5#4 header6 1 true).dir = some .tx := ⟨rfl, ⟨_, rfl, by decide⟩, rfl⟩

theorem test_witness_ErrorRegistersChangeOnlyWithProtocolError :
    follows (receiving 0x6#4 0 4 header6 false) (fun t => decide (t.errObs ≠ 0#24)) := ⟨_, rfl, by decide⟩

/-- A state in which every register can be read but the error registers, and one in which those can. -/
def readable : State :=
  { State.reset with status := .doneOk, valid := ⟨true, true, true, true, true, true⟩ }

theorem readable_invariants (s : State) (h : s = readable ∨ s = { State.reset with status := .errProtocol }) :
    Invariants s := by
  rcases h with rfl | rfl <;>
    exact ⟨Nat.zero_le _, Nat.zero_le _, nofun, nofun, by decide, rfl, nofun, nofun, nofun, nofun, fun _ => ⟨[], rfl⟩⟩

/-- For each register a state it can be read in, and one it cannot be read in. -/
theorem test_witness_HostReadsOnlyWhatIsValid : ∀ reg : HostReg, ∃ ok no : State, Invariants ok ∧
    (ok.hostRead reg).isOk = true ∧ (reg = .status ∨ (no.hostRead reg).isOk = false) ∧
    (State.facing ok [.host] [.read reg] []).turns = .host :: [] ∧
    (State.facing ok [.host] [.read reg] []).hostIn = .read reg :: [] := by
  intro reg
  cases reg
  case errObs => exact ⟨_, State.reset, readable_invariants _ (.inr rfl), by decide, by decide, rfl, rfl⟩
  case errExp => exact ⟨_, State.reset, readable_invariants _ (.inr rfl), by decide, by decide, rfl, rfl⟩
  all_goals exact ⟨_, State.reset, readable_invariants _ (.inl rfl), by decide, by decide, rfl, rfl⟩

/-- Of `EveryStepKeepsTheInvariants` and `StopsOnlyAtTheBoundary`. -/
theorem test_witness_EveryStepKeepsTheInvariants :
    Invariants (sending 0x5#4 header6 3 false) ∧ follows (sending 0x5#4 header6 3 false) (fun t => t.pend) :=
  ⟨sending_invariants 3 (by decide) false nofun, _, rfl, rfl⟩

/-- Two machines that differ, in the middle of one receive. -/
theorem test_witness_AlikeMachinesStayAlike :
    let a := receiving 0x6#4 0 4 [0x04#8] true
    let b := { a with argCode := 0x06#8, argSize := 7, errObs := 0x332211#24, resI32 := 5#32 }
    a ≠ b ∧ Alike a b :=
  ⟨by decide, by constructor <;> first | rfl | exact fun _ => rfl | exact nofun⟩

/-- Two states that differ in every register an earlier operation leaves, before one request. -/
theorem test_witness_NoMemoryBetweenOperations :
    let a := State.facing readable [.host] [.request (bare 0x0605#16)] []
    let b := State.facing { sending 0x5#4 header6 1 false with status := .errTransport } [.host]
      [.request (bare 0x0605#16)] []
    a ≠ b ∧ a.status ≠ .busy ∧ b.status ≠ .busy ∧ decodeRequest (bare 0x0605#16) = .ok (.sendCmd 0x06#8) ∧
    a.hostIn = .request (bare 0x0605#16) :: [] ∧ b.hostIn = .request (bare 0x0605#16) :: [] ∧
    a.turns = .host :: [] ∧ b.turns = .host :: [] ∧ a.transportIn = b.transportIn ∧ a.orphans = b.orphans ∧
    a.txs = b.txs ∧ a.rxs = b.rxs :=
  ⟨by decide, nofun, nofun, rfl, rfl, rfl, rfl, rfl, rfl, rfl, rfl, rfl⟩

end Sys2Proof.Tests
end

/-! SUPPORT. Every step keeps the invariants of 10_state R34. -/

namespace Sys2Proof.Machine

/-! ### What the invariants rest on -/

/-- `Invariants` speaks of FHC's registers and of `RXS` alone: the agents' coming moves, `TXS` and what an orphan does
are free. -/
theorem Invariants.of_outside {s t : State} (hI : Invariants s)
    (h : t = { s with
      txs := t.txs, orphans := t.orphans, rxLost := t.rxLost, hostIn := t.hostIn, transportIn := t.transportIn,
      turns := t.turns, hostSaw := t.hostSaw }) : Invariants t := by
  rw [h]
  exact { hI with }

/-- With nothing in flight only the counts, the valid bits and the form of `BUF` are bound. -/
theorem invariants_of_not_busy {t : State} (hb : t.status ≠ .busy) (hp : t.pend = false) (hc : t.cnt ≤ t.len)
    (hl : t.len ≤ Config.bufCapacity) (hv : t.valid.any = true → t.status = .doneOk) (hw : t.buf.wf = true)
    (hcap : ∀ c ∈ t.buf, c.1 < Config.bufCapacity)
    (hwin : t.valid.data = true → ∃ bytes, t.bufLoad t.dataBase t.resLen = .ok bytes) : Invariants t where
  cnt_le_len := hc
  len_le_capacity := hl
  pend_busy := fun h => absurd (hp.symm.trans h) nofun
  busy_op := fun h => absurd h hb
  valid_done := hv
  buf_wf := hw
  buf_capacity := hcap
  send_frame := fun h => absurd h hb
  receive_bytes := fun h => absurd h hb
  receive_tail := fun h => absurd h hb
  window_readable := hwin

/-- While an operation is in flight no valid bit is 1 (R34). -/
theorem Invariants.valid_none_of_busy {s : State} (hI : Invariants s) (hb : s.status = .busy) : s.valid.any = false := by
  rcases h : s.valid.any with _ | _
  · rfl
  · exact absurd (hb.symm.trans (hI.valid_done h)) nofun

theorem ValidBits.any_of_data {v : ValidBits} (h : v.data = true) : v.any = true := by
  simp [ValidBits.any, h]

/-- While an operation is in flight there is no `RES_DATA` window. -/
theorem Invariants.no_window_of_busy {s : State} (hI : Invariants s) (hb : s.status = .busy) : s.valid.data ≠ true :=
  fun h => absurd ((ValidBits.any_of_data h).symm.trans (hI.valid_none_of_busy hb)) nofun

/-! ### Reset -/

theorem invariants_platformReset (s : State) : Invariants s.platformReset :=
  invariants_of_not_busy nofun rfl (Nat.le_refl 0) (Nat.zero_le _) nofun rfl nofun nofun

/-- Settles O3: `State.reset` is what its own reset gives. -/
theorem resetStateMeetsTheInvariants : Obligations.ResetStateMeetsTheInvariants :=
  invariants_platformReset State.reset

/-! ### Acceptance -/

theorem CodecDone.invariants {s t : State} (h : CodecDone s t) (hI : Invariants s) : Invariants t := by
  refine invariants_of_not_busy ?_ h.pend ?_ ?_ h.valid_done ?_ ?_ ?_
  · rcases h.status with e | e <;> simp [e]
  · simp [h.cnt]
  · simp [h.len]
  · exact h.buf ▸ hI.buf_wf
  · exact h.buf ▸ hI.buf_capacity
  · simp [h.valid_data]

theorem TransferBegun.invariants {s t : State} {o : Op} (h : TransferBegun s t o) : Invariants t := by
  have hdir : t.dir = dirOf o := State.dir_of_op h.op
  have hread : t.buf.readBytes 0 t.cnt = some [] := by rw [h.cnt]; rfl
  refine {
    cnt_le_len := by simp [h.cnt]
    len_le_capacity := h.len_le
    pend_busy := by simp [h.pend]
    busy_op := fun _ => ⟨o, by rw [h.op, Op.ofCode_code], ?_, h.len⟩
    valid_done := by simp [h.valid, ValidBits.any, ValidBits.none]
    buf_wf := ?_
    buf_capacity := ?_
    send_frame := fun _ hd => ?_
    receive_bytes := fun _ _ => by rw [hread]; rfl
    receive_tail := fun _ _ => ⟨t.rxs, [], (List.append_nil _).symm, h.cnt.symm, hread⟩
    window_readable := by simp [h.valid, ValidBits.none] }
  · rcases h.buf with ⟨hd, _⟩ | ⟨hd, _⟩ <;> simp [hd]
  · rcases h.buf with ⟨_, frame, _, hm⟩ | ⟨_, hm⟩ <;> rw [hm]
    · exact Memory.wf_ofBytes frame
    · rfl
  · intro c hc
    rcases h.buf with ⟨_, frame, hl, hm⟩ | ⟨_, hm⟩ <;> rw [hm] at hc
    · have := h.len_le
      rcases Memory.mem_writeBytes hc with hr | hr
      · omega
      · cases hr
    · cases hc
  · rcases h.buf with ⟨_, frame, hl, hm⟩ | ⟨hrx, _⟩
    · rw [hm, ← hl, Memory.readBytes_ofBytes]; rfl
    · exact absurd (hd.symm.trans (hdir.trans hrx)) nofun

/-! ### The attempt loop -/

theorem Invariants.issue {s : State} (hI : Invariants s) (hb : s.status = .busy) (hc : s.cnt < s.len) :
    Invariants s.issue :=
  { hI with pend_busy := fun _ => ⟨hb, hc⟩ }

theorem Invariants.raise_transport {s : State} (hI : Invariants s) (hp : s.pend = true) :
    Invariants (s.raise .transport) := by
  have hb := (hI.pend_busy hp).1
  refine invariants_of_not_busy nofun rfl hI.cnt_le_len hI.len_le_capacity ?_ hI.buf_wf hI.buf_capacity ?_
  · exact fun h => absurd (h.symm.trans (hI.valid_none_of_busy hb)) nofun
  · exact fun h => absurd h (hI.no_window_of_busy hb)

/-- A send's answer moves `CNT` on; its frame stays (R133). -/
theorem Invariants.sent {s : State} (hI : Invariants s) {k : Nat} (hd : s.dir = some .tx) (hk : k ≤ s.len - s.cnt)
    (bs : List Byte) : Invariants ({ s with txs := s.txs ++ bs }.advance k) :=
  have hle : s.cnt + k ≤ s.len := by have := hI.cnt_le_len; omega
  { hI with
    cnt_le_len := hle
    pend_busy := nofun
    receive_bytes := fun _ h => absurd (hd.symm.trans h) nofun
    receive_tail := fun _ h => absurd (hd.symm.trans h) nofun }

/-- A receive's answer puts the same bytes at the end of `RXS` and behind those in `BUF` (R134). -/
theorem Invariants.received {s : State} (hI : Invariants s) {d : List Byte} (hp : s.pend = true)
    (hd : s.dir = some .rx) (hk : d.length ≤ s.len - s.cnt) :
    Invariants ({ s with rxs := s.rxs ++ d, buf := s.buf.writeBytes s.cnt d }.advance d.length) := by
  have hb := (hI.pend_busy hp).1
  have hle : s.cnt + d.length ≤ s.len := by have := hI.cnt_le_len; omega
  obtain ⟨before, bytes, hrx, hlen, hread⟩ := hI.receive_tail hb hd
  have hnew : (s.buf.writeBytes s.cnt d).readBytes 0 (s.cnt + d.length) = some (bytes ++ d) := by
    refine Memory.readBytes_append ?_ ?_
    · rw [Memory.readBytes_writeBytes_below _ _ (by omega), hread]
    · rw [Nat.zero_add, Memory.readBytes_writeBytes]
  exact { hI with
    cnt_le_len := hle
    pend_busy := nofun
    buf_wf := Memory.wf_writeBytes d s.cnt hI.buf_wf
    buf_capacity := fun c hc => by
      have := hI.len_le_capacity
      rcases Memory.mem_writeBytes hc with h | h
      · omega
      · exact hI.buf_capacity c h
    send_frame := fun _ h => absurd (hd.symm.trans h) nofun
    receive_bytes := fun _ _ => Option.isSome_iff_exists.mpr ⟨_, hnew⟩
    receive_tail := fun _ _ =>
      ⟨before, bytes ++ d, by simp [hrx], by simp [hlen], hnew⟩
    window_readable := fun h => absurd h (hI.no_window_of_busy hb) }

/-! ### The finish -/

/-- The window that a finished `REL_RECV` or `RECV_BUF` opens lies in the received frame (R29, R131, R162). -/
theorem Finished.window_readable {s t : State} (h : Finished s t) (hI : Invariants s) (hb : s.status = .busy)
    (hc : s.cnt = s.len) (hv : t.valid.data = true) : ∃ bytes, t.bufLoad t.dataBase t.resLen = .ok bytes := by
  obtain ⟨o', hof, _, hlen⟩ := hI.busy_op hb
  have hread : s.dir = some .rx → (t.buf.readBytes 0 s.len).isSome = true := fun hd => by
    rw [h.buf, ← hc]; exact hI.receive_bytes hb hd
  rcases h.window hv with hd | ⟨hop, hres⟩ | ⟨hop, hres⟩
  · exact absurd hd (hI.no_window_of_busy hb)
  · refine State.bufLoad_of_isSome (hread (State.dir_of_op hop)) ?_ hI.len_le_capacity
    simp [State.dataBase, h.op, hop, hres]
  · obtain rfl : Op.recvBuf = o' := Option.some.inj ((Op.ofCode_code .recvBuf).symm.trans (hop ▸ hof))
    refine State.bufLoad_of_isSome (hread (State.dir_of_op hop)) ?_ hI.len_le_capacity
    have hbase : t.dataBase = 4 := by rw [State.dataBase, h.op, hop]; rfl
    rw [hbase, hres, hlen, State.expectedLen]

theorem Finished.invariants {s t : State} (h : Finished s t) (hI : Invariants s) (hb : s.status = .busy)
    (hc : s.cnt = s.len) : Invariants t := by
  refine invariants_of_not_busy ?_ h.pend ?_ ?_ ?_ ?_ ?_ (h.window_readable hI hb hc)
  · rcases h.status with ⟨e, _⟩ | ⟨e, _⟩ <;> simp [e]
  · rw [h.cnt, h.len]; exact hI.cnt_le_len
  · rw [h.len]; exact hI.len_le_capacity
  · rcases h.status with ⟨e, _⟩ | ⟨_, _, hv⟩
    · exact fun _ => e
    · rw [hv, hI.valid_none_of_busy hb]; nofun
  · rw [h.buf]; exact hI.buf_wf
  · rw [h.buf]; exact hI.buf_capacity

/-! ### A step -/

theorem StepKind.invariants {u t : State} (h : StepKind u t) (hI : Invariants u) : Invariants t := by
  cases h with
  | idle h => exact hI.of_outside (by rw [h])
  | codec v _ hv h => exact h.invariants (hI.of_outside (by rw [hv]))
  | begun v o _ _ h => exact h.invariants
  | issue hb _ hc h => exact h ▸ hI.issue hb hc
  | finished o hb _ _ hc h => exact h.invariants hI hb hc
  | noAnswer act rest _ _ h => exact hI.of_outside (by rw [h]; rfl)
  | error act rest _ hp h =>
    exact h ▸ Invariants.raise_transport (hI.of_outside rfl) hp
  | sent act rest k bs _ _ hd _ hk h =>
    exact h ▸ Invariants.sent (s := u.setTransportIn rest) (hI.of_outside rfl) hd hk bs
  | received act rest d _ hp hd _ hk h =>
    exact h ▸ Invariants.received (s := u.setTransportIn rest) (hI.of_outside rfl) hp hd hk
  | late sent got h => exact hI.of_outside (by rw [h])

/-- Everything a step that goes on can be: a reset, or a kind of step from the state with its turn used up. -/
theorem stepKind_of_step {s t : State} (h : step s = .next t) :
    (∃ ts, s.turns = .reset :: ts ∧ t = (s.setTurns ts).platformReset) ∨ ∃ ts, StepKind (s.setTurns ts) t := by
  rcases step_next_cases h with hr | ⟨u, hu, hkind⟩
  · exact .inl hr
  · exact .inr ⟨u.turns, hu ▸ hkind⟩

/-- Settles O43: reset gives a state that meets the invariants, and so does each kind of step. -/
theorem everyStepKeepsTheInvariants : Obligations.EveryStepKeepsTheInvariants := by
  intro s t hI hstep
  rcases stepKind_of_step hstep with ⟨ts, _, rfl⟩ | ⟨ts, hkind⟩
  · exact invariants_platformReset _
  · exact hkind.invariants (hI.of_outside rfl)

end Sys2Proof.Machine

/-! SUPPORT. What the host may read (10_state R35), and that a step stops only at the boundary. -/

namespace Sys2Proof.Machine

/-! ### The host's reads (R35) -/

/-- The registers the host may read: `STATUS`, the error registers under `ERR_PROTOCOL`, a result register whose valid
bit is 1 (R35). -/
def State.Readable (s : State) : HostReg → Prop
  | .status => True
  | .errObs => s.status = .errProtocol
  | .errExp => s.status = .errProtocol
  | .resHdr => s.valid.hdr = true
  | .resLow => s.valid.low = true
  | .resData => s.valid.data = true
  | .resI32 => s.valid.i32 = true
  | .resU64 => s.valid.u64 = true
  | .resBool => s.valid.bool = true

/-- The value of each register to the host (R22, R28, R29). -/
def State.ReadsAs (s : State) (v : HostValue) : HostReg → Prop
  | .status => v = .status s.status.code
  | .errObs => v = .top24 s.errObs
  | .errExp => v = .top24 s.errExp
  | .resHdr => v = .header s.resHdr
  | .resLow => v = .byte s.resLow
  | .resData => ∃ bytes, v = .data bytes ∧ s.buf.readBytes s.dataBase s.resLen = some bytes
  | .resI32 => v = .signed s.resI32.toInt
  | .resU64 => v = .word64 s.resU64
  | .resBool => v = .truth s.resBool

theorem State.hostRead_of_not_readable {s : State} {r : HostReg} (h : ¬ s.Readable r) :
    s.hostRead r = .error (.invalidRead r) := by
  cases r with
  | status => exact absurd trivial h
  | errObs | errExp => exact if_neg (mt (of_decide_eq_true (p := s.status = .errProtocol)) h)
  | resHdr | resLow | resData | resI32 | resU64 | resBool => exact if_neg h

theorem State.hostRead_of_readable {s : State} (hI : Invariants s) {r : HostReg} (h : s.Readable r) :
    ∃ v, s.hostRead r = .ok v ∧ s.ReadsAs v r := by
  cases r with
  | status => exact ⟨_, rfl, rfl⟩
  | errObs | errExp => exact ⟨_, if_pos (decide_eq_true (p := s.status = .errProtocol) h), rfl⟩
  | resData =>
    obtain ⟨bytes, hload⟩ := hI.window_readable h
    refine ⟨.data bytes, (if_pos h).trans ?_, bytes, rfl, ((State.bufLoad_eq_ok ..).mp hload).2⟩
    rw [hload]; rfl
  | resHdr | resLow | resI32 | resU64 | resBool => exact ⟨_, if_pos h, rfl⟩

theorem hostTurn_read_ok {s : State} {r : HostReg} {rest : List HostAct} {v : HostValue}
    (h : s.hostIn = .read r :: rest) (hv : s.hostRead r = .ok v) :
    hostTurn s = .next { s.setHostIn rest with hostSaw := some v } := by
  simp [hostTurn, h, hv]

theorem hostTurn_read_error {s : State} {r : HostReg} {rest : List HostAct} {f : Fault}
    (h : s.hostIn = .read r :: rest) (hf : s.hostRead r = .error f) : hostTurn s = .fault f := by
  simp [hostTurn, h, hf]

/-- Settles O42: the host's turn answers what `State.hostRead` gives, and the window is readable under the invariants. -/
theorem hostReadsOnlyWhatIsValid : Obligations.HostReadsOnlyWhatIsValid := by
  intro s ts reg rest hts hh readable
  have hstep : step s = hostTurn (s.setTurns ts) := step_of_turn hts
  have hiff : readable ↔ s.Readable reg := by cases reg <;> exact Iff.rfl
  rw [hstep, hiff]
  refine ⟨fun h => hostTurn_read_error hh ?_, fun h hI => ?_⟩
  · rw [State.setTurns_hostRead, State.hostRead_of_not_readable h]
  obtain ⟨v, hv, hval⟩ := State.hostRead_of_readable hI h
  refine ⟨v, hostTurn_read_ok (s := s.setTurns ts) hh (by rw [State.setTurns_hostRead, hv]), ?_⟩
  cases reg with
  | status => rw [show v = .status s.status.code from hval]; cases s.status <;> rfl
  | errObs | errExp | resHdr | resLow | resData | resI32 | resU64 | resBool => exact hval

/-! ### Where a step may stop (R29, R55, R56, R100, R231) -/

theorem boundaryOnly_hostTurn {s : State} (hI : Invariants s) : Result.boundaryOnly (hostTurn s) := by
  rcases hostTurn_cases s with e | ⟨r, rest, v, _, _, e⟩ | ⟨r, rest, f, _, hr, e⟩ | ⟨q, rest, i, _, hb, hdec, e⟩ |
    ⟨why, e⟩ <;> rw [e]
  · trivial
  · trivial
  · by_cases h : s.Readable r
    · obtain ⟨v, hv, _⟩ := State.hostRead_of_readable hI h
      exact absurd (hr.symm.trans hv) nofun
    · rw [State.hostRead_of_not_readable h] at hr
      exact ⟨r, (Except.error.inj hr).symm⟩
  · rcases exec_request_cases hdec (s.setHostIn rest) with e | ⟨_, ⟨t, e, _⟩ | ⟨t, o, e, _⟩ | ⟨n, e⟩⟩ | ⟨o, hb', _⟩
    · rw [e]; trivial
    · rw [e]; trivial
    · rw [e]; trivial
    · rw [e]; trivial
    · exact absurd hb' hb
  · trivial

/-- The bytes an outstanding attempt asks lie in the frame and in `BUF`, so answering it raises no fault. -/
theorem boundaryOnly_answer {s : State} (hI : Invariants s) (hp : s.pend = true) (r : Int) (d : List Byte) :
    Result.boundaryOnly (s.answer r d) := by
  obtain ⟨hb, hlt⟩ := hI.pend_busy hp
  have hcap := hI.len_le_capacity
  rcases State.answer_cases s r d with e | ⟨hd, e⟩ | ⟨hd, e⟩ <;> rw [e]
  · trivial
  · rcases State.answerTx_cases s r with ⟨_, e⟩ | ⟨bs, _, _, _, e⟩ | e | ⟨f, _, hk, hf, e⟩ <;> rw [e]
    · trivial
    · trivial
    · trivial
    · obtain ⟨bytes, hload⟩ :=
        State.bufLoad_of_isSome (a := s.cnt) (n := r.toNat) (hI.send_frame hb hd) (by omega) hcap
      exact absurd (hf.symm.trans hload) nofun
  · rcases State.answerRx_cases s r d with ⟨_, e⟩ | ⟨_, _, _, _, e⟩ | e | e | ⟨hk, hover, e⟩ <;> rw [e]
    · trivial
    · trivial
    · trivial
    · trivial
    · omega

theorem boundaryOnly_transportTurn {s : State} (hI : Invariants s) : Result.boundaryOnly (transportTurn s) := by
  rcases transportTurn_cases s with e | ⟨act, rest, r, d, _, hp, e⟩ | ⟨q, e⟩ | ⟨w, k, d, rest, _, e⟩ <;> rw [e]
  · trivial
  · exact boundaryOnly_answer (s := s.setTransportIn rest) (hI.of_outside rfl) hp r d
  · trivial
  · rcases State.lateMove_cases (s.setTransportIn rest) w k d with ⟨_, _, _, e⟩ | ⟨_, _, _, _, e⟩ | e <;>
      rw [e] <;> trivial

theorem boundaryOnly_fhcTurn {s : State} (hI : Invariants s) : Result.boundaryOnly (fhcTurn s) := by
  rcases fhcTurn_cases s with e | ⟨o, hb, ho, hp, _, ⟨_, e⟩ | ⟨hc, e⟩⟩
  · rw [e]; trivial
  · rw [e]; trivial
  · obtain ⟨t, ht, _⟩ := finishOf_next hI hb ho hp hc
    rw [e, ht]; trivial

/-- Settles O44: each agent's turn stops only at the boundary, and a reset does not stop. -/
theorem stopsOnlyAtTheBoundary : Obligations.StopsOnlyAtTheBoundary := by
  intro s hI
  rcases step_cases s with ⟨ts, _, e⟩ | ⟨u, hu, hturn⟩
  · rw [e]; trivial
  · have hIu : Invariants u := by
      rcases hu with ⟨_, rfl⟩ | ⟨_, ts, _, rfl⟩
      · exact hI
      · exact hI.of_outside rfl
    rcases hturn with e | e | e <;> rw [e]
    · exact boundaryOnly_hostTurn hIu
    · exact boundaryOnly_transportTurn hIu
    · exact boundaryOnly_fhcTurn hIu

end Sys2Proof.Machine

/-! SUPPORT. What one step can change while an operation is in flight (10_state R23 to R28, R33; 41_transportio R139). -/

namespace Sys2Proof.Machine

/-- Settles O38: of the kinds of step only an answer to the attempt clears `PEND` or leaves `BUSY`. -/
theorem onlyAnAnswerOrResetEndsAnAttempt : Obligations.OnlyAnAnswerOrResetEndsAnAttempt := by
  intro s t hstep hb hp hend
  rcases stepKind_of_step hstep with ⟨ts, hts, rfl⟩ | ⟨ts, hkind⟩
  · exact .inl ⟨ts, hts, rfl⟩
  refine .inr ?_
  have stays : t.pend = s.pend → t.status = s.status → False := fun h₁ h₂ => by
    rcases hend with h | h
    · exact absurd (h.symm.trans (h₁.trans hp)) nofun
    · exact h (h₂.trans hb)
  cases hkind with
  | idle h => exact (stays (congrArg State.pend h :) (congrArg State.status h :)).elim
  | codec v hnb _ _ => exact absurd hb hnb
  | begun v o hnb _ _ => exact absurd hb hnb
  | issue _ hp' _ _ => exact absurd (hp'.symm.trans hp) nofun
  | finished o _ _ hp' _ _ => exact absurd (hp'.symm.trans hp) nofun
  | noAnswer act rest _ _ h => exact (stays (congrArg State.pend h :) (congrArg State.status h :)).elim
  | error act rest hx _ h => subst h; exact ⟨act, hx, .inr ⟨rfl, rfl, rfl, rfl⟩⟩
  | sent act rest k bs hx _ _ h0 _ h => subst h; exact ⟨act, hx, .inl ⟨hb, Nat.lt_add_of_pos_right h0⟩⟩
  | received act rest d hx _ _ h0 _ h => subst h; exact ⟨act, hx, .inl ⟨hb, Nat.lt_add_of_pos_right h0⟩⟩
  | late sent got h => exact (stays (congrArg State.pend h :) (congrArg State.status h :)).elim

/-- FHC's own steps move no byte across the port. -/
theorem SameOutside.streams {s t : State} (h : SameOutside s t) : s.txs <+: t.txs ∧ s.rxs <+: t.rxs :=
  ⟨h.txs ▸ List.prefix_rfl, h.rxs ▸ List.prefix_rfl⟩

theorem StepKind.streams {u t : State} (h : StepKind u t) : u.txs <+: t.txs ∧ u.rxs <+: t.rxs := by
  cases h with
  | idle h => rw [h]; exact ⟨List.prefix_rfl, List.prefix_rfl⟩
  | codec v _ hv h => rw [hv] at h; exact h.toSameOutside.streams
  | begun v o _ hv h => rw [hv] at h; exact h.toSameOutside.streams
  | issue _ _ _ h => subst h; exact ⟨List.prefix_rfl, List.prefix_rfl⟩
  | finished o _ _ _ _ h => exact h.toSameOutside.streams
  | noAnswer act rest _ _ h => subst h; exact ⟨List.prefix_rfl, List.prefix_rfl⟩
  | error act rest _ _ h => subst h; exact ⟨List.prefix_rfl, List.prefix_rfl⟩
  | sent act rest k bs _ _ _ _ _ h => subst h; exact ⟨List.prefix_append _ bs, List.prefix_rfl⟩
  | received act rest d _ _ _ _ _ h => subst h; exact ⟨List.prefix_rfl, List.prefix_append _ d⟩
  | late sent got h => rw [h]; exact ⟨List.prefix_append _ sent, List.prefix_rfl⟩

/-- Settles O39: a reset leaves both strings, and every kind of step keeps or extends them. -/
theorem streamsOnlyGrow : Obligations.StreamsOnlyGrow := by
  intro s t hstep
  rcases stepKind_of_step hstep with ⟨ts, _, rfl⟩ | ⟨ts, hkind⟩
  · exact ⟨List.prefix_rfl, List.prefix_rfl⟩
  · exact hkind.streams

/-- A write of received bytes from `CNT` on leaves every byte below it. -/
theorem Memory.get_writeBytes_below (m : Memory) (bs : List Byte) {a x : Nat} (h : x < a) :
    (m.writeBytes a bs).get x = m.get x := by
  rw [Memory.get_writeBytes, if_neg (by omega)]

/-- The latched request and `LEN` stay, `CNT` does not go back, and neither a byte below it nor a send's frame changes
(R23, R25, R26, R34). -/
def RequestKept (s t : State) : Prop :=
  t.op = s.op ∧ t.argCode = s.argCode ∧ t.argRole = s.argRole ∧ t.argHdr = s.argHdr ∧ t.argSize = s.argSize ∧
  t.argVal = s.argVal ∧ t.len = s.len ∧ s.cnt ≤ t.cnt ∧ (∀ a, a < s.cnt → t.buf.get a = s.buf.get a) ∧
  (s.dir = some .tx → t.buf = s.buf)

/-- A step that writes of FHC's registers only `PEND` and a larger `CNT` keeps the request. -/
theorem requestKept_of_eq {s t : State} (h : t = { s with
      hostIn := t.hostIn, transportIn := t.transportIn, hostSaw := t.hostSaw, txs := t.txs, orphans := t.orphans,
      rxLost := t.rxLost, pend := t.pend, cnt := t.cnt }) (hc : s.cnt ≤ t.cnt) : RequestKept s t := by
  rw [h]
  exact ⟨rfl, rfl, rfl, rfl, rfl, rfl, rfl, hc, fun _ _ => rfl, fun _ => rfl⟩

theorem StepKind.requestKept {u t : State} (h : StepKind u t) (hb : u.status = .busy) (hb' : t.status = .busy) :
    RequestKept u t := by
  cases h with
  | idle h => exact requestKept_of_eq (by rw [h]) (congrArg State.cnt h).ge
  | codec v hnb _ _ => exact absurd hb hnb
  | begun v o hnb _ _ => exact absurd hb hnb
  | issue _ _ _ h => subst h; exact requestKept_of_eq rfl (Nat.le_refl _)
  | finished o _ _ _ _ h => rcases h.status with ⟨e, _⟩ | ⟨e, _⟩ <;> exact absurd (hb'.symm.trans e) nofun
  | noAnswer act rest _ _ h => subst h; exact requestKept_of_eq rfl (Nat.le_refl _)
  | error act rest _ _ h => subst h; exact absurd hb' nofun
  | sent act rest k bs _ _ _ _ _ h => subst h; exact requestKept_of_eq rfl (Nat.le_add_right ..)
  | received act rest d _ _ hd _ _ h =>
    subst h
    exact ⟨rfl, rfl, rfl, rfl, rfl, rfl, rfl, Nat.le_add_right .., fun a ha => Memory.get_writeBytes_below _ _ ha,
      fun htx => absurd (hd.symm.trans htx) nofun⟩
  | late sent got h => exact requestKept_of_eq (by rw [h]) (congrArg State.cnt h).ge

/-- Settles O40: between two busy states a step is an issue, an answer that moves `CNT` on, or no step of FHC's. -/
theorem operationInFlightKeepsItsRequest : Obligations.OperationInFlightKeepsItsRequest := by
  intro s t hstep hb hb'
  rcases stepKind_of_step hstep with ⟨ts, _, rfl⟩ | ⟨ts, hkind⟩
  · exact absurd hb' nofun
  · exact hkind.requestKept hb hb'

theorem StepKind.errors {u t : State} (h : StepKind u t) :
    t.status = .errProtocol ∨ t.errObs = u.errObs ∧ t.errExp = u.errExp := by
  cases h with
  | idle h => rw [h]; exact .inr ⟨rfl, rfl⟩
  | codec v _ hv h => rw [hv] at h; exact h.err
  | begun v o _ hv h => rw [hv] at h; exact .inr ⟨h.errObs, h.errExp⟩
  | issue _ _ _ h => subst h; exact .inr ⟨rfl, rfl⟩
  | finished o _ _ _ _ h => exact h.status.elim (fun e => .inr e.2) (fun e => .inl e.1)
  | noAnswer act rest _ _ h => subst h; exact .inr ⟨rfl, rfl⟩
  | error act rest _ _ h => subst h; exact .inr ⟨rfl, rfl⟩
  | sent act rest k bs _ _ _ _ _ h => subst h; exact .inr ⟨rfl, rfl⟩
  | received act rest d _ _ _ _ _ h => subst h; exact .inr ⟨rfl, rfl⟩
  | late sent got h => rw [h]; exact .inr ⟨rfl, rfl⟩

/-- Settles O41: a kind of step that is not a ProtocolError leaves both registers. -/
theorem errorRegistersChangeOnlyWithProtocolError : Obligations.ErrorRegistersChangeOnlyWithProtocolError := by
  intro s t hstep hne
  rcases stepKind_of_step hstep with ⟨ts, hts, _⟩ | ⟨ts, hkind⟩
  · exact .inr ⟨ts, hts⟩
  · rcases hkind.errors with h | ⟨hobs, hexp⟩
    · exact .inl h
    · exact (hne.elim (· hobs) (· hexp)).elim

end Sys2Proof.Machine

/-! SUPPORT. What acceptance leaves in the registers is the request's alone (10_state R20, R23; 30_encoding R97). -/

namespace Sys2Proof.Machine

/-- What an acceptance left in `t`, laid over another state `s`: the connection and the agents' moves are those of `s`,
and so is a register that the acceptance does not write. -/
def State.onto (t s : State) : State :=
  { t with
    txs := s.txs, rxs := s.rxs, orphans := s.orphans, rxLost := s.rxLost, hostIn := s.hostIn,
    transportIn := s.transportIn, turns := s.turns, hostSaw := s.hostSaw,
    buf := if t.status = .busy then t.buf else s.buf,
    errObs := if t.status = .errProtocol then t.errObs else s.errObs,
    errExp := if t.status = .errProtocol then t.errExp else s.errExp,
    resHdr := if t.valid.hdr then t.resHdr else s.resHdr,
    resLow := if t.valid.low then t.resLow else s.resLow,
    resLen := s.resLen, resI32 := s.resI32, resU64 := s.resU64, resBool := s.resBool }

/-- The operand registers after acceptance: `ARG_CODE`, `ARG_ROLE`, `ARG_HDR`, `ARG_SIZE`, `ARG_VAL` (R23; log 11). -/
def Instr.latched (i : Instr) : Byte × Role × Quad × Nat × BitVec 64 :=
  let r := State.reset
  match i with
  | .encCmdHdr code => (code, r.argRole, r.argHdr, r.argSize, r.argVal)
  | .decValHdr hdr role => (r.argCode, role, hdr, r.argSize, r.argVal)
  | .relSend data => (r.argCode, r.argRole, r.argHdr, data.length, r.argVal)
  | .relRecv n => (r.argCode, r.argRole, r.argHdr, n, r.argVal)
  | .sendCmd code => (code, r.argRole, r.argHdr, r.argSize, r.argVal)
  | .recvBuf n => (r.argCode, r.argRole, r.argHdr, n, r.argVal)
  | .sendBuf data => (r.argCode, r.argRole, r.argHdr, data.length, r.argVal)
  | .sendU64 v => (r.argCode, r.argRole, r.argHdr, r.argSize, v)
  | _ => (r.argCode, r.argRole, r.argHdr, r.argSize, r.argVal)

/-- What the acceptance of `i` in `s` leaves: the operands of `i`, no attempt, and no result but a codec operation's. -/
structure Accepted (i : Instr) (s t : State) : Prop extends SameOutside s t where
  operands : (t.argCode, t.argRole, t.argHdr, t.argSize, t.argVal) = Instr.latched i
  pend : t.pend = false
  valid : t.valid = { ValidBits.none with hdr := t.valid.hdr, low := t.valid.low }

/-- Two acceptances of one request: both refused, or the second leaves what the first does, laid over its own state. -/
def AcceptedAlike (i : Instr) (s₁ s₂ : State) (r₁ r₂ : Result) : Prop :=
  (∃ n, r₁ = .refused (.oversizePayload n) ∧ r₂ = .refused (.oversizePayload n)) ∨
    ∃ t, r₁ = .next t ∧ r₂ = .next (t.onto s₂) ∧ Accepted i s₁ t

section
variable {i : Instr} {o : Op} {s₁ s₂ : State} (h₁ : s₁.status ≠ .busy) (h₂ : s₂.status ≠ .busy)
include h₁ h₂

theorem codecStep_acceptedAlike {run : State → State} (ha : Accepted i s₁ (run (s₁.accept o 0)))
    (hr : run (s₂.accept o 0) = (run (s₁.accept o 0)).onto s₂) :
    AcceptedAlike i s₁ s₂ (codecStep o run s₁) (codecStep o run s₂) :=
  .inr ⟨_, codecStep_of_not_busy h₁, by rw [codecStep_of_not_busy h₂, hr], ha⟩

theorem transferStep_acceptedAlike {acc fin : State → Result} (h : AcceptedAlike i s₁ s₂ (acc s₁) (acc s₂)) :
    AcceptedAlike i s₁ s₂ (transferStep o acc fin s₁) (transferStep o acc fin s₂) := by
  rwa [transferStep_of_not_busy h₁, transferStep_of_not_busy h₂]

end

theorem acceptSized_acceptedAlike {i : Instr} {s₁ s₂ : State} {n : Nat} {f : State → State}
    (ha : Accepted i s₁ { f s₁ with argSize := n })
    (hf : { f s₂ with argSize := n } = ({ f s₁ with argSize := n } : State).onto s₂) :
    AcceptedAlike i s₁ s₂ (acceptSized n f s₁) (acceptSized n f s₂) := by
  rcases Nat.lt_or_ge Config.maxPayload n with hn | hn
  · exact .inl ⟨n, acceptSized_of_lt hn f s₁, acceptSized_of_lt hn f s₂⟩
  · exact .inr ⟨_, acceptSized_of_le hn f s₁, by rw [acceptSized_of_le hn, hf], ha⟩

/-- Acceptance, operation by operation: what it leaves is the same from any two states with nothing in flight. -/
theorem exec_acceptedAlike {q : Request} {i : Instr} (hdec : decodeRequest q = .ok i) {s₁ s₂ : State}
    (h₁ : s₁.status ≠ .busy) (h₂ : s₂.status ≠ .busy) : AcceptedAlike i s₁ s₂ (exec i s₁) (exec i s₂) := by
  have same : SameOutside s₁ s₁ := .refl s₁
  cases i with
  | encCmdHdr | encBufHdr =>
    simp only [exec, execEncCmdHdr, execEncBufHdr]
    refine codecStep_acceptedAlike h₁ h₂ ?_ rfl
    exact { same with operands := rfl, pend := rfl, valid := rfl }
  | decValHdr hdr role =>
    rw [exec, exec, execDecValHdr, execDecValHdr]
    rcases hm : headerMatches hdr.le32 role.magic with _ | _
    · refine codecStep_acceptedAlike h₁ h₂ ?_ ?_ <;> simp only [State.validate_of_mismatch hm]
      · exact { same with operands := rfl, pend := rfl, valid := rfl }
      · rfl
    · refine codecStep_acceptedAlike h₁ h₂ ?_ ?_ <;> simp only [State.validate_of_matches hm]
      · exact { same with operands := rfl, pend := rfl, valid := rfl }
      · rfl
  | relSend | relRecv | recvBuf | sendBuf =>
    simp only [exec, execRelSend, execRelRecv, execRecvBuf, execSendBuf]
    refine transferStep_acceptedAlike h₁ h₂ (acceptSized_acceptedAlike ?_ rfl)
    exact { same with operands := rfl, pend := rfl, valid := rfl }
  | sendCmd | recvConfirm | sendU64 | recvI32 | recvU64 | recvBool =>
    simp only [exec, execSendCmd, execRecvConfirm, execSendU64, execRecvI32, execRecvU64, execRecvBool]
    refine transferStep_acceptedAlike h₁ h₂ (.inr ⟨_, rfl, rfl, ?_⟩)
    exact { same with operands := rfl, pend := rfl, valid := rfl }
  | frameSendBuffer | frameConfirm | frameGetControlData | frameListApps | frameGetActiveUser | frameGetCurrentApp
  | frameGetVersion | frameDisconnect | framePeer => exact absurd rfl (decodeRequest_not_header hdec _)

/-- Settles O50: of two acceptances of one request the second is the first laid over its own state. -/
theorem acceptanceReinitialisesTheRegisters : Obligations.AcceptanceReinitialisesTheRegisters := by
  intro s₁ s₂ t₁ t₂ q i h₁ h₂ hdec e₁ e₂
  rcases exec_acceptedAlike hdec h₁ h₂ with ⟨n, e, _⟩ | ⟨t, e, e', ha⟩
  · exact absurd (e₁.symm.trans e) nofun
  obtain rfl : t₁ = t := Host.Outcome.next.inj (e₁.symm.trans e)
  obtain rfl : t₂ = t₁.onto s₂ := Host.Outcome.next.inj (e₂.symm.trans e')
  refine ⟨rfl, ha.operands.trans ?_⟩
  cases i <;> rfl

end Sys2Proof.Machine

/-! SUPPORT. Two machines that nothing to come can tell apart stay so (10_state R20, R34; 60_exceptions R170). -/

namespace Sys2Proof.Machine

/-! ### Turns that leave the state, and whole headers -/

theorem transferStep_beyond {o : Op} {acc fin : State → Result} {s : State} (hb : s.status = .busy)
    (hc : s.len < s.cnt) : transferStep o acc fin s = .next s := by
  simp [transferStep, hb, show ¬ s.cnt < s.len by omega, show ¬ s.cnt = s.len by omega]

theorem fhcTurn_of_undefined {s : State} (ho : Op.ofCode s.op = none) : fhcTurn s = .next s := by
  simp [fhcTurn, State.inFlight, ho]

/-- A codec operation in flight, which no run reaches, has no step (log 1). -/
theorem exec_latched_codec {o : Op} (hd : dirOf o = none) (s : State) (hb : s.status = .busy) :
    exec (s.latchedInstr o) s = .next s := by
  cases o with
  | encCmdHdr | encBufHdr | decValHdr =>
    simp only [State.latchedInstr, exec, execEncCmdHdr, execEncBufHdr, execDecValHdr]
    exact codecStep_of_busy hb
  | relSend | relRecv | sendCmd | recvConfirm | recvBuf | sendBuf | sendU64 | recvI32 | recvU64 | recvBool => cases hd

theorem hostTurn_nil {s : State} (h : s.hostIn = []) : hostTurn s = .next s := by
  simp [hostTurn, h]

theorem hostTurn_malformed {s : State} {q : Request} {rest : List HostAct} {why : Reject}
    (h : s.hostIn = .request q :: rest) (hb : s.status ≠ .busy) (hd : decodeRequest q = .error why) :
    hostTurn s = .refused (.malformedRequest why) := by
  simp [hostTurn, h, hb, hd]

theorem transportTurn_late {s : State} {w k : Nat} {d : List Byte} {rest : List TransportAct}
    (h : s.transportIn = .late w k d :: rest) : transportTurn s = (s.setTransportIn rest).lateMove w k d := by
  simp [transportTurn, h]

/-- With no attempt outstanding an answer, in pieces or whole, stays with the transport (R204). -/
theorem transportTurn_of_not_ready {s : State} (h : s.transportReady = false) : transportTurn s = .next s := by
  rcases hx : s.transportIn with _ | ⟨⟨r, d⟩ | q | ⟨w, k, d⟩, rest⟩ <;> rw [State.transportReady, hx] at h
  · simp [transportTurn, hx]
  · simp [transportTurn, hx, show s.pend = false from h]
  · simp [transportTurn, hx, show s.pend = false from h]
  · cases h

/-- Any header that meets an attempt crosses, one with no row of the table too (R95; log 6). -/
theorem transportTurn_crosses {s : State} {q : Quad} {rest : List TransportAct} (h : s.transportIn = .header q :: rest)
    (hp : s.pend = true) : transportTurn s = (s.setTransportIn rest).crossHeader q := by
  rcases hd : decodeHeader q with why | i
  · simp [transportTurn, h, hp, hd]
  · rw [transportTurn_header h hp hd, exec_decodedHeader hd]

/-! ### Acceptance -/

/-- Two states on one connection: the same transport's strings and orphans, and the same moves to come. -/
structure SameConnection (a b : State) : Prop where
  txs : a.txs = b.txs
  rxs : a.rxs = b.rxs
  orphans : a.orphans = b.orphans
  hostIn : a.hostIn = b.hostIn
  transportIn : a.transportIn = b.transportIn
  turns : a.turns = b.turns

/-- Acceptance leaves alike what the same request finds on one connection, whatever earlier operations left. -/
theorem Accepted.alike {i : Instr} {s₁ s₂ t : State} (ha : Accepted i s₁ t) (hc : SameConnection s₁ s₂) :
    Alike t (t.onto s₂) where
  txs := ha.txs.trans hc.txs
  rxs := ha.rxs.trans hc.rxs
  orphans := ha.orphans.trans hc.orphans
  hostIn := ha.hostIn.trans hc.hostIn
  transportIn := ha.transportIn.trans hc.transportIn
  turns := ha.turns.trans hc.turns
  status := rfl
  op := rfl
  len := rfl
  cnt := rfl
  pend := rfl
  valid := rfl
  pend_busy := fun e => absurd (ha.pend.symm.trans e) nofun
  buf := fun hb => (if_pos hb).symm
  argSize := fun _ _ => rfl
  err := fun he => ⟨(if_pos he).symm, (if_pos he).symm⟩
  resHdr := fun hv => (if_pos hv).symm
  resLow := fun hv => (if_pos hv).symm
  resData := by rw [ha.valid]; nofun
  resI32 := by rw [ha.valid]; nofun
  resU64 := by rw [ha.valid]; nofun
  resBool := by rw [ha.valid]; nofun

theorem SameConnection.exec {q : Request} {i : Instr} {s₁ s₂ : State} (hc : SameConnection s₁ s₂)
    (hdec : decodeRequest q = .ok i) (h₁ : s₁.status ≠ .busy) (h₂ : s₂.status ≠ .busy) :
    Result.alike (exec i s₁) (exec i s₂) := by
  rcases exec_acceptedAlike hdec h₁ h₂ with ⟨n, e, e'⟩ | ⟨t, e, e', ha⟩ <;> rw [e, e']
  · rfl
  · exact ha.alike hc

/-! ### What is read alike -/

theorem State.bufLoad_congr {a b : State} (h : a.buf = b.buf) (x n : Nat) : a.bufLoad x n = b.bufLoad x n := by
  rw [State.bufLoad, State.bufLoad, h]

theorem State.bufQuad_congr {a b : State} (h : a.buf = b.buf) (x : Nat) : a.bufQuad x = b.bufQuad x := by
  rw [State.bufQuad, State.bufQuad, State.bufLoad_congr h]

/-- A register's value counts only while the register is valid. -/
theorem readIf_congr {ok ok' : Bool} {r : HostReg} {v w : Except Fault HostValue} (hok : ok = ok')
    (h : ok = true → v = w) : readIf ok r v = readIf ok' r w := by
  subst hok
  cases ok with
  | false => rfl
  | true => rw [h rfl]

section
variable {a b : State} (h : Alike a b)
include h

theorem Alike.pend_buf (hp : a.pend = true) : a.buf = b.buf := h.buf (h.pend_busy hp)

theorem Alike.dir : a.dir = b.dir := by rw [State.dir, State.dir, h.op]

theorem Alike.dataBase : a.dataBase = b.dataBase := by rw [State.dataBase, State.dataBase, h.op]

/-- The host reads the same from both (R35). -/
theorem Alike.hostRead (r : HostReg) : a.hostRead r = b.hostRead r := by
  have hv := h.valid
  cases r with
  | status => rw [State.hostRead, State.hostRead, h.status]
  | errObs => exact readIf_congr (by rw [h.status]) fun e => by rw [(h.err (of_decide_eq_true e)).1]
  | errExp => exact readIf_congr (by rw [h.status]) fun e => by rw [(h.err (of_decide_eq_true e)).2]
  | resHdr => exact readIf_congr (by rw [hv]) fun e => by rw [h.resHdr e]
  | resLow => exact readIf_congr (by rw [hv]) fun e => by rw [h.resLow e]
  | resData =>
    refine readIf_congr (by rw [hv]) fun e => ?_
    rw [State.bufLoad_congr (h.resData e).1, (h.resData e).2, h.dataBase]
  | resI32 => exact readIf_congr (by rw [hv]) fun e => by rw [h.resI32 e]
  | resU64 => exact readIf_congr (by rw [hv]) fun e => by rw [h.resU64 e]
  | resBool => exact readIf_congr (by rw [hv]) fun e => by rw [h.resBool e]

/-! ### The updates -/

theorem Alike.setTurns (x : List Turn) : Alike (a.setTurns x) (b.setTurns x) := { h with turns := rfl }

theorem Alike.setHostIn (x : List HostAct) : Alike (a.setHostIn x) (b.setHostIn x) := { h with hostIn := rfl }

theorem Alike.setTransportIn (x : List TransportAct) : Alike (a.setTransportIn x) (b.setTransportIn x) :=
  { h with transportIn := rfl }

theorem Alike.issue (hb : a.status = .busy) : Alike a.issue b.issue := { h with pend := rfl, pend_busy := fun _ => hb }

theorem Alike.complete (hp : a.pend = false) : Alike a.complete b.complete :=
  { h with
    status := rfl, pend_busy := fun e => absurd (hp.symm.trans e) nofun, buf := nofun, argSize := nofun, err := nofun }

theorem Alike.raise_transport : Alike (a.raise .transport) (b.raise .transport) :=
  { h with status := rfl, pend := rfl, pend_busy := nofun, buf := nofun, argSize := nofun, err := nofun }

theorem Alike.raise_protocol (obs exp : BitVec 24) :
    Alike (a.raise (.protocol obs exp)) (b.raise (.protocol obs exp)) :=
  { h with
    status := rfl, pend := rfl, pend_busy := nofun, buf := nofun, argSize := nofun, err := fun _ => ⟨rfl, rfl⟩ }

theorem Alike.deliverData (hbuf : a.buf = b.buf) {n m : Nat} (hn : n = m) :
    Alike (a.deliverData n) (b.deliverData m) :=
  { h with
    valid := congrArg (fun v : ValidBits => { v with data := true }) h.valid, resData := fun _ => ⟨hbuf, hn⟩ }

theorem Alike.deliverI32 (p : Quad) : Alike (a.deliverI32 p) (b.deliverI32 p) :=
  { h with valid := congrArg (fun v : ValidBits => { v with i32 := true }) h.valid, resI32 := fun _ => rfl }

theorem Alike.deliverU64 (p : List Byte) : Alike (a.deliverU64 p) (b.deliverU64 p) :=
  { h with valid := congrArg (fun v : ValidBits => { v with u64 := true }) h.valid, resU64 := fun _ => rfl }

theorem Alike.deliverBool (p : List Byte) : Alike (a.deliverBool p) (b.deliverBool p) :=
  { h with valid := congrArg (fun v : ValidBits => { v with bool := true }) h.valid, resBool := fun _ => rfl }

theorem Alike.sent (bs : List Byte) (k : Nat) :
    Alike ({ a with txs := a.txs ++ bs }.advance k) ({ b with txs := b.txs ++ bs }.advance k) :=
  { h with
    txs := congrArg (· ++ bs) h.txs, cnt := congrArg (· + k) h.cnt, pend := rfl, pend_busy := nofun }

theorem Alike.received (hbuf : a.buf = b.buf) (d : List Byte) (k : Nat) :
    Alike ({ a with rxs := a.rxs ++ d, buf := a.buf.writeBytes a.cnt d }.advance k)
      ({ b with rxs := b.rxs ++ d, buf := b.buf.writeBytes b.cnt d }.advance k) :=
  have hnew : a.buf.writeBytes a.cnt d = b.buf.writeBytes b.cnt d := by rw [hbuf, h.cnt]
  { h with
    rxs := congrArg (· ++ d) h.rxs, cnt := congrArg (· + k) h.cnt, pend := rfl, pend_busy := nofun,
    buf := fun _ => hnew, resData := fun e => ⟨hnew, (h.resData e).2⟩ }

/-! ### Reset and late moves -/

theorem Alike.orphanNow : a.orphanNow = b.orphanNow := by
  rw [State.orphanNow, State.orphanNow, ← h.pend, ← h.dir, ← h.cnt, ← h.len]
  by_cases hp : a.pend = true
  · rw [h.pend_buf hp]
  · rw [if_pos (by simpa using hp), if_pos (by simpa using hp)]

theorem Alike.platformReset : Alike a.platformReset b.platformReset :=
  { txs := h.txs, rxs := h.rxs, orphans := congrArg₂ (· ++ ·) h.orphans h.orphanNow, hostIn := h.hostIn,
    transportIn := h.transportIn, turns := h.turns, status := rfl, op := rfl, len := rfl, cnt := rfl, pend := rfl,
    valid := rfl, pend_busy := nofun, buf := nofun, argSize := nofun, err := nofun, resHdr := nofun, resLow := nofun,
    resData := nofun, resI32 := nofun, resU64 := nofun, resBool := nofun }

theorem Alike.lateMove (w k : Nat) (d : List Byte) : Result.alike (a.lateMove w k d) (b.lateMove w k d) := by
  rw [State.lateMove, State.lateMove, ← h.orphans]
  rcases a.orphans[w]? with _ | offered | asked
  · rfl
  · by_cases hk : k ≤ offered.length
    · simp only [if_pos hk]
      exact { h with txs := congrArg (· ++ _) h.txs, orphans := rfl }
    · simp only [if_neg hk]; rfl
  · by_cases hk : k ≤ asked ∧ d.length = k
    · simp only [if_pos hk]
      exact { h with orphans := rfl }
    · simp only [if_neg hk]; rfl

/-! ### Answers -/

/-- Both ask the same count. -/
theorem Alike.asks (r : Int) : ((a.len - a.cnt : Nat) : Int) < r ↔ ((b.len - b.cnt : Nat) : Int) < r := by
  rw [h.len, h.cnt]

theorem Alike.answerTx (hp : a.pend = true) (r : Int) : Result.alike (a.answerTx r) (b.answerTx r) := by
  have hload : b.bufLoad b.cnt r.toNat = a.bufLoad a.cnt r.toNat := by
    rw [State.bufLoad_congr (h.pend_buf hp), h.cnt]
  by_cases h0 : r ≤ 0
  · rw [State.answerTx_nonpositive h0, State.answerTx_nonpositive h0]
    exact h.raise_transport
  rw [State.answerTx, State.answerTx, if_neg h0, if_neg h0]
  by_cases hk : ((a.len - a.cnt : Nat) : Int) < r
  · rw [if_pos hk, if_pos ((h.asks r).mp hk)]; rfl
  rw [if_neg hk, if_neg (mt (h.asks r).mpr hk), hload]
  rcases a.bufLoad a.cnt r.toNat with f | bytes
  · rfl
  · exact h.sent bytes r.toNat

theorem Alike.answerRx (hp : a.pend = true) (r : Int) (d : List Byte) :
    Result.alike (a.answerRx r d) (b.answerRx r d) := by
  by_cases h0 : r ≤ 0
  · rw [State.answerRx_nonpositive h0, State.answerRx_nonpositive h0]
    exact h.raise_transport
  rw [State.answerRx, State.answerRx, if_neg h0, if_neg h0]
  by_cases hk : ((a.len - a.cnt : Nat) : Int) < r
  · rw [if_pos hk, if_pos ((h.asks r).mp hk)]; rfl
  rw [if_neg hk, if_neg (mt (h.asks r).mpr hk)]
  by_cases hd : (d.length : Int) ≠ r
  · rw [if_pos hd, if_pos hd]; rfl
  rw [if_neg hd, if_neg hd, State.bufStore, State.bufStore]
  by_cases hf : fitsBuf (a.cnt + d.length) = true
  · rw [if_pos hf, if_pos (h.cnt ▸ hf)]
    exact h.received (h.pend_buf hp) d r.toNat
  · rw [if_neg hf, if_neg (h.cnt ▸ hf), h.cnt]; rfl

theorem Alike.answer (r : Int) (d : List Byte) : Result.alike (a.answer r d) (b.answer r d) := by
  rw [State.answer, State.answer, ← h.pend, ← h.dir]
  by_cases hp : a.pend = false
  · rw [if_pos hp, if_pos hp]; exact h
  have hp' : a.pend = true := by simpa using hp
  rw [if_neg hp, if_neg hp]
  rcases a.dir with _ | _ | _
  · exact h
  · exact h.answerTx hp' r
  · exact h.answerRx hp' r d

theorem Alike.crossHeader (q : Quad) : Result.alike (a.crossHeader q) (b.crossHeader q) := by
  have hiff : (a.pend = true ∧ a.dir = some .tx ∧ a.buf.readBytes a.cnt 4 ≠ some q.toList) ↔
      (b.pend = true ∧ b.dir = some .tx ∧ b.buf.readBytes b.cnt 4 ≠ some q.toList) := by
    rw [← h.pend, ← h.dir, ← h.cnt]
    exact and_congr_right fun hp => by rw [h.pend_buf hp]
  rw [State.crossHeader, State.crossHeader]
  by_cases hc : a.pend = true ∧ a.dir = some .tx ∧ a.buf.readBytes a.cnt 4 ≠ some q.toList
  · rw [if_pos hc, if_pos (hiff.mp hc)]; rfl
  · rw [if_neg hc, if_neg (mt hiff.mpr hc)]
    exact h.answer 4 q.toList

/-! ### The finish -/

theorem Alike.validate (q : Quad) (role : Role) {ok ok' : State → State} (hok : Alike (ok a) (ok' b)) :
    Alike (a.validate q role ok) (b.validate q role ok') := by
  rcases hm : headerMatches q.le32 role.magic with _ | _
  · rw [State.validate_of_mismatch hm, State.validate_of_mismatch hm]
    exact h.raise_protocol ..
  · rw [State.validate_of_matches hm, State.validate_of_matches hm]
    exact hok

theorem Alike.finishReceive {α : Type} {read : State → Except Fault α} {deliver : State → α → State}
    (hbuf : a.buf = b.buf) (hp : a.pend = false) (hread : read a = read b)
    (hdel : ∀ p, Alike (deliver a p) (deliver b p) ∧ (deliver a p).pend = a.pend) :
    Result.alike (finishReceive read deliver a) (finishReceive read deliver b) := by
  rw [Machine.finishReceive, Machine.finishReceive, State.bufQuad_congr hbuf, hread]
  rcases b.bufQuad 0 with f | q
  · rfl
  rcases read b with f | p
  · rfl
  obtain ⟨hd, hdp⟩ := hdel p
  exact h.validate q .peer (hd.complete (hdp.trans hp))

theorem Alike.finishOf {o : Op} (hb : a.status = .busy) (ho : a.op = o.code) (hp : a.pend = false) :
    Result.alike (finishOf o a) (finishOf o b) := by
  have hbuf := h.buf hb
  cases o with
  | encCmdHdr | encBufHdr | decValHdr => exact h
  | relSend | sendCmd | sendBuf | sendU64 => exact h.complete hp
  | relRecv => exact (h.deliverData hbuf h.len).complete hp
  | recvConfirm =>
    exact h.finishReceive (read := fun _ => .ok ()) (deliver := fun t _ => t) hbuf hp rfl fun _ => ⟨h, rfl⟩
  | recvBuf =>
    exact h.finishReceive (read := fun _ => .ok ()) (deliver := fun t _ => t.deliverData t.argSize) hbuf hp rfl
      fun _ => ⟨h.deliverData hbuf (h.argSize hb ho), rfl⟩
  | recvI32 =>
    exact h.finishReceive (read := fun t => t.bufQuad 4) hbuf hp (State.bufQuad_congr hbuf 4)
      fun p => ⟨h.deliverI32 p, rfl⟩
  | recvU64 =>
    exact h.finishReceive (read := fun t => t.bufLoad 4 8) hbuf hp (State.bufLoad_congr hbuf 4 8)
      fun p => ⟨h.deliverU64 p, rfl⟩
  | recvBool =>
    exact h.finishReceive (read := fun t => t.bufLoad 4 1) hbuf hp (State.bufLoad_congr hbuf 4 1)
      fun p => ⟨h.deliverBool p, rfl⟩

/-! ### FHC's turn -/

/-- The attempt loop of the operation in flight; acceptance does not matter there. -/
theorem Alike.transferStep {o : Op} (hb : a.status = .busy) (ho : a.op = o.code) (acc acc' : State → Result) :
    Result.alike (transferStep o acc (Machine.finishOf o) a) (transferStep o acc' (Machine.finishOf o) b) := by
  have hb' : b.status = .busy := h.status ▸ hb
  have ho' : b.op = o.code := h.op ▸ ho
  rcases hp : a.pend with _ | _
  · have hp' : b.pend = false := h.pend ▸ hp
    rcases Nat.lt_trichotomy a.cnt a.len with hc | hc | hc
    · rw [transferStep_issue hb ho hp hc, transferStep_issue hb' ho' hp' (h.cnt ▸ h.len ▸ hc)]
      exact h.issue hb
    · rw [transferStep_finish hb ho hp hc, transferStep_finish hb' ho' hp' (h.cnt ▸ h.len ▸ hc)]
      exact h.finishOf hb ho hp
    · rw [transferStep_beyond hb hc, transferStep_beyond hb' (h.cnt ▸ h.len ▸ hc)]
      exact h
  · rw [transferStep_wait hb (.inr hp), transferStep_wait hb' (.inr (h.pend ▸ hp))]
    exact h

theorem Alike.fhcTurn : Result.alike (fhcTurn a) (fhcTurn b) := by
  by_cases hb : a.status = .busy
  · have hb' : b.status = .busy := h.status ▸ hb
    rcases ho : Op.ofCode a.op with _ | o
    · rw [fhcTurn_of_undefined ho, fhcTurn_of_undefined (h.op ▸ ho)]
      exact h
    rw [fhcTurn_of_busy hb ho, fhcTurn_of_busy hb' (h.op ▸ ho)]
    by_cases hd : dirOf o = none
    · rw [exec_latched_codec hd a hb, exec_latched_codec hd b hb']
      exact h
    · obtain ⟨acc, e⟩ := exec_latched hd a a
      obtain ⟨acc', e'⟩ := exec_latched hd b b
      rw [e, e']
      exact h.transferStep hb (Op.code_of_ofCode ho).symm acc acc'
  · rw [fhcTurn_of_not_busy hb, fhcTurn_of_not_busy (h.status ▸ hb)]
    exact h

/-! ### The transport's turn -/

theorem Alike.fhcReady : a.fhcReady = b.fhcReady := by
  rw [State.fhcReady, State.fhcReady, h.status, h.pend, h.cnt, h.len]

theorem Alike.transportReady : a.transportReady = b.transportReady := by
  rw [State.transportReady, State.transportReady, h.transportIn, h.pend]

theorem Alike.transportTurn : Result.alike (transportTurn a) (transportTurn b) := by
  rcases hr : a.transportReady with _ | _
  · rw [transportTurn_of_not_ready hr, transportTurn_of_not_ready (h.transportReady ▸ hr)]
    exact h
  rcases hx : a.transportIn with _ | ⟨act, rest⟩ <;> rw [State.transportReady, hx] at hr
  · cases hr
  have hx' : b.transportIn = act :: rest := h.transportIn ▸ hx
  have hrest := h.setTransportIn rest
  cases act with
  | progress r d =>
    rw [transportTurn_progress hx hr, transportTurn_progress hx' (h.pend ▸ hr)]
    exact hrest.answer r d
  | header q =>
    rw [transportTurn_crosses hx hr, transportTurn_crosses hx' (h.pend ▸ hr)]
    exact hrest.crossHeader q
  | late w k d =>
    rw [transportTurn_late hx, transportTurn_late hx']
    exact hrest.lateMove w k d

/-! ### The host's turn -/

theorem Alike.sameConnection : SameConnection a b :=
  ⟨h.txs, h.rxs, h.orphans, h.hostIn, h.transportIn, h.turns⟩

theorem Alike.hostTurn : Result.alike (hostTurn a) (hostTurn b) := by
  rcases hh : a.hostIn with _ | ⟨r | q, rest⟩
  · rw [hostTurn_nil hh, hostTurn_nil (h.hostIn ▸ hh)]
    exact h
  · have hh' : b.hostIn = .read r :: rest := h.hostIn ▸ hh
    rcases hv : a.hostRead r with f | v
    · rw [hostTurn_read_error hh hv, hostTurn_read_error hh' (h.hostRead r ▸ hv)]
      rfl
    · rw [hostTurn_read_ok hh hv, hostTurn_read_ok hh' (h.hostRead r ▸ hv)]
      exact { h.setHostIn rest with }
  · have hh' : b.hostIn = .request q :: rest := h.hostIn ▸ hh
    by_cases hb : a.status = .busy
    · rw [hostTurn_request_busy hh hb, hostTurn_request_busy hh' (h.status ▸ hb)]
      exact h
    have hb' : b.status ≠ .busy := h.status ▸ hb
    rcases hdec : decodeRequest q with why | i
    · rw [hostTurn_malformed hh hb hdec, hostTurn_malformed hh' hb' hdec]
      rfl
    · rw [hostTurn_request hh hb hdec, hostTurn_request hh' hb' hdec]
      exact (h.setHostIn rest).sameConnection.exec hdec hb hb'

/-! ### A step -/

theorem Alike.freeTurn : Result.alike (freeTurn a) (freeTurn b) := by
  rw [Machine.freeTurn, Machine.freeTurn, ← h.fhcReady, ← h.transportReady]
  rcases a.fhcReady with _ | _
  · rcases a.transportReady with _ | _
    · exact h.hostTurn
    · exact h.transportTurn
  · exact h.fhcTurn

theorem Alike.takeTurn (t : Turn) : Result.alike (takeTurn t a) (takeTurn t b) := by
  cases t with
  | reset => exact h.platformReset
  | host => exact h.hostTurn
  | transport => exact h.transportTurn
  | fhc => exact h.fhcTurn

theorem Alike.step : Result.alike (step a) (step b) := by
  rcases hts : a.turns with _ | ⟨t, ts⟩
  · rw [step_of_free hts, step_of_free (h.turns ▸ hts)]
    exact h.freeTurn
  · rw [step_of_turn hts, step_of_turn (h.turns ▸ hts)]
    exact (h.setTurns ts).takeTurn t

end

/-- Settles O49: whoever's turn it is, the two machines' turns are alike, and so are the host's reads. -/
theorem alikeMachinesStayAlike : Obligations.AlikeMachinesStayAlike :=
  fun _ _ h => ⟨h.step, h.hostRead⟩

/-! ### A run -/

/-- Two outcomes that are alike stay so through the rest of two runs. -/
theorem run_alike_of_step {a b : State} {k : Nat} (h : Result.alike (step a) (step b))
    (hrun : ∀ {a' b' : State}, Alike a' b' →
      Result.alike (Host.Core.run Sys2Proof.core k a') (Host.Core.run Sys2Proof.core k b')) :
    Result.alike (Host.Core.run Sys2Proof.core (k + 1) a) (Host.Core.run Sys2Proof.core (k + 1) b) := by
  rcases ha : step a with a' | f | r <;> rcases hb : step b with b' | f' | r' <;> rw [ha, hb] at h
  case next.next => rw [run_succ ha, run_succ hb]; exact hrun h
  case fault.fault => rw [run_fault ha, run_fault hb]; exact h
  case refused.refused => rw [run_refused ha, run_refused hb]; exact h
  all_goals exact h.elim

theorem Alike.run {a b : State} (h : Alike a b) (k : Nat) :
    Result.alike (Host.Core.run Sys2Proof.core k a) (Host.Core.run Sys2Proof.core k b) := by
  induction k generalizing a b with
  | zero => exact h
  | succ k ih => exact run_alike_of_step h.step ih

/-- Settles O45: the acceptance leaves the two machines alike, and a run keeps them so. -/
theorem noMemoryBetweenOperations : Obligations.NoMemoryBetweenOperations := by
  intro s₁ s₂ q rest ts i k h₁ h₂ hdec hh₁ hh₂ hts₁ hts₂ hx horph htx hrx
  have first : Result.alike (step s₁) (step s₂) := by
    rw [step_of_turn hts₁, step_of_turn hts₂, takeTurn, takeTurn,
      hostTurn_request (s := s₁.setTurns ts) hh₁ h₁ hdec, hostTurn_request (s := s₂.setTurns ts) hh₂ h₂ hdec]
    exact SameConnection.exec ⟨htx, hrx, horph, rfl, hx, rfl⟩ hdec h₁ h₂
  have whole := run_alike_of_step (k := k) first fun h => h.run k
  revert whole
  rcases Host.Core.run Sys2Proof.core (k + 1) s₁ with t₁ | f₁ | r₁ <;>
    rcases Host.Core.run Sys2Proof.core (k + 1) s₂ with t₂ | f₂ | r₂
  case next.next => exact fun h : Alike t₁ t₂ => ⟨h.hostRead, h.txs, h.rxs⟩
  all_goals exact id

end Sys2Proof.Machine

/-! SUPPORT. A whole header at the transport port: what each state makes of it (20_memory R55, R56; log 6). -/

namespace Sys2Proof.Machine

/-- An answer larger than the attempt's count has no step, in either direction (R133, R134). -/
theorem State.answer_beyond {s : State} {r : Int} (hp : s.pend = true) (hd : s.dir = some .tx ∨ s.dir = some .rx)
    (h0 : 0 < r) (hr : ((s.len - s.cnt : Nat) : Int) < r) (d : List Byte) :
    s.answer r d = .refused (.answerBeyondCount r) := by
  have hpos : ¬ r ≤ 0 := by omega
  rcases hd with hd | hd
  · rw [State.answer_tx hp hd, State.answerTx, if_neg hpos, if_pos hr]
  · rw [State.answer_rx hp hd, State.answerRx, if_neg hpos, if_pos hr]

section
variable {s : State} {q : Quad}

theorem State.crossHeader_of_no_attempt (h : s.pend = false) (q : Quad) : s.crossHeader q = .next s := by
  rw [State.crossHeader, if_neg (by simp [h]), State.answer_of_no_attempt h]

theorem State.crossHeader_not_offered (hp : s.pend = true) (hd : s.dir = some .tx)
    (hq : s.buf.readBytes s.cnt 4 ≠ some q.toList) : s.crossHeader q = .refused (.headerNotOffered q) :=
  if_pos ⟨hp, hd, hq⟩

/-- Neither a send that offers the header nor a receive takes it when fewer than four bytes are to go. -/
theorem State.crossHeader_beyond (hp : s.pend = true)
    (hd : s.dir = some .tx ∧ s.buf.readBytes s.cnt 4 = some q.toList ∨ s.dir = some .rx) (hc : s.len - s.cnt < 4) :
    s.crossHeader q = .refused (.answerBeyondCount 4) := by
  have hlt : ((s.len - s.cnt : Nat) : Int) < 4 := by omega
  rcases hd with ⟨hd, hq⟩ | hd
  · rw [State.crossHeader_offered hq, State.answer_beyond hp (.inl hd) (by decide) hlt]
  · rw [State.crossHeader_rx hd, State.answer_beyond hp (.inr hd) (by decide) hlt]

/-- A send that offers the header, with four bytes to go, has them accepted (R133). -/
theorem State.crossHeader_sent (hp : s.pend = true) (hd : s.dir = some .tx)
    (hq : s.buf.readBytes s.cnt 4 = some q.toList) (hc : s.cnt + 4 ≤ s.len) (hcap : s.len ≤ Config.bufCapacity) :
    s.crossHeader q = .next ({ s with txs := s.txs ++ q.toList }.advance 4) := by
  have hload : s.bufLoad s.cnt 4 = .ok q.toList := (State.bufLoad_eq_ok ..).mpr ⟨by omega, hq⟩
  rw [State.crossHeader_offered hq, State.answer_tx hp hd]
  exact State.answerTx_progress (k := 4) (by decide) (by omega) hload

end

/-- Settles O36: the row of a header that decodes is that header crossing. -/
theorem headersCrossOnlyAsAnswers : Obligations.HeadersCrossOnlyAsAnswers := by
  intro s i q hdec
  rw [exec_decodedHeader hdec]
  exact ⟨fun hp => State.crossHeader_of_no_attempt hp q, State.crossHeader_not_offered, State.crossHeader_beyond⟩

/-- Settles O48: with no attempt the header stays with the transport; with one it crosses, row or none, from the state
with the turn and the header used up. -/
theorem anyHeaderAtTheTransportsTurn : Obligations.AnyHeaderAtTheTransportsTurn := by
  intro s b0 b1 b2 b3 ts rest hts hx
  have hturn : step s = transportTurn (s.setTurns ts) := step_of_turn hts
  have hcross (hp : s.pend = true) :
      step s = ((s.setTurns ts).setTransportIn rest).crossHeader ⟨b0, b1, b2, b3⟩ :=
    hturn.trans (transportTurn_crosses (s := s.setTurns ts) hx hp)
  refine ⟨fun hp => ?_, fun hp hd hq hc hcap => ?_, fun hp hd hq => ?_, fun hp hd hc => ?_⟩
  · have hready : (s.setTurns ts).transportReady = false := by simp [State.transportReady, hx, hp]
    rw [hturn, transportTurn_of_not_ready hready]
    rfl
  · rw [hcross hp]
    exact State.crossHeader_sent (q := ⟨b0, b1, b2, b3⟩) hp hd hq hc hcap
  · rw [hcross hp]
    exact State.crossHeader_not_offered (q := ⟨b0, b1, b2, b3⟩) hp hd hq
  · rw [hcross hp]
    exact State.crossHeader_beyond (q := ⟨b0, b1, b2, b3⟩) hp hd hc

end Sys2Proof.Machine

/-! SUPPORT. The decoder undoes the encoder, and reads a control word by its fixed bits alone (30_encoding R80 to R100). -/

namespace Sys2Proof

/-! ### The commands of the table (R83) -/

/-- The rows of the command frames: each with the code its header carries (R83). -/
def commandRows : List (Instr × Byte) :=
  [(.frameSendBuffer, 0x00#8), (.frameConfirm, 0x01#8), (.frameGetControlData, 0x02#8), (.frameListApps, 0x03#8),
    (.frameGetActiveUser, 0x04#8), (.frameGetCurrentApp, 0x05#8), (.frameGetVersion, 0x06#8),
    (.frameDisconnect, 0xFF#8)]

/-- A code is read as a command exactly when the table has that row (R83, R95). -/
theorem decodeCommandCode_eq_ok_iff {i : Instr} {code : Byte} :
    decodeCommandCode code = .ok i ↔ (i, code) ∈ commandRows := by
  constructor
  · intro h
    unfold decodeCommandCode at h
    repeat' split at h
    all_goals cases h
    all_goals simp [commandRows, *]
  · have rows : ∀ row ∈ commandRows, decodeCommandCode row.2 = .ok row.1 := by
      simp [commandRows, decodeCommandCode]
    exact rows (i, code)

/-- A row of the table is encoded as the header `{code,0x11,0x22,0x33}` (R82, R83). -/
theorem encode_commandRow {i : Instr} {code : Byte} (h : (i, code) ∈ commandRows) :
    encode i = .header ⟨code, 0x11#8, 0x22#8, 0x33#8⟩ := by
  have rows : ∀ row ∈ commandRows, encode row.1 = .header ⟨row.2, 0x11#8, 0x22#8, 0x33#8⟩ := by decide
  exact rows (i, code) h

/-! ### Decoding an encoding -/

/-- The request built for an operation is read as that operation with its operands. -/
theorem decode_request (o : Op) (code : Byte) (role : Role) (hdr : Quad) (size : Nat) (data : List Byte)
    (val : BitVec 64) :
    decode (o.request code role hdr size data val) = o.instr ⟨controlWord o role.bit code, hdr, size, data, val⟩ :=
  decodeRequest_controlWord ..

/-- Decoding undoes encoding, for an oversize operand too: the size is checked at acceptance alone (R100). -/
theorem decode_encode (i : Instr) : decode (encode i) = .ok i := by
  cases i with
  | encCmdHdr | encBufHdr | decValHdr | relSend | relRecv | sendCmd | recvConfirm | recvBuf | sendBuf | sendU64
  | recvI32 | recvU64 | recvBool => simp [encode, decode_request, Op.instr]
  | frameSendBuffer | frameConfirm | frameGetControlData | frameListApps | frameGetActiveUser | frameGetCurrentApp
  | frameGetVersion | frameDisconnect => rfl
  | framePeer low => exact Machine.decodeHeader_peer low

/-- Settles O5: decoding undoes encoding for every instruction, well formed or not. -/
theorem decodeOfEncodeIsTheInstruction : Obligations.DecodeOfEncodeIsTheInstruction := fun i _ => decode_encode i

/-- Settles O6: a header that decodes is a peer's or a row's of the table; conversely decoding undoes encoding. -/
theorem headerDecodesOnlyToItsOwnEncoding : Obligations.HeaderDecodesOnlyToItsOwnEncoding := by
  intro q i
  constructor
  · intro h
    rcases Machine.decodeHeader_eq_ok h with ⟨hq, rfl⟩ | ⟨hq, hcode⟩ <;> rw [hq]
    · rfl
    · exact encode_commandRow (decodeCommandCode_eq_ok_iff.mp hcode)
  · intro h
    have hdec := decode_encode i
    rwa [h] at hdec

/-! ### Control words -/

/-- `ROLE` is bit 4 of the control word (R97). -/
theorem Request.ofBit_role (r : Request) : Role.ofBit r.role = if r.word.getLsbD 4 then .peer else .client := by
  have hbit : r.role = BitVec.ofBool (r.word.getLsbD 4) := by
    refine BitVec.eq_of_getLsbD_eq fun i hi => ?_
    obtain rfl : i = 0 := by omega
    simp [Request.role]
  rw [hbit]
  cases r.word.getLsbD 4 <;> rfl

/-- Settles O7: the fixed bits name the operation, and its operands are read off the request. -/
theorem controlWordNamesItsOperation : Obligations.ControlWordNamesItsOperation := by
  intro r
  refine ⟨decodeRequest_of_fixed r .encCmdHdr, decodeRequest_of_fixed r .encBufHdr, fun h => ?_,
    decodeRequest_of_fixed r .relSend, decodeRequest_of_fixed r .relRecv, decodeRequest_of_fixed r .sendCmd,
    decodeRequest_of_fixed r .recvConfirm, decodeRequest_of_fixed r .recvBuf, decodeRequest_of_fixed r .sendBuf,
    decodeRequest_of_fixed r .sendU64, decodeRequest_of_fixed r .recvI32, decodeRequest_of_fixed r .recvU64,
    decodeRequest_of_fixed r .recvBool, decodeRequest_reserved r⟩
  rw [decodeRequest_of_fixed r .decValHdr h, Op.instr, Request.ofBit_role]

/-- Settles O4: the eleven words are read by evaluation. -/
theorem wordsOfTheSpecDecodeAsItSays : Obligations.WordsOfTheSpecDecodeAsItSays :=
  ⟨rfl, rfl, rfl, rfl, rfl, rfl, rfl, rfl, rfl, rfl, rfl⟩

end Sys2Proof

/-! SUPPORT. The acceptance of each transfer, as one equation, and what the host's port refuses (30_encoding R97, R100). -/

namespace Sys2Proof.Machine

/-! ### What acceptance answers -/

section
variable {s : State} (hb : s.status ≠ .busy)
include hb

theorem transferStep_unsized {o : Op} {f : State → State} {fin : State → Result} :
    transferStep o (fun t => .next (f t)) fin s = .next (f s) :=
  transferStep_of_not_busy hb

/-- `SIZE` within the bound is latched (R97). -/
theorem transferStep_sized {o : Op} {n : Nat} {f : State → State} {fin : State → Result}
    (hn : n ≤ Config.maxPayload) :
    transferStep o (acceptSized n f) fin s = .next { f s with argSize := n } := by
  rw [transferStep_of_not_busy hb, acceptSized_of_le hn]

/-- `SIZE` beyond the bound is refused (R100). -/
theorem transferStep_oversize {o : Op} {n : Nat} {f : State → State} {fin : State → Result}
    (hn : Config.maxPayload < n) :
    transferStep o (acceptSized n f) fin s = .refused (.oversizePayload n) := by
  rw [transferStep_of_not_busy hb, acceptSized_of_lt hn]

theorem exec_relSend_accepted {data : List Byte} (hn : data.length ≤ Config.maxPayload) :
    exec (.relSend data) s = .next { s.acceptSend .relSend data with argSize := data.length } :=
  transferStep_sized hb hn

theorem exec_sendBuf_accepted {data : List Byte} (hn : data.length ≤ Config.maxPayload) :
    exec (.sendBuf data) s = .next { s.acceptSend .sendBuf (bufferFrame data) with argSize := data.length } :=
  transferStep_sized hb hn

theorem exec_sendCmd_accepted (code : Byte) :
    exec (.sendCmd code) s =
      .next { s.acceptSend .sendCmd [code, 0x11#8, 0x22#8, 0x33#8] with argCode := code } := by
  rw [exec, execSendCmd, transferStep_of_not_busy hb, commandHeaderBytes_eq, Quad.toList]

theorem exec_sendU64_accepted (v : BitVec 64) :
    exec (.sendU64 v) s =
      .next { s.acceptSend .sendU64 (bufferFrame ((List.range 8).map fun i => v.extractLsb' (8 * i) 8)) with
        argVal := v } := by
  rw [exec, execSendU64, transferStep_of_not_busy hb, bytesLe_eight]

end

/-- Settles O18: the frame each acceptance builds is the one it writes to the fresh `BUF`. -/
theorem sendAcceptanceBuildsTheWholeFrame : Obligations.SendAcceptanceBuildsTheWholeFrame := by
  intro s code data v hb
  refine ⟨fun hn => ?_, ?_, fun hn => ?_, ?_⟩
  · exact ⟨_, exec_relSend_accepted hb hn, rfl, rfl, rfl, rfl, Memory.get_ofBytes _⟩
  · exact ⟨_, exec_sendCmd_accepted hb code, rfl, rfl, rfl, rfl, Memory.get_ofBytes _⟩
  · have h := exec_sendBuf_accepted hb hn
    rw [bufferFrame_eq] at h
    exact ⟨_, h, rfl, rfl, rfl, rfl, Memory.get_ofBytes _⟩
  · have h := exec_sendU64_accepted hb v
    rw [bufferFrame_eq] at h
    exact ⟨_, h, rfl, rfl, rfl, rfl, Memory.get_ofBytes _⟩

/-- Settles O19: with nothing in flight each receive is accepted, `SIZE` checked where it is used. -/
theorem receiveAcceptanceAwaitsTheWholeFrame : Obligations.ReceiveAcceptanceAwaitsTheWholeFrame := by
  intro s n hb
  exact ⟨transferStep_sized hb, transferStep_unsized (f := (·.acceptReceive .recvConfirm 4)) hb, transferStep_sized hb,
    transferStep_unsized (f := (·.acceptReceive .recvI32 8)) hb,
    transferStep_unsized (f := (·.acceptReceive .recvU64 12)) hb,
    transferStep_unsized (f := (·.acceptReceive .recvBool 5)) hb⟩

/-- Settles O20: both operations of each pair build the same frame. -/
theorem sendU64IsSendBufOfItsBytes : Obligations.SendU64IsSendBufOfItsBytes := by
  intro s v hb
  have hmax := Config.payload_least
  constructor
  · exact ⟨_, _, exec_sendU64_accepted hb v, exec_sendBuf_accepted hb (by simp; omega), rfl⟩
  · have hempty : bufferFrame [] = [0x00#8, 0x11#8, 0x22#8, 0x33#8] := bufferFrame_eq []
    have h := exec_sendBuf_accepted (data := []) hb (Nat.zero_le _)
    rw [hempty] at h
    exact ⟨_, _, exec_sendCmd_accepted hb 0x00#8, h, rfl⟩

/-! ### The host's turn -/

/-- With no turn laid down the host moves when nothing is in flight and the transport has no move (log 2). -/
theorem freeTurn_host {s : State} (hb : s.status ≠ .busy) (ht : s.transportReady = false) :
    freeTurn s = hostTurn s := by
  simp [freeTurn, State.fhcReady, hb, ht]

/-- At the host's turn a decoded request runs on the state less that request and that turn (R97). -/
theorem step_request {s : State} {ts : List Turn} {q : Request} {rest : List HostAct} {i : Instr}
    (hts : s.turns = .host :: ts) (hh : s.hostIn = .request q :: rest) (hb : s.status ≠ .busy)
    (hdec : decodeRequest q = .ok i) : step s = exec i ((s.setTurns ts).setHostIn rest) :=
  (step_of_turn hts).trans (hostTurn_request (s := s.setTurns ts) hh hb hdec)

/-- Settles O9: the step is the host's turn, which runs the decoded request. -/
theorem stepRunsTheDecodedRequest : Obligations.StepRunsTheDecodedRequest := by
  intro s q rest i hh hb hdec
  refine ⟨fun _ hts => step_request hts hh hb hdec, fun hts ht => ?_⟩
  rw [step_of_free hts, freeTurn_host hb ht, hostTurn_request hh hb hdec]

/-- Settles O12: the host's turn leaves a request that is offered while `BUSY`. -/
theorem requestWaitsWhileBusy : Obligations.RequestWaitsWhileBusy := fun s _ ts _ hts hh hb =>
  (step_of_turn hts).trans (hostTurn_request_busy (s := s.setTurns ts) hh hb)

/-- Settles O8: the host's turn refuses what does not decode, and a decoded request of an oversize `SIZE` is refused at
its acceptance. -/
theorem malformedRequestsAreRefused : Obligations.MalformedRequestsAreRefused := by
  intro s ts q rest hts hh hb
  have hmal {why : Reject} (h : decodeRequest q = .error why) : step s = .refused (.malformedRequest why) :=
    (step_of_turn hts).trans (hostTurn_malformed (s := s.setTurns ts) hh hb h)
  have hrun {i : Instr} (h : decodeRequest q = .ok i) : step s = exec i ((s.setTurns ts).setHostIn rest) :=
    step_request hts hh hb h
  have hb' : ((s.setTurns ts).setHostIn rest).status ≠ .busy := hb
  refine ⟨fun _ => hmal, fun h => ?_, ?_, fun hsize => ?_⟩
  · obtain ⟨why, hwhy⟩ := decodeRequest_reserved q h
    exact ⟨why, hmal hwhy⟩
  · rintro (hw | hw) hlen
    · exact hmal ((decodeRequest_of_fixed q .relSend hw).trans (if_neg hlen))
    · exact hmal ((decodeRequest_of_fixed q .sendBuf hw).trans (if_neg hlen))
  · rintro (⟨hw | hw, hlen⟩ | hw | hw)
    · rw [hrun ((decodeRequest_of_fixed q .relSend hw).trans (if_pos hlen)), ← hlen]
      exact transferStep_oversize hb' (hlen ▸ hsize)
    · rw [hrun ((decodeRequest_of_fixed q .sendBuf hw).trans (if_pos hlen)), ← hlen]
      exact transferStep_oversize hb' (hlen ▸ hsize)
    · rw [hrun (decodeRequest_of_fixed q .relRecv hw)]
      exact transferStep_oversize hb' hsize
    · rw [hrun (decodeRequest_of_fixed q .recvBuf hw)]
      exact transferStep_oversize hb' hsize

/-! ### Headers on the wire (30_encoding R84 to R96; log 6) -/

/-- A command's row carries its header across. -/
theorem exec_commandRow {i : Instr} {code : Byte} (h : (i, code) ∈ commandRows) (s : State) :
    exec i s = s.crossHeader ⟨code, 0x11#8, 0x22#8, 0x33#8⟩ := by
  refine exec_decodedHeader ?_ s
  rw [decodeHeader_client, decodeCommandCode_eq_ok_iff.mpr h]

/-- Settles O34: the row's header crosses, and the send offers it. -/
theorem commandHeadersLeaveOnTheWire : Obligations.CommandHeadersLeaveOnTheWire := by
  intro s i code hp hd hc hcap hq hrow
  rw [exec_commandRow hrow]
  exact State.crossHeader_sent hp hd hq hc hcap

/-- A receive that asks four bytes or more takes any header as its next four (R134). -/
theorem State.crossHeader_received {s : State} (hp : s.pend = true) (hd : s.dir = some .rx) (hc : s.cnt + 4 ≤ s.len)
    (hcap : s.len ≤ Config.bufCapacity) (q : Quad) :
    ∃ t, s.crossHeader q = .next t ∧
      t = { s with rxs := s.rxs ++ q.toList, cnt := s.cnt + 4, pend := false, buf := t.buf } ∧
      ∀ a, t.buf.get a = if s.cnt ≤ a ∧ a < s.cnt + 4 then q.toList[a - s.cnt]? else s.buf.get a := by
  rw [State.crossHeader_rx hd, State.answer_rx hp hd]
  have hlen : q.toList.length = 4 := q.toList_length
  exact ⟨_, State.answerRx_progress (d := q.toList) (by omega) (by omega) (by omega), rfl,
    Memory.get_writeBytes q.toList s.buf s.cnt⟩

/-- Settles O35: the peer's row, a command's row and the transport's turn all carry their header across. -/
theorem headersReachAReceiveUncompared : Obligations.HeadersReachAReceiveUncompared := by
  intro s hp hd hc hcap
  refine ⟨fun low => ?_, fun i code hrow => ?_, fun b0 b1 b2 b3 ts rest hts hx => ?_⟩
  · rw [exec_decodedHeader (decodeHeader_peer low)]
    exact State.crossHeader_received hp hd hc hcap _
  · rw [exec_commandRow hrow]
    exact State.crossHeader_received hp hd hc hcap _
  · have hturn : step s = transportTurn (s.setTurns ts) := step_of_turn hts
    rw [hturn, transportTurn_crosses (s := s.setTurns ts) hx hp]
    exact State.crossHeader_received (s := (s.setTurns ts).setTransportIn rest) hp hd hc hcap ⟨b0, b1, b2, b3⟩

end Sys2Proof.Machine

/-! SUPPORT. The accepting step of each codec operation, as one equation (40_framecodec R110 to R115). -/

namespace Sys2Proof.Machine

/-! ### The header test -/

/-- Masked with `HDR_MASK`, a value keeps no bit of its low byte (R113). -/
theorem lowByte_masked (v : BitVec 32) : lowByte (v &&& hdrMask) = 0x00#8 := by
  have hmask : hdrMask.extractLsb' 0 8 = 0x00#8 := by decide
  rw [lowByte, BitVec.extractLsb'_and, hmask, BitVec.and_zero]

/-- Both role magics have low byte zero (R21). -/
theorem lowByte_magic (role : Role) : lowByte role.magic = 0x00#8 := by
  cases role <;> decide

/-- A command header is no peer's: the role magics differ (R114). -/
theorem headerMatches_peer_commandHeader (c : Byte) :
    headerMatches (Quad.le32 ⟨c, 0x11#8, 0x22#8, 0x33#8⟩) Role.peer.magic = false := by
  rw [Bool.eq_false_iff, ne_eq, headerMatches_peer]
  simp

/-- A command header is a client's, whatever its code (R114). -/
theorem headerMatches_client_commandHeader (c : Byte) :
    headerMatches (Quad.le32 ⟨c, 0x11#8, 0x22#8, 0x33#8⟩) Role.client.magic = true :=
  (headerMatches_client _).mpr ⟨rfl, rfl, rfl⟩

/-- Settles O17: what the test compares with `e` has low byte zero. -/
theorem expectedLowByteRejectsEveryHeader : Obligations.ExpectedLowByteRejectsEveryHeader := by
  refine ⟨fun v e => ⟨decide_eq_true_iff, fun he => ?_⟩, lowByte_magic⟩
  refine decide_eq_false fun h : v &&& hdrMask = e => he ?_
  rw [← h, lowByte_masked]

/-! ### What the accepting step leaves -/

section
variable {s : State} (hb : s.status ≠ .busy)
include hb

theorem exec_encCmdHdr_accepted (code : Byte) :
    exec (.encCmdHdr code) s =
      .next (State.deliverHeader { s.accept .encCmdHdr 0 with argCode := code } ⟨code, 0x11#8, 0x22#8, 0x33#8⟩) := by
  rw [exec, execEncCmdHdr, codecStep_of_not_busy hb, commandHeaderBytes_eq]

theorem exec_encBufHdr_accepted :
    exec .encBufHdr s = .next ((s.accept .encBufHdr 0).deliverHeader ⟨0x00#8, 0x11#8, 0x22#8, 0x33#8⟩) := by
  rw [exec, execEncBufHdr, codecStep_of_not_busy hb, bufferHeaderBytes_eq]

/-- A header that passes the test: its byte 0 is the result (R112). -/
theorem exec_decValHdr_of_matches {q : Quad} {role : Role} (h : headerMatches q.le32 role.magic = true) :
    exec (.decValHdr q role) s =
      .next (State.deliverLow { s.accept .decValHdr 0 with argHdr := q, argRole := role } q.b0) := by
  rw [exec, execDecValHdr, codecStep_of_not_busy hb, State.validate_of_matches h, Quad.lowByte_le32]

/-- A header that fails the test: its bytes 1 to 3 and those expected are recorded (R112, R202). -/
theorem exec_decValHdr_of_mismatch {q : Quad} {role : Role} (h : headerMatches q.le32 role.magic = false) :
    exec (.decValHdr q role) s =
      .next (State.raise { s.accept .decValHdr 0 with argHdr := q, argRole := role }
        (.protocol (q.b3 ++ q.b2 ++ q.b1) (top24 role.magic))) := by
  rw [exec, execDecValHdr, codecStep_of_not_busy hb, State.validate_of_mismatch h, Quad.top24_le32]

end

/-- Settles O13: the fixed bits name the operation, and its accepting step delivers the header. -/
theorem encCmdHdrGivesTheCommandHeader : Obligations.EncCmdHdrGivesTheCommandHeader :=
  ⟨fun r => decodeRequest_of_fixed r .encCmdHdr, fun code _ hb => ⟨_, exec_encCmdHdr_accepted hb code, rfl⟩⟩

/-- Settles O14: as for O13, with the constant header. -/
theorem encBufHdrGivesTheBufferHeader : Obligations.EncBufHdrGivesTheBufferHeader :=
  ⟨fun r => decodeRequest_of_fixed r .encBufHdr, fun _ hb => ⟨_, exec_encBufHdr_accepted hb, rfl⟩⟩

/-- Settles O15: for each role the header test is the comparison of bytes 1 to 3, and decides between the two
outcomes. -/
theorem decValHdrAcceptsOrRecordsTheMismatch : Obligations.DecValHdrAcceptsOrRecordsTheMismatch := by
  refine ⟨fun r h => ?_, fun b0 b1 b2 b3 role s hb => ?_⟩
  · rw [decodeRequest_of_fixed r .decValHdr h, Op.instr, Request.ofBit_role]
  · intro accepted matching expected
    have htest : headerMatches (Quad.le32 ⟨b0, b1, b2, b3⟩) role.magic = true ↔ matching := by
      cases role with
      | client => exact headerMatches_client _
      | peer => exact headerMatches_peer _
    have hexp : top24 role.magic = expected := by cases role <;> decide
    refine ⟨fun h => ⟨_, exec_decValHdr_of_matches hb (htest.mpr h), rfl⟩, fun h => ?_⟩
    have hraise := exec_decValHdr_of_mismatch hb (Bool.eq_false_iff.mpr (mt htest.mp h))
    rw [hexp] at hraise
    exact ⟨_, hraise, rfl⟩

/-- Settles O16: the header `ENC_CMD_HDR` leaves passes the client's test and fails the peer's. -/
theorem encodedHeaderDecodesUnderClientOnly : Obligations.EncodedHeaderDecodesUnderClientOnly := by
  intro c s hb
  have hclient := headerMatches_client_commandHeader c
  have hpeer := headerMatches_peer_commandHeader c
  have hdone (t : State) (q : Quad) : (t.deliverHeader q).status ≠ .busy := by simp
  have hobs : (0x33#8 ++ 0x22#8 ++ 0x11#8 : BitVec 24) = 0x332211#24 := by decide
  have hexp : top24 Role.peer.magic = 0x112233#24 := by decide
  exact ⟨_, _, _, exec_encCmdHdr_accepted hb c, of_decide_eq_true hclient,
    exec_decValHdr_of_matches (hdone _ _) hclient, rfl, rfl,
    exec_decValHdr_of_mismatch (hdone _ _) hpeer, rfl, hobs, hexp⟩

end Sys2Proof.Machine

/-! SUPPORT. The steps of the attempt loop at each agent's turn: issue, answer, finish (41_transportio R132 to R136,
R139). -/

namespace Sys2Proof.Machine

/-! ### FHC's turn -/

/-- Settles O11: FHC's turn runs the latched operation, and with no turn laid down FHC moves first. -/
theorem stepRunsTheOperationInFlight : Obligations.StepRunsTheOperationInFlight := by
  intro s o hb ho
  have hof : Op.ofCode s.op = some o := by rw [ho, Op.ofCode_code]
  refine ⟨fun ts hts => ?_, fun hts hp hc => ?_⟩
  · exact (step_of_turn hts).trans (fhcTurn_of_busy (s := s.setTurns ts) hb hof)
  · rw [step_of_free hts, freeTurn_fhc hb hp hc, fhcTurn_of_busy hb hof]

/-- At FHC's turn, with no attempt outstanding, the operation in flight issues or finishes (R132, R135). -/
theorem fhcTurn_own {s : State} {o : Op} (hb : s.status = .busy) (ho : s.op = o.code) (hp : s.pend = false)
    (hd : dirOf o ≠ none) :
    (s.cnt < s.len → fhcTurn s = .next s.issue) ∧ (s.cnt = s.len → fhcTurn s = finishOf o s) := by
  have hof : Op.ofCode s.op = some o := by rw [ho, Op.ofCode_code]
  obtain ⟨acc, h⟩ := exec_latched hd s s
  rw [fhcTurn_of_busy hb hof, h]
  exact ⟨transferStep_issue hb ho hp, transferStep_finish hb ho hp⟩

/-- Settles O24: FHC's turn issues below `LEN`, and at `LEN` the finish is never stuck. -/
theorem fhcIsNeverStuck : Obligations.FhcIsNeverStuck := by
  intro s ts hI hb hp hts
  have hstep : step s = fhcTurn (s.setTurns ts) := step_of_turn hts
  obtain ⟨o, hof, hd, _⟩ := hI.busy_op hb
  have ho : s.op = o.code := (Op.code_of_ofCode hof).symm
  obtain ⟨hissue, hfinish⟩ := fhcTurn_own (s := s.setTurns ts) hb ho hp hd
  rcases hI.cnt_le_len.lt_or_eq with hc | hc
  · exact .inl ⟨hc, hstep.trans (hissue hc)⟩
  · have hI' : Invariants (s.setTurns ts) := hI.of_outside rfl
    obtain ⟨t, ht, hfin⟩ := finishOf_next hI' hb ho hp hc
    exact .inr ⟨hc, t, by rw [hstep, hfinish hc, ht], hfin.status.imp And.left And.left⟩

/-- The operation of an instruction that moves bytes (R99; 41_transportio, before R132). -/
def Instr.transferOp : Instr → Option Op
  | .relSend _ => some .relSend
  | .relRecv _ => some .relRecv
  | .sendCmd _ => some .sendCmd
  | .recvConfirm => some .recvConfirm
  | .recvBuf _ => some .recvBuf
  | .sendBuf _ => some .sendBuf
  | .sendU64 _ => some .sendU64
  | .recvI32 => some .recvI32
  | .recvU64 => some .recvU64
  | .recvBool => some .recvBool
  | _ => none

/-- Whatever its operands, such an instruction runs the shared attempt loop with its operation's finish. -/
theorem exec_transferOp {i : Instr} {o : Op} (h : Instr.transferOp i = some o) (s : State) :
    ∃ acc, exec i s = transferStep o acc (finishOf o) s := by
  cases i with
  | relSend => cases h; rw [exec, execRelSend]; exact ⟨_, rfl⟩
  | relRecv => cases h; rw [exec, execRelRecv]; exact ⟨_, rfl⟩
  | sendCmd => cases h; rw [exec, execSendCmd]; exact ⟨_, rfl⟩
  | recvConfirm => cases h; rw [exec, execRecvConfirm]; exact ⟨_, rfl⟩
  | recvBuf => cases h; rw [exec, execRecvBuf]; exact ⟨_, rfl⟩
  | sendBuf => cases h; rw [exec, execSendBuf]; exact ⟨_, rfl⟩
  | sendU64 => cases h; rw [exec, execSendU64]; exact ⟨_, rfl⟩
  | recvI32 => cases h; rw [exec, execRecvI32]; exact ⟨_, rfl⟩
  | recvU64 => cases h; rw [exec, execRecvU64]; exact ⟨_, rfl⟩
  | recvBool => cases h; rw [exec, execRecvBool]; exact ⟨_, rfl⟩
  | encCmdHdr | encBufHdr | decValHdr | frameSendBuffer | frameConfirm | frameGetControlData | frameListApps
  | frameGetActiveUser | frameGetCurrentApp | frameGetVersion | frameDisconnect | framePeer => cases h

/-- Settles O21: each of the ten operations issues by the one rule of the shared loop. -/
theorem issueStepSetsOnlyPend : Obligations.IssueStepSetsOnlyPend := by
  intro s data n code v hb hp hc
  have issues {i : Instr} {o : Op} (hi : Instr.transferOp i = some o) (ho : s.op = o.code) :
      exec i s = .next s.issue := by
    obtain ⟨acc, h⟩ := exec_transferOp hi s
    rw [h, transferStep_issue hb ho hp hc]
  exact ⟨issues (o := .relSend) rfl, issues (o := .relRecv) rfl, issues (o := .sendCmd) rfl,
    issues (o := .recvConfirm) rfl, issues (o := .recvBuf) rfl, issues (o := .sendBuf) rfl,
    issues (o := .sendU64) rfl, issues (o := .recvI32) rfl, issues (o := .recvU64) rfl, issues (o := .recvBool) rfl⟩

/-- Settles O25: each of the five operations ends by its own finish. -/
theorem sendsAndRelRecvFinishDoneOk : Obligations.SendsAndRelRecvFinishDoneOk := by
  intro s data n code v hb hp hc
  have finishes {i : Instr} {o : Op} (hi : Instr.transferOp i = some o) (ho : s.op = o.code) :
      exec i s = finishOf o s := by
    obtain ⟨acc, h⟩ := exec_transferOp hi s
    rw [h, transferStep_finish hb ho hp hc]
  exact ⟨finishes (o := .relSend) rfl, finishes (o := .sendCmd) rfl, finishes (o := .sendBuf) rfl,
    finishes (o := .sendU64) rfl, finishes (o := .relRecv) rfl⟩

/-! ### The transport's turn -/

/-- Settles O10: the transport's turn runs the header it carries. -/
theorem stepRunsTheDecodedHeader : Obligations.StepRunsTheDecodedHeader := fun s _ ts _ _ hts hx hp hdec =>
  (step_of_turn hts).trans (transportTurn_header (s := s.setTurns ts) hx hp hdec)

section
variable {s : State} (hp : s.pend = true)
include hp

/-- A positive answer to a send within the count asked: the first `k` offered bytes are sent (R133). -/
theorem State.answer_sent {k : Nat} {bytes : List Byte} (hd : s.dir = some .tx) (hcap : s.len ≤ Config.bufCapacity)
    (h0 : 0 < k) (hk : k ≤ s.len - s.cnt) (hread : s.buf.readBytes s.cnt k = some bytes) (d : List Byte) :
    s.answer k d = .next ({ s with txs := s.txs ++ bytes }.advance k) := by
  rw [State.answer_tx hp hd]
  exact State.answerTx_progress h0 hk ((State.bufLoad_eq_ok ..).mpr ⟨by omega, hread⟩)

/-- A positive answer to a receive within the count asked, with as many bytes as it says (R134). -/
theorem State.answer_received {d : List Byte} (hd : s.dir = some .rx) (hcap : s.len ≤ Config.bufCapacity)
    (h0 : 0 < d.length) (hk : d.length ≤ s.len - s.cnt) :
    s.answer d.length d =
      .next ({ s with rxs := s.rxs ++ d, buf := s.buf.writeBytes s.cnt d }.advance d.length) := by
  rw [State.answer_rx hp hd]
  exact State.answerRx_progress h0 hk (by omega)

/-- A non-positive answer is a TransportError, in either direction (R133, R134, R201). -/
theorem State.answer_nonpositive {r : Int} (hd : s.dir = some .tx ∨ s.dir = some .rx) (h0 : r ≤ 0) (d : List Byte) :
    s.answer r d = .next (s.raise .transport) := by
  rcases hd with hd | hd
  · rw [State.answer_tx hp hd, State.answerTx_nonpositive h0]
  · rw [State.answer_rx hp hd, State.answerRx_nonpositive h0]

/-- A positive answer to a receive whose bytes are not as many as it says has no step (R56; log 5). -/
theorem State.answer_not_count_bytes {r : Int} {d : List Byte} (hd : s.dir = some .rx) (h0 : 0 < r)
    (hr : ¬ ((s.len - s.cnt : Nat) : Int) < r) (hlen : (d.length : Int) ≠ r) :
    s.answer r d = .refused (.answerNotCountBytes r) := by
  rw [State.answer_rx hp hd, State.answerRx, if_neg (by omega), if_neg hr, if_pos hlen]

/-- At the transport's turn its answer meets the outstanding attempt (R133, R134). -/
theorem step_progress {ts : List Turn} {r : Int} {d : List Byte} {rest : List TransportAct}
    (hts : s.turns = .transport :: ts) (hx : s.transportIn = .progress r d :: rest) :
    step s = ((s.setTurns ts).setTransportIn rest).answer r d :=
  (step_of_turn hts).trans (transportTurn_progress (s := s.setTurns ts) hx hp)

end

/-- Settles O22: the answer to a send is within the count asked, not positive, or beyond it. -/
theorem answerStepForASend : Obligations.AnswerStepForASend := by
  intro s ts r d rest hts hx hp hd hcap
  have hp' : ((s.setTurns ts).setTransportIn rest).pend = true := hp
  rw [step_progress hp hts hx]
  refine ⟨fun bytes h1 hr hread => ?_, fun h0 => State.answer_nonpositive hp' (.inl hd) h0 d,
    fun hr h1 => ⟨_, State.answer_beyond hp' (.inl hd) h1 hr d⟩⟩
  obtain ⟨k, rfl⟩ : ∃ k : Nat, r = k := Int.eq_ofNat_of_zero_le (by omega)
  exact State.answer_sent hp' hd hcap (Int.ofNat_lt.mp h1) (Int.ofNat_le.mp hr) hread d

/-- Settles O23: the answer to a receive is within the count asked and of as many bytes as it says, not positive, or
outside the contract. -/
theorem answerStepForAReceive : Obligations.AnswerStepForAReceive := by
  intro s ts r d rest hts hx hp hd hcap
  have hp' : ((s.setTurns ts).setTransportIn rest).pend = true := hp
  rw [step_progress hp hts hx]
  refine ⟨fun h1 hr hlen => ?_, fun h0 => State.answer_nonpositive hp' (.inr hd) h0 d, fun h1 hout => ?_⟩
  · subst hlen
    exact ⟨_, State.answer_received hp' hd hcap (Int.ofNat_lt.mp h1) (Int.ofNat_le.mp hr), rfl,
      Memory.get_writeBytes d s.buf s.cnt⟩
  · by_cases hr : ((s.len - s.cnt : Nat) : Int) < r
    · exact ⟨_, State.answer_beyond hp' (.inr hd) h1 hr d⟩
    · exact ⟨_, State.answer_not_count_bytes hp' hd h1 hr (hout.resolve_left hr)⟩

/-! ### Blocked and empty transfers -/

/-- While an attempt is outstanding FHC has no step of its own (R27). -/
theorem fhcTurn_of_pend {s : State} (hp : s.pend = true) : fhcTurn s = .next s := by
  rcases fhcTurn_cases s with h | ⟨_, _, _, hp', _⟩
  · exact h
  · exact absurd (hp'.symm.trans hp) nofun

/-- With an attempt outstanding and no move of host or transport to come, no turn but a reset changes anything
(R139). -/
theorem step_blocked {s : State} (hp : s.pend = true) (hx : s.transportIn = []) (hh : s.hostIn = [])
    (hr : .reset ∉ s.turns) : step s = .next (s.setTurns (s.turns.drop 1)) := by
  have hready : s.transportReady = false := by rw [State.transportReady, hx]
  rcases hts : s.turns with _ | ⟨t, ts⟩
  · rw [step_of_free hts, freeTurn_of_pend hp, hready, if_neg nofun, hostTurn_nil hh, List.drop_nil, ← hts]
    rfl
  · rw [step_of_turn hts]
    cases t with
    | reset => exact absurd (hts ▸ List.mem_cons_self) hr
    | host => exact hostTurn_nil (s := s.setTurns ts) hh
    | transport => exact transportTurn_of_not_ready (s := s.setTurns ts) hready
    | fhc => exact fhcTurn_of_pend (s := s.setTurns ts) hp

/-- Settles O29: one turn after another leaves the blocked state. -/
theorem blockedAttemptStaysBlocked : Obligations.BlockedAttemptStaysBlocked := by
  intro s k hb hp hx hh hr
  induction k generalizing s with
  | zero => rfl
  | succ k ih =>
    have hrest : .reset ∉ (s.setTurns (s.turns.drop 1)).turns := fun h => hr (List.mem_of_mem_drop h)
    rw [run_succ (step_blocked hp hx hh hr), ih (s.setTurns (s.turns.drop 1)) hb hp hx hh hrest,
      State.setTurns_turns, List.drop_drop, Nat.add_comm 1 k]
    rfl

end Sys2Proof.Machine

/-! SUPPORT. Runs of the attempt loop: the answers that move it on, and its three ends (41_transportio R137 to R141). -/

namespace Sys2Proof.Machine

/-! ### Runs -/

/-- Some number of steps takes the machine from `s` to `t`. -/
def Reaches (s t : State) : Prop := ∃ n, Host.Core.run Sys2Proof.core n s = .next t

theorem Reaches.refl (s : State) : Reaches s s := ⟨0, rfl⟩

theorem Reaches.of_step {s t u : State} (h : step s = .next t) (htu : Reaches t u) : Reaches s u := by
  obtain ⟨n, hn⟩ := htu
  exact ⟨n + 1, (run_succ h n).trans hn⟩

theorem Reaches.trans {s t u : State} (hst : Reaches s t) (htu : Reaches t u) : Reaches s u := by
  obtain ⟨j, hj⟩ := hst
  obtain ⟨k, hk⟩ := htu
  exact ⟨j + k, (run_add Sys2Proof.core j k hj).trans hk⟩

/-- What every step keeps, a run keeps (R34). -/
theorem invariants_run {n : Nat} {s t : State} (hI : Invariants s) (h : Host.Core.run Sys2Proof.core n s = .next t) :
    Invariants t := by
  induction n generalizing s with
  | zero => cases h; exact hI
  | succ n ih =>
    rcases hs : step s with u | f | r
    · exact ih (everyStepKeepsTheInvariants s u hI hs) ((run_succ hs n).symm.trans h)
    · exact absurd ((run_fault hs n).symm.trans h) nofun
    · exact absurd ((run_refused hs n).symm.trans h) nofun

theorem Reaches.invariants {s t : State} (h : Reaches s t) (hI : Invariants s) : Invariants t :=
  h.elim fun _ hn => invariants_run hI hn

/-! ### One round of the loop -/

/-- The operation `o` is in flight with no attempt outstanding, and the order of log 2 holds. -/
structure InLoop (o : Op) (d : Dir) (s : State) : Prop where
  busy : s.status = .busy
  op : s.op = o.code
  dir : dirOf o = some d
  pend : s.pend = false
  turns : s.turns = []
  cap : s.len ≤ Config.bufCapacity

section
variable {o : Op} {d : Dir} {s : State}

theorem InLoop.transfers (h : InLoop o d s) : dirOf o ≠ none := by rw [h.dir]; nofun

theorem InLoop.dir_eq (h : InLoop o d s) : s.dir = some d := (State.dir_of_op h.op).trans h.dir

theorem InLoop.step_issue (h : InLoop o d s) (hc : s.cnt < s.len) : step s = .next s.issue :=
  (step_own h.busy h.op h.pend h.turns h.transfers).1 hc

theorem InLoop.step_finish (h : InLoop o d s) (hc : s.cnt = s.len) : step s = finishOf o s :=
  (step_own h.busy h.op h.pend h.turns h.transfers).2 hc

/-- Below `LEN` the attempt is issued, and the transport's answer meets it (R132 to R134). -/
theorem InLoop.reaches_answer (h : InLoop o d s) (hc : s.cnt < s.len) {r : Int} {bytes : List Byte}
    {rest : List TransportAct} (hx : s.transportIn = .progress r bytes :: rest) {t : State}
    (ha : (s.issue.setTransportIn rest).answer r bytes = .next t) : Reaches s t := by
  have hanswer : step s.issue = .next t := by
    rw [step_of_free (s := s.issue) h.turns, freeTurn_progress (s := s.issue) hx rfl, ha]
  exact .of_step (h.step_issue hc) (.of_step hanswer (.refl t))

end

/-! ### The answers that move the loop on -/

/-- A send after the transport has accepted `bytes` more, with the answers `rest` still to come (R133). -/
def State.afterSent (s : State) (bytes : List Byte) (rest : List TransportAct) : State :=
  { s with cnt := s.cnt + bytes.length, pend := false, txs := s.txs ++ bytes, transportIn := rest }

/-- A receive after the transport has delivered `bytes` more, with the answers `rest` still to come (R134). -/
def State.afterReceived (s : State) (bytes : List Byte) (rest : List TransportAct) : State :=
  { s with
    cnt := s.cnt + bytes.length, pend := false, rxs := s.rxs ++ bytes, buf := s.buf.writeBytes s.cnt bytes,
    transportIn := rest }

theorem State.afterSent_nil {s : State} (hp : s.pend = false) : s.afterSent [] s.transportIn = s := by
  rw [State.afterSent, List.append_nil, ← hp]
  rfl

theorem State.afterReceived_nil {s : State} (hp : s.pend = false) : s.afterReceived [] s.transportIn = s := by
  rw [State.afterReceived, List.append_nil, ← hp]
  rfl

theorem State.afterSent_append (s : State) (b c : List Byte) (rest rest' : List TransportAct) :
    (s.afterSent b rest).afterSent c rest' = s.afterSent (b ++ c) rest' := by
  simp [State.afterSent, Nat.add_assoc]

theorem Memory.writeBytes_append (m : Memory) (a : Nat) (b c : List Byte) :
    m.writeBytes a (b ++ c) = (m.writeBytes a b).writeBytes (a + b.length) c := by
  induction b generalizing m a with
  | nil => rfl
  | cons x xs ih =>
    rw [List.cons_append, Memory.writeBytes, ih, Memory.writeBytes, List.length_cons, Nat.add_assoc a,
      Nat.add_comm 1]

theorem State.afterReceived_append (s : State) (b c : List Byte) (rest rest' : List TransportAct) :
    (s.afterReceived b rest).afterReceived c rest' = s.afterReceived (b ++ c) rest' := by
  simp [State.afterReceived, Nat.add_assoc, Memory.writeBytes_append]

theorem InLoop.afterSent {o : Op} {s : State} (h : InLoop o .tx s) (bytes : List Byte) (rest : List TransportAct) :
    InLoop o .tx (s.afterSent bytes rest) := { h with pend := rfl }

theorem InLoop.afterReceived {o : Op} {s : State} (h : InLoop o .rx s) (bytes : List Byte)
    (rest : List TransportAct) : InLoop o .rx (s.afterReceived bytes rest) := { h with pend := rfl }

/-- A range reads as two neighbouring ones. -/
theorem Memory.readBytes_split {m : Memory} {a n j : Nat} {bs : List Byte} (h : m.readBytes a (n + j) = some bs) :
    ∃ cs ds, bs = cs ++ ds ∧ m.readBytes a n = some cs ∧ m.readBytes (a + n) j = some ds := by
  have hlen := Memory.readBytes_length h
  refine ⟨bs.take n, bs.drop n, (List.take_append_drop n bs).symm, ?_, ?_⟩
  · simpa using Memory.readBytes_sub h (k := 0) (j := n) (by omega)
  · rw [Memory.readBytes_sub h (le_refl _), List.take_of_length_le (by rw [List.length_drop]; omega)]

/-- One positive answer within the frame sends the next bytes (R133). -/
theorem InLoop.reaches_sent_one {o : Op} {s : State} (h : InLoop o .tx s) {b : List Byte} {rest : List TransportAct}
    (h0 : 0 < b.length) (hle : s.cnt + b.length ≤ s.len) (hread : s.buf.readBytes s.cnt b.length = some b)
    (hx : s.transportIn = .progress b.length [] :: rest) : Reaches s (s.afterSent b rest) := by
  have hp : (s.issue.setTransportIn rest).pend = true := rfl
  have hk : b.length ≤ s.len - s.cnt := by omega
  exact h.reaches_answer (by omega) hx (State.answer_sent hp h.dir_eq h.cap h0 hk hread [])

/-- One positive answer within the frame is received behind what has come (R134). -/
theorem InLoop.reaches_received_one {o : Op} {s : State} (h : InLoop o .rx s) {b : List Byte}
    {rest : List TransportAct} (h0 : 0 < b.length) (hle : s.cnt + b.length ≤ s.len)
    (hx : s.transportIn = .progress b.length b :: rest) : Reaches s (s.afterReceived b rest) := by
  have hp : (s.issue.setTransportIn rest).pend = true := rfl
  have hk : b.length ≤ s.len - s.cnt := by omega
  exact h.reaches_answer (by omega) hx (State.answer_received hp h.dir_eq h.cap h0 hk)

/-- Positive answers within the frame, whatever their sizes, send the bytes they add up to (R133, R137). -/
theorem InLoop.reaches_sent {o : Op} {s : State} (h : InLoop o .tx s) {sizes : List Nat} {bytes : List Byte}
    {rest : List TransportAct} (hpos : ∀ k ∈ sizes, 0 < k) (hle : s.cnt + sizes.sum ≤ s.len)
    (hread : s.buf.readBytes s.cnt sizes.sum = some bytes)
    (hx : s.transportIn = sizes.map (fun k : Nat => TransportAct.progress k []) ++ rest) :
    Reaches s (s.afterSent bytes rest) := by
  induction sizes generalizing s bytes with
  | nil =>
    obtain rfl : bytes = [] := List.length_eq_zero_iff.mp (Memory.readBytes_length hread)
    obtain rfl : s.transportIn = rest := hx
    rw [State.afterSent_nil h.pend]
    exact .refl s
  | cons k ks ih =>
    rw [List.sum_cons] at hle hread
    obtain ⟨b, c, rfl, hb, hc⟩ := Memory.readBytes_split hread
    obtain rfl : b.length = k := Memory.readBytes_length hb
    have first := h.reaches_sent_one (hpos _ List.mem_cons_self) (by omega) hb hx
    rw [← State.afterSent_append]
    have hle' : s.cnt + b.length + ks.sum ≤ s.len := by omega
    exact first.trans (ih (h.afterSent ..) (fun j hj => hpos j (List.mem_cons_of_mem _ hj)) hle' hc rfl)

/-- Positive answers within the frame, whatever their pieces, are received one behind the other (R134, R137). -/
theorem InLoop.reaches_received {o : Op} {s : State} (h : InLoop o .rx s) {pieces : List (List Byte)}
    {rest : List TransportAct} (hne : ∀ p ∈ pieces, p ≠ []) (hle : s.cnt + pieces.flatten.length ≤ s.len)
    (hx : s.transportIn = pieces.map (fun p => TransportAct.progress (p.length : Int) p) ++ rest) :
    Reaches s (s.afterReceived pieces.flatten rest) := by
  induction pieces generalizing s with
  | nil =>
    obtain rfl : s.transportIn = rest := hx
    rw [List.flatten_nil, State.afterReceived_nil h.pend]
    exact .refl s
  | cons p ps ih =>
    rw [List.flatten_cons, List.length_append] at hle
    have first := h.reaches_received_one (List.length_pos_iff.mpr (hne p List.mem_cons_self)) (by omega) hx
    rw [List.flatten_cons, ← State.afterReceived_append]
    have hle' : s.cnt + p.length + ps.flatten.length ≤ s.len := by omega
    exact first.trans (ih (h.afterReceived ..) (fun j hj => hne j (List.mem_cons_of_mem _ hj)) hle' rfl)

/-! ### The ends of the loop -/

/-- Where the functions of R141 stop with the end `e`: `k` of `n` bytes have moved, and `rest` is still to come. -/
def LoopEnd.StopsAt (e : LoopEnd) (n k : Nat) (rest : List TransportAct) : Prop :=
  match e with
  | .ok => k = n
  | .blocked => k < n ∧ rest = []
  | .transportError => k < n ∧ ∃ r d later, rest = .progress r d :: later ∧ r ≤ 0
  | .outsideContract => False

/-- A finish that goes on is one of R135's. -/
theorem finished_of_finishOf {o : Op} {s t : State} (hd : dirOf o ≠ none) (ho : s.op = o.code) (hp : s.pend = false)
    (h : finishOf o s = .next t) : Finished s t := by
  rcases finishOf_cases hd ho hp with ⟨t', h', hfin⟩ | ⟨_, f, _, h'⟩
  · exact Host.Outcome.next.inj (h'.symm.trans h) ▸ hfin
  · exact absurd (h'.symm.trans h) nofun

/-- What the machine makes of a stop of the loop in `s` (R135, R138, R139). -/
inductive LoopEnded (o : Op) (s t : State) : LoopEnd → Prop
  | ok (hc : s.cnt = s.len) (hf : finishOf o s = .next t) (h : Finished s t) : LoopEnded o s t .ok
  | blocked (hx : s.transportIn = []) (h : t = s.issue) : LoopEnded o s t .blocked
  | transportError (later : List TransportAct) (hc : s.cnt < s.len)
      (h : t = (s.setTransportIn later).raise .transport) : LoopEnded o s t .transportError

/-- Every end leaves the count, the buffer and both strings. -/
theorem LoopEnded.kept {o : Op} {s t : State} {e : LoopEnd} (h : LoopEnded o s t e) :
    t.cnt = s.cnt ∧ t.buf = s.buf ∧ t.txs = s.txs ∧ t.rxs = s.rxs := by
  cases h with
  | ok _ _ h => exact ⟨h.cnt, h.buf, h.txs, h.rxs⟩
  | blocked _ h => subst h; exact ⟨rfl, rfl, rfl, rfl⟩
  | transportError later _ h => subst h; exact ⟨rfl, rfl, rfl, rfl⟩

theorem InLoop.reaches_end {o : Op} {d : Dir} {s : State} {e : LoopEnd} (h : InLoop o d s)
    (hstop : e.StopsAt s.len s.cnt s.transportIn)
    (hfin : s.cnt = s.len → ∃ t, finishOf o s = .next t ∧ Finished s t) :
    ∃ t, Reaches s t ∧ LoopEnded o s t e := by
  cases e with
  | ok =>
    obtain ⟨t, hf, ht⟩ := hfin hstop
    exact ⟨t, .of_step ((h.step_finish hstop).trans hf) (.refl t), .ok hstop hf ht⟩
  | blocked =>
    obtain ⟨hc, hx⟩ := hstop
    exact ⟨s.issue, .of_step (h.step_issue hc) (.refl _), .blocked hx rfl⟩
  | transportError =>
    obtain ⟨hc, r, b, later, hx, hr⟩ := hstop
    have hd : (s.issue.setTransportIn later).dir = some .tx ∨ (s.issue.setTransportIn later).dir = some .rx := by
      cases d with
      | tx => exact .inl h.dir_eq
      | rx => exact .inr h.dir_eq
    exact ⟨_, h.reaches_answer hc hx (State.answer_nonpositive rfl hd hr b), .transportError later hc rfl⟩
  | outsideContract => exact hstop.elim

/-! ### The functions of R141 -/

theorem sendLoop_done (n : Nat) (script : List Int) : sendLoop n n script = (.ok, n) := by
  cases script <;> exact if_pos rfl

theorem recvLoop_done {n : Nat} {acc : List Byte} (h : acc.length = n) (script : List (Int × List Byte)) :
    recvLoop n acc script = (.ok, acc) := by
  cases script <;> exact if_pos h

/-- `Send` of R141 consumes positive answers within the frame, then stops. -/
theorem sendLoop_split {n k : Nat} {script : List Int} (hk : k ≤ n)
    (h : (sendLoop n k script).1 ≠ .outsideContract) :
    ∃ (sizes : List Nat) (rest : List TransportAct),
      script.map (fun r => TransportAct.progress r []) = sizes.map (fun j : Nat => TransportAct.progress j []) ++ rest ∧
      (∀ j ∈ sizes, 0 < j) ∧ (sendLoop n k script).2 = k + sizes.sum ∧ k + sizes.sum ≤ n ∧
      (sendLoop n k script).1.StopsAt n (k + sizes.sum) rest := by
  induction script generalizing k with
  | nil =>
    refine ⟨[], [], rfl, nofun, ?_⟩
    by_cases hn : k = n
    · subst hn
      rw [sendLoop_done]
      exact ⟨rfl, hk, rfl⟩
    · rw [sendLoop, if_neg hn]
      exact ⟨rfl, hk, Nat.lt_of_le_of_ne hk hn, rfl⟩
  | cons r script ih =>
    by_cases hn : k = n
    · subst hn
      rw [sendLoop_done]
      exact ⟨[], _, rfl, nofun, rfl, hk, rfl⟩
    by_cases h0 : r ≤ 0
    · rw [sendLoop, if_neg hn, if_pos h0]
      exact ⟨[], _, rfl, nofun, rfl, hk, Nat.lt_of_le_of_ne hk hn, r, [], _, rfl, h0⟩
    by_cases hr : ((n - k : Nat) : Int) < r
    · rw [sendLoop, if_neg hn, if_neg h0, if_pos hr] at h
      exact absurd rfl h
    have hstep : sendLoop n k (r :: script) = sendLoop n (k + r.toNat) script := by
      rw [sendLoop, if_neg hn, if_neg h0, if_neg hr]
    rw [hstep] at h ⊢
    obtain ⟨sizes, rest, hscript, hpos, hcnt, hle, hstop⟩ := ih (k := k + r.toNat) (by omega) h
    rw [Nat.add_assoc] at hcnt hle hstop
    refine ⟨r.toNat :: sizes, rest, ?_, ?_, hcnt, hle, hstop⟩
    · rw [List.map_cons, List.map_cons, hscript, Int.toNat_of_nonneg (by omega), List.cons_append]
    · exact List.forall_mem_cons.mpr ⟨by omega, hpos⟩

/-- `Recv` of R141 consumes positive answers within the frame, each with its bytes, then stops. -/
theorem recvLoop_split {n : Nat} {acc : List Byte} {script : List (Int × List Byte)} (hk : acc.length ≤ n)
    (h : (recvLoop n acc script).1 ≠ .outsideContract) :
    ∃ (pieces : List (List Byte)) (rest : List TransportAct),
      script.map (fun a => TransportAct.progress a.1 a.2) =
        pieces.map (fun p => TransportAct.progress (p.length : Int) p) ++ rest ∧
      (∀ p ∈ pieces, p ≠ []) ∧ (recvLoop n acc script).2 = acc ++ pieces.flatten ∧
      acc.length + pieces.flatten.length ≤ n ∧
      (recvLoop n acc script).1.StopsAt n (acc.length + pieces.flatten.length) rest := by
  induction script generalizing acc with
  | nil =>
    refine ⟨[], [], rfl, nofun, ?_⟩
    by_cases hn : acc.length = n
    · rw [recvLoop_done hn]
      exact ⟨(List.append_nil acc).symm, hk, hn⟩
    · rw [recvLoop, if_neg hn]
      exact ⟨(List.append_nil acc).symm, hk, Nat.lt_of_le_of_ne hk hn, rfl⟩
  | cons a script ih =>
    obtain ⟨r, d⟩ := a
    by_cases hn : acc.length = n
    · rw [recvLoop_done hn]
      exact ⟨[], _, rfl, nofun, (List.append_nil acc).symm, hk, hn⟩
    by_cases h0 : r ≤ 0
    · rw [recvLoop, if_neg hn, if_pos h0]
      exact ⟨[], _, rfl, nofun, (List.append_nil acc).symm, hk, Nat.lt_of_le_of_ne hk hn, r, d, _, rfl, h0⟩
    by_cases hr : ((n - acc.length : Nat) : Int) < r ∨ (d.length : Int) ≠ r
    · rw [recvLoop, if_neg hn, if_neg h0, if_pos hr] at h
      exact absurd rfl h
    have hstep : recvLoop n acc ((r, d) :: script) = recvLoop n (acc ++ d) script := by
      rw [recvLoop, if_neg hn, if_neg h0, if_neg hr]
    rw [hstep] at h ⊢
    obtain ⟨hr, hlen⟩ := not_or.mp hr
    obtain rfl : (d.length : Int) = r := not_not.mp hlen
    have hle' : (acc ++ d).length ≤ n := by rw [List.length_append]; omega
    obtain ⟨pieces, rest, hscript, hne, hacc, hle, hstop⟩ := ih hle' h
    rw [List.length_append, Nat.add_assoc, ← List.length_append] at hle hstop
    refine ⟨d :: pieces, rest, ?_, ?_, by rw [hacc, List.append_assoc]; rfl, hle, hstop⟩
    · rw [List.map_cons, List.map_cons, hscript, List.cons_append]
    · exact List.forall_mem_cons.mpr ⟨fun e => by simp [e] at h0, hne⟩

/-! ### Refinement -/

/-- Settles O30: the answers `Send` consumes are sent, and the loop ends as `Send` does. -/
theorem sendRunsAsTheFunctionSays : Obligations.SendRunsAsTheFunctionSays := by
  intro s frame script hb hp hd hts hx hh hle hcap hframe hin
  obtain ⟨o, ho, hdo⟩ := State.op_of_dir hd
  have hloop : InLoop o .tx s := ⟨hb, ho, hdo, hp, hts, hcap⟩
  obtain ⟨sizes, rest, hscript, hpos, hcnt, hsum, hstop⟩ := sendLoop_split hle hin
  obtain ⟨bytes, hbytes⟩ : ∃ bytes, bytes = (frame.drop s.cnt).take sizes.sum := ⟨_, rfl⟩
  have hread : s.buf.readBytes s.cnt sizes.sum = some bytes := by
    simpa [hbytes] using Memory.readBytes_sub hframe hsum
  have hlen : bytes.length = sizes.sum := Memory.readBytes_length hread
  have hsent : Reaches s (s.afterSent bytes rest) := hloop.reaches_sent hpos hsum hread (hx.trans hscript)
  have hloop' := hloop.afterSent bytes rest
  rw [← hlen] at hcnt hstop hbytes
  obtain ⟨t, ht, hend⟩ := hloop'.reaches_end hstop fun _ =>
    have hf := finishOf_send hdo (s.afterSent bytes rest)
    ⟨_, hf, finished_of_finishOf hloop'.transfers hloop'.op hloop'.pend hf⟩
  obtain ⟨n, hn⟩ := hsent.trans ht
  obtain ⟨htc, htb, httx, htrx⟩ := hend.kept
  refine ⟨n, t, hn, htc.trans hcnt.symm, htb, htrx, ?_, ?_⟩
  · rw [httx, htc, State.afterSent, Nat.add_sub_cancel_left, ← hbytes]
  · generalize (sendLoop s.len s.cnt script).1 = e at hend
    cases hend with
    | ok hc hf h =>
      obtain rfl : State.complete _ = t := Host.Outcome.next.inj ((finishOf_send hdo _).symm.trans hf)
      exact ⟨rfl, rfl, hc⟩
    | blocked hx h => subst h; exact ⟨hb, rfl, hx⟩
    | transportError later hc h => subst h; exact ⟨rfl, rfl, hc⟩

/-- Settles O31: the answers `Recv` consumes are received, and the loop ends as `Recv` does. -/
theorem receiveRunsAsTheFunctionSays : Obligations.ReceiveRunsAsTheFunctionSays := by
  intro s script hI hb hp hd hts hc0 hx hh hin
  obtain ⟨o, ho, hdo⟩ := State.op_of_dir hd
  have hloop : InLoop o .rx s := ⟨hb, ho, hdo, hp, hts, hI.len_le_capacity⟩
  obtain ⟨pieces, rest, hscript, hne, hacc, hle, hstop⟩ := recvLoop_split (acc := []) (Nat.zero_le _) hin
  rw [List.length_nil, ← hc0] at hle hstop
  have hrecv : Reaches s (s.afterReceived pieces.flatten rest) :=
    hloop.reaches_received hne hle (hx.trans hscript)
  have hIr := hrecv.invariants hI
  obtain ⟨t, ht, hend⟩ := (hloop.afterReceived pieces.flatten rest).reaches_end hstop fun hc =>
    finishOf_next hIr hb ho rfl hc
  obtain ⟨n, hn⟩ := hrecv.trans ht
  obtain ⟨htc, htb, httx, htrx⟩ := hend.kept
  have hcnt : t.cnt = pieces.flatten.length := by rw [htc, State.afterReceived, hc0, Nat.zero_add]
  have hbuf : t.buf.readBytes 0 t.cnt = some pieces.flatten := by
    rw [hcnt, htb, State.afterReceived, hc0, Memory.readBytes_writeBytes]
  rw [hacc, List.nil_append]
  refine ⟨n, t, hn, htrx, httx, hcnt, hbuf, ?_⟩
  generalize (recvLoop s.len [] script).1 = e at hend
  cases hend with
  | ok hc hf h => exact ⟨h.status.imp And.left And.left, h.pend, htc.trans hc⟩
  | blocked hx h => subst h; exact ⟨hb, rfl, hx⟩
  | transportError later hc h => subst h; exact ⟨rfl, rfl, hI.valid_none_of_busy hb⟩

end Sys2Proof.Machine

/-! SUPPORT. Whole transfers, from the request to the end: what the cutting of a frame does not show (41_transportio
R136, R137). -/

namespace Sys2Proof.Machine

/-! ### Sends -/

/-- A send from its acceptance, whose frame the answers add up to, ends `DONE_OK` with its frame sent (R130, R137). -/
theorem reaches_send_done {s u : State} {o : Op} {frame : List Byte} {sizes : List Nat} (hd : dirOf o = some .tx)
    (hu : u = { s.acceptSend o frame with argCode := u.argCode, argSize := u.argSize, argVal := u.argVal })
    (hcap : frame.length ≤ Config.bufCapacity) (hts : s.turns = []) (hpos : ∀ k ∈ sizes, 0 < k)
    (hsum : sizes.sum = frame.length)
    (hx : s.transportIn = sizes.map fun k : Nat => TransportAct.progress k []) :
    Reaches u (u.afterSent frame []).complete := by
  rw [hu]
  have hloop : InLoop o .tx
      { s.acceptSend o frame with argCode := u.argCode, argSize := u.argSize, argVal := u.argVal } :=
    ⟨rfl, rfl, hd, rfl, hts, hcap⟩
  have hread : (Memory.ofBytes frame).readBytes 0 sizes.sum = some frame := by
    rw [hsum, Memory.readBytes_ofBytes]
  have hle : 0 + sizes.sum ≤ frame.length := by omega
  have hsent := hloop.reaches_sent hpos hle hread (hx.trans (List.append_nil _).symm)
  have hfin := (hloop.afterSent frame []).step_finish (Nat.zero_add _)
  exact hsent.trans (.of_step (hfin.trans (finishOf_send hd _)) (.refl _))

/-- Settles O32: each send is accepted with its whole frame in `BUF`, which the answers then add up to. -/
theorem fragmentationOfSendsDoesNotShow : Obligations.FragmentationOfSendsDoesNotShow := by
  intro s q i frame script hb hts hh hdec hi hpos hsum hx
  have hmax := Config.payload_least
  have hcapacity : Config.bufCapacity = Config.maxPayload + 4 := rfl
  have hb' : ((s.setTurns []).setHostIn []).status ≠ .busy := hb
  have hstep : step s = exec i ((s.setTurns []).setHostIn []) := step_request hts hh hb hdec
  have hx' : s.transportIn = script.map fun k : Nat => TransportAct.progress k [] := by
    simpa [← List.map_eq_flatMap, Function.comp_def] using hx
  have whole {u : State} {o : Op} (hd : dirOf o = some .tx) (he : exec i ((s.setTurns []).setHostIn []) = .next u)
      (hu : u = { ((s.setTurns []).setHostIn []).acceptSend o frame with
        argCode := u.argCode, argSize := u.argSize, argVal := u.argVal })
      (hcap : frame.length ≤ Config.bufCapacity) :
      ∃ (n : Nat) (t : State), Host.Core.run Sys2Proof.core n s = .next t ∧ t.status = .doneOk ∧
        t.txs = s.txs ++ frame ∧ t.rxs = s.rxs ∧ t.cnt = frame.length ∧ t.transportIn = [] := by
    obtain ⟨n, hn⟩ : Reaches s (u.afterSent frame []).complete :=
      .of_step (hstep.trans he) (reaches_send_done hd hu hcap rfl hpos hsum hx')
    refine ⟨n, _, hn, rfl, ?_, ?_, ?_, rfl⟩ <;> rw [hu]
    · rfl
    · rfl
    · exact Nat.zero_add _
  rcases hi with ⟨rfl, hn⟩ | ⟨code, rfl, rfl⟩ | ⟨data, rfl, hn, rfl⟩ | ⟨v, rfl, rfl⟩
  · exact whole (o := .relSend) rfl (exec_relSend_accepted hb' hn) rfl (by omega)
  · exact whole (o := .sendCmd) rfl (exec_sendCmd_accepted hb' code) rfl (show 4 ≤ Config.bufCapacity by omega)
  · rw [← bufferFrame_eq] at whole ⊢
    exact whole (o := .sendBuf) rfl (exec_sendBuf_accepted hb' hn) rfl (by rw [bufferFrame_length]; omega)
  · rw [← bufferFrame_eq] at whole ⊢
    refine whole (o := .sendU64) rfl (exec_sendU64_accepted hb' v) rfl ?_
    rw [bufferFrame_length, List.length_map, List.length_range]
    omega

/-! ### What a finished receive shows the host -/

/-- The finish of `o` in `v` ends `DONE_OK`, and then the host reads `value` in `reg` (R35, R135). -/
def State.Delivers (v : State) (o : Op) (reg : HostReg) (value : HostValue) : Prop :=
  ∃ t, finishOf o v = .next t ∧ t.status = .doneOk ∧ t.hostRead reg = .ok value

theorem State.hostRead_resData {t : State} {bytes : List Byte} (hv : t.valid.data = true)
    (hload : t.bufLoad t.dataBase t.resLen = .ok bytes) : t.hostRead .resData = .ok (.data bytes) := by
  rw [State.hostRead, hv, hload]
  rfl

/-- `REL_RECV` shows all it has received (R131). -/
theorem delivers_relRecv {v : State} {frame : List Byte} (ho : v.op = Op.relRecv.code)
    (hcap : v.len ≤ Config.bufCapacity) (hread : v.buf.readBytes 0 v.len = some frame) :
    v.Delivers .relRecv .resData (.data frame) := by
  have hbase : v.dataBase = 0 := if_pos ho
  have hload : v.bufLoad v.dataBase v.len = .ok frame := by
    rw [hbase]
    exact (State.bufLoad_eq_ok ..).mpr ⟨by omega, hread⟩
  exact ⟨_, rfl, rfl, State.hostRead_resData (t := (v.deliverData v.len).complete) rfl hload⟩

section
variable {v : State} {low : Byte} {payload : List Byte} (hlen : v.len = 4 + payload.length)
  (hcap : v.len ≤ Config.bufCapacity)
  (hread : v.buf.readBytes 0 v.len = some ([low, 0x33#8, 0x22#8, 0x11#8] ++ payload))
include hlen hcap hread

/-- The payload of a received frame. -/
theorem bufLoad_payload : v.bufLoad 4 payload.length = .ok payload :=
  (State.frame_reads (q := ⟨low, 0x33#8, 0x22#8, 0x11#8⟩) hlen hcap hread).2

/-- Under the peer's magic, whatever the low byte, a sequencer's receive delivers its payload (R112, R169). -/
theorem delivers_of_peer {α : Type} {o : Op} {read : State → Except Fault α} {deliver : State → α → State} {p : α}
    {reg : HostReg} {value : HostValue} (hf : finishOf o v = finishReceive read deliver v) (hp : read v = .ok p)
    (hr : (deliver v p).complete.hostRead reg = .ok value) : v.Delivers o reg value := by
  have hq := (State.frame_reads (q := ⟨low, 0x33#8, 0x22#8, 0x11#8⟩) hlen hcap hread).1
  refine ⟨_, ?_, rfl, hr⟩
  rw [hf, finishReceive_of_ok hq hp, State.validate_of_matches ((headerMatches_peer _).mpr ⟨rfl, rfl, rfl⟩)]

theorem delivers_recvConfirm : v.Delivers .recvConfirm .status (.status 2#3) :=
  delivers_of_peer hlen hcap hread (read := fun _ => .ok ()) (deliver := fun t _ => t) rfl rfl rfl

theorem delivers_recvBuf (ho : v.op = Op.recvBuf.code) (ha : v.argSize = payload.length) :
    v.Delivers .recvBuf .resData (.data payload) := by
  have hbase : v.dataBase = 4 := by rw [State.dataBase, ho]; rfl
  have hload : v.bufLoad v.dataBase v.argSize = .ok payload := by
    rw [hbase, ha]
    exact bufLoad_payload hlen hcap hread
  exact delivers_of_peer hlen hcap hread (read := fun _ => .ok ()) (deliver := fun t _ => t.deliverData t.argSize) rfl
    rfl (State.hostRead_resData (t := (v.deliverData v.argSize).complete) rfl hload)

theorem delivers_recvI32 (h4 : payload.length = 4) :
    v.Delivers .recvI32 .resI32 (.signed (BitVec.ofNat 32 (le payload)).toInt) := by
  have hload := bufLoad_payload hlen hcap hread
  match payload, h4 with
  | [p0, p1, p2, p3], _ =>
    have hquad : v.bufQuad 4 = .ok ⟨p0, p1, p2, p3⟩ :=
      (State.bufQuad_eq_ok ..).mpr ((State.bufLoad_eq_ok ..).mp hload)
    rw [le_four]
    exact delivers_of_peer hlen hcap hread (read := fun t => t.bufQuad 4) (deliver := State.deliverI32) rfl hquad rfl

theorem delivers_recvU64 (h8 : payload.length = 8) :
    v.Delivers .recvU64 .resU64 (.word64 (BitVec.ofNat 64 (le payload))) := by
  have hload : v.bufLoad 4 8 = .ok payload := h8 ▸ bufLoad_payload hlen hcap hread
  exact delivers_of_peer hlen hcap hread (read := fun t => t.bufLoad 4 8) (deliver := State.deliverU64) rfl hload rfl

theorem delivers_recvBool {b : Byte} (h1 : payload = [b]) :
    v.Delivers .recvBool .resBool (.truth (decide (b ≠ 0x00#8))) := by
  subst h1
  have hload : v.bufLoad 4 1 = .ok [b] := bufLoad_payload hlen hcap hread
  have htruth : [b].any nonzeroByte = decide (b ≠ 0x00#8) := Bool.or_false _
  rw [← htruth]
  exact delivers_of_peer hlen hcap hread (read := fun t => t.bufLoad 4 1) (deliver := State.deliverBool) rfl hload rfl

end

/-! ### Receives -/

section
variable {s : State} (hb : s.status ≠ .busy)
include hb

theorem exec_relRecv_accepted {n : Nat} (hn : n ≤ Config.maxPayload) :
    exec (.relRecv n) s = .next { s.acceptReceive .relRecv n with argSize := n } :=
  transferStep_sized hb hn

theorem exec_recvConfirm_accepted : exec .recvConfirm s = .next (s.acceptReceive .recvConfirm 4) :=
  transferStep_unsized (f := (·.acceptReceive .recvConfirm 4)) hb

theorem exec_recvBuf_accepted {n : Nat} (hn : n ≤ Config.maxPayload) :
    exec (.recvBuf n) s = .next { s.acceptReceive .recvBuf (4 + n) with argSize := n } :=
  transferStep_sized hb hn

theorem exec_recvI32_accepted : exec .recvI32 s = .next (s.acceptReceive .recvI32 8) :=
  transferStep_unsized (f := (·.acceptReceive .recvI32 8)) hb

theorem exec_recvU64_accepted : exec .recvU64 s = .next (s.acceptReceive .recvU64 12) :=
  transferStep_unsized (f := (·.acceptReceive .recvU64 12)) hb

theorem exec_recvBool_accepted : exec .recvBool s = .next (s.acceptReceive .recvBool 5) :=
  transferStep_unsized (f := (·.acceptReceive .recvBool 5)) hb

end

/-- A receive from its acceptance, whose frame the pieces make up, ends as its finish does with the frame in `BUF`
(R131, R137). -/
theorem reaches_receive_done {s u : State} {o : Op} {n : Nat} {frame : List Byte} {pieces : List (List Byte)}
    {reg : HostReg} {value : HostValue} (hd : dirOf o = some .rx)
    (hu : u = { s.acceptReceive o n with argSize := u.argSize }) (hn : n = frame.length)
    (hcap : n ≤ Config.bufCapacity) (hts : s.turns = []) (hne : ∀ p ∈ pieces, p ≠ []) (hframe : pieces.flatten = frame)
    (hx : s.transportIn = pieces.map fun p => TransportAct.progress (p.length : Int) p)
    (hdel : ∀ v : State, v.op = o.code → v.argSize = u.argSize → v.len = n → v.len ≤ Config.bufCapacity →
      v.buf.readBytes 0 v.len = some frame → v.Delivers o reg value) :
    ∃ t, Reaches u t ∧ t.status = .doneOk ∧ t.rxs = s.rxs ++ frame ∧ t.txs = s.txs ∧ t.transportIn = [] ∧
      t.hostRead reg = .ok value := by
  generalize u.argSize = size at hu hdel
  subst hu hn hframe
  have hloop : InLoop o .rx { s.acceptReceive o pieces.flatten.length with argSize := size } :=
    ⟨rfl, rfl, hd, rfl, hts, hcap⟩
  have hrecv := hloop.reaches_received hne (Nat.zero_add _).le (hx.trans (List.append_nil _).symm)
  have hloop' := hloop.afterReceived pieces.flatten []
  obtain ⟨t, hf, hdone, hread⟩ := hdel _ hloop'.op rfl rfl hcap (Memory.readBytes_ofBytes pieces.flatten)
  have hfin := finished_of_finishOf hloop'.transfers hloop'.op hloop'.pend hf
  have hstep := (hloop'.step_finish (Nat.zero_add _)).trans hf
  exact ⟨t, hrecv.trans (.of_step hstep (.refl t)), hdone, hfin.rxs, hfin.txs, hfin.transportIn, hread⟩

/-- Settles O33: each receive is accepted for as many bytes as the pieces make up, and its finish delivers them. -/
theorem fragmentationOfReceivesDoesNotShow : Obligations.FragmentationOfReceivesDoesNotShow := by
  intro s q i pieces low payload reg value hb hts hh hdec hne hx hi
  have hmax := Config.payload_least
  have hcapacity : Config.bufCapacity = Config.maxPayload + 4 := rfl
  have hb' : ((s.setTurns []).setHostIn []).status ≠ .busy := hb
  have hstep : step s = exec i ((s.setTurns []).setHostIn []) := step_request hts hh hb hdec
  generalize hflat : pieces.flatten = frame at hi ⊢
  have whole {u : State} {o : Op} {n : Nat} (hd : dirOf o = some .rx)
      (he : exec i ((s.setTurns []).setHostIn []) = .next u)
      (hu : u = { ((s.setTurns []).setHostIn []).acceptReceive o n with argSize := u.argSize })
      (hn : n = frame.length) (hcap : n ≤ Config.bufCapacity)
      (hdel : ∀ v : State, v.op = o.code → v.argSize = u.argSize → v.len = n → v.len ≤ Config.bufCapacity →
        v.buf.readBytes 0 v.len = some frame → v.Delivers o reg value) :
      ∃ (n : Nat) (t : State), Host.Core.run Sys2Proof.core n s = .next t ∧ t.status = .doneOk ∧
        t.rxs = s.rxs ++ frame ∧ t.txs = s.txs ∧ t.transportIn = [] ∧ t.hostRead reg = .ok value := by
    obtain ⟨t, ht, hend⟩ := reaches_receive_done hd hu hn hcap rfl hne hflat hx hdel
    obtain ⟨k, hk⟩ := ht.of_step (hstep.trans he)
    exact ⟨k, t, hk, hend⟩
  rcases hi with ⟨rfl, hn, rfl, rfl⟩ | ⟨rfl, hi⟩
  · exact whole rfl (exec_relRecv_accepted hb' hn) rfl rfl (by omega) fun v ho _ _ => delivers_relRecv ho
  have hlen : ([low, 0x33#8, 0x22#8, 0x11#8] ++ payload).length = 4 + payload.length := by
    rw [List.length_append]; rfl
  rcases hi with ⟨rfl, rfl, rfl, rfl⟩ | ⟨rfl, hn, rfl, rfl⟩ | ⟨rfl, h4, rfl, rfl⟩ | ⟨rfl, h8, rfl, rfl⟩ |
    ⟨b, rfl, rfl, rfl, rfl⟩
  · exact whole (n := 4) rfl (exec_recvConfirm_accepted hb') rfl rfl (by omega) fun v _ _ hl hcap hr =>
      delivers_recvConfirm (payload := []) hl hcap hr
  · exact whole rfl (exec_recvBuf_accepted hb' hn) rfl hlen.symm (by omega) fun v ho ha hl hcap hr =>
      delivers_recvBuf hl hcap hr ho ha
  · exact whole rfl (exec_recvI32_accepted hb') rfl (by omega) (by omega) fun v _ _ hl hcap hr =>
      delivers_recvI32 (by omega) hcap hr h4
  · exact whole rfl (exec_recvU64_accepted hb') rfl (by omega) (by omega) fun v _ _ hl hcap hr =>
      delivers_recvU64 (by omega) hcap hr h8
  · exact whole (n := 5) rfl (exec_recvBool_accepted hb') rfl rfl (by omega) fun v _ _ hl hcap hr =>
      delivers_recvBool hl hcap hr rfl

/-! ### Empty transfers -/

/-- An operation accepted with nothing to move ends at FHC's next turn (R136). -/
theorem run_accept_finish {s u t : State} {o : Op} {ts : List Turn} (hstep : step s = .next u)
    (hts : u.turns = .fhc :: ts) (hb : u.status = .busy) (ho : u.op = o.code) (hp : u.pend = false)
    (hd : dirOf o ≠ none) (hc : u.cnt = u.len) (hf : finishOf o (u.setTurns ts) = .next t) :
    Host.Core.run Sys2Proof.core 2 s = .next t := by
  have hfinish : step u = .next t :=
    (step_of_turn hts).trans (((fhcTurn_own (s := u.setTurns ts) hb ho hp hd).2 hc).trans hf)
  exact (run_succ hstep 1).trans (run_one hfinish)

/-- Settles O28: both are accepted with `CNT = LEN = 0`, and FHC's turn finishes them. -/
theorem zeroLengthTouchesNoTransport : Obligations.ZeroLengthTouchesNoTransport := by
  intro s rest q ts hb hts hh
  have hb' : ((s.setTurns (.fhc :: ts)).setHostIn rest).status ≠ .busy := hb
  refine ⟨fun hdec => ?_, fun hdec => ?_⟩
  · have hstep := (step_request hts hh hb hdec).trans (exec_relSend_accepted hb' (Nat.zero_le _))
    exact ⟨_, run_accept_finish (o := .relSend) hstep rfl rfl rfl rfl nofun rfl rfl, rfl, rfl, rfl, rfl, rfl⟩
  · have hstep := (step_request hts hh hb hdec).trans (exec_relRecv_accepted hb' (Nat.zero_le _))
    exact ⟨_, run_accept_finish (o := .relRecv) hstep rfl rfl rfl rfl nofun rfl rfl, rfl, rfl, rfl, rfl, rfl, rfl⟩

end Sys2Proof.Machine

/-! SUPPORT. What each sequencer's receive leaves when its whole frame has come under the peer's magic (42_dispatch
R161, R162, R165 to R167). -/

namespace Sys2Proof.Machine

/-- With its frame moved, an instruction that moves bytes takes its operation's finish (R135). -/
theorem exec_transferOp_finish {i : Instr} {o : Op} {s : State} (hi : Instr.transferOp i = some o)
    (hb : s.status = .busy) (ho : s.op = o.code) (hp : s.pend = false) (hc : s.cnt = s.len) :
    exec i s = finishOf o s := by
  obtain ⟨acc, h⟩ := exec_transferOp hi s
  rw [h, transferStep_finish hb ho hp hc]

/-- `RES_U64` by its value, so that the little-endian sum is not evaluated where states are compared (R166). -/
theorem State.deliverU64_complete {s : State} {payload : List Byte} {v : BitVec 64} (h : le64 payload = v) :
    (s.deliverU64 payload).complete =
      { s with status := .doneOk, resU64 := v, valid := { s.valid with u64 := true } } := by
  subst h
  rfl

section
variable {s : State} {low : Byte} {payload : List Byte} (hlen : s.len = 4 + payload.length)
  (hcap : s.len ≤ Config.bufCapacity)
  (hread : s.buf.readBytes 0 s.len = some ([low, 0x33#8, 0x22#8, 0x11#8] ++ payload))
include hlen hcap hread

/-- Under the peer's magic, whatever the low byte, the finish makes the delivery and ends `DONE_OK` (R112, R169). -/
theorem finishReceive_of_peer {α : Type} {read : State → Except Fault α} {deliver : State → α → State} {p : α}
    (hp : read s = .ok p) : finishReceive read deliver s = .next (deliver s p).complete := by
  obtain ⟨hq, _⟩ := State.frame_reads (q := ⟨low, 0x33#8, 0x22#8, 0x11#8⟩) hlen hcap hread
  rw [finishReceive_of_ok hq hp, State.validate_of_matches ((headerMatches_peer _).mpr ⟨rfl, rfl, rfl⟩)]

theorem finishOf_recvConfirm_of_peer : finishOf .recvConfirm s = .next s.complete :=
  finishReceive_of_peer hlen hcap hread (read := fun _ => .ok ()) (deliver := fun t _ => t) rfl

theorem finishOf_recvBuf_of_peer (ha : s.argSize = payload.length) :
    finishOf .recvBuf s = .next (s.deliverData payload.length).complete := by
  rw [← ha]
  exact finishReceive_of_peer hlen hcap hread (read := fun _ => .ok ()) (deliver := fun t _ => t.deliverData t.argSize)
    rfl

theorem finishOf_recvI32_of_peer {q : Quad} (hq : payload = q.toList) :
    finishOf .recvI32 s = .next (s.deliverI32 q).complete := by
  subst hq
  have hload : s.bufLoad 4 4 = .ok q.toList := bufLoad_payload hlen hcap hread
  have hquad : s.bufQuad 4 = .ok q := (State.bufQuad_eq_ok ..).mpr ((State.bufLoad_eq_ok ..).mp hload)
  exact finishReceive_of_peer hlen hcap hread (read := fun t => t.bufQuad 4) hquad

theorem finishOf_recvU64_of_peer (h8 : payload.length = 8) :
    finishOf .recvU64 s = .next (s.deliverU64 payload).complete := by
  have hload : s.bufLoad 4 8 = .ok payload := h8 ▸ bufLoad_payload hlen hcap hread
  exact finishReceive_of_peer hlen hcap hread (read := fun t => t.bufLoad 4 8) hload

theorem finishOf_recvBool_of_peer (h1 : payload.length = 1) :
    finishOf .recvBool s = .next (s.deliverBool payload).complete := by
  have hload : s.bufLoad 4 1 = .ok payload := h1 ▸ bufLoad_payload hlen hcap hread
  exact finishReceive_of_peer hlen hcap hread (read := fun t => t.bufLoad 4 1) hload

end

/-- Settles O26: each receive takes its finish, whose header test passes, and delivers its payload. -/
theorem receivesDeliverTheirResults : Obligations.ReceivesDeliverTheirResults := by
  intro s low p0 p1 p2 p3 p4 p5 p6 p7 payload n hb hp hc hcap
  have finishes {i : Instr} {o : Op} (hi : Instr.transferOp i = some o) (ho : s.op = o.code) :
      exec i s = finishOf o s := exec_transferOp_finish hi hb ho hp hc
  refine ⟨?confirm, ?buf, ?i32, ?u64, ?bool⟩
  case confirm =>
    intro ho hl hframe
    have hread : s.buf.readBytes 0 s.len = some ([low, 0x33#8, 0x22#8, 0x11#8] ++ []) := (congrArg _ hl).trans hframe
    exact (finishes (o := .recvConfirm) rfl ho).trans (finishOf_recvConfirm_of_peer (payload := []) hl hcap hread)
  case buf =>
    intro ho hl hframe
    have hlen : s.len = 4 + payload.length := by
      rw [← Memory.readBytes_length hframe, List.length_append]
      rfl
    have ha : s.argSize = payload.length := by omega
    have hf := finishOf_recvBuf_of_peer hlen hcap hframe ha
    obtain ⟨t, ht, _, hdata⟩ := delivers_recvBuf hlen hcap hframe ho ha
    obtain rfl := Host.Outcome.next.inj (hf.symm.trans ht)
    exact ⟨_, (finishes (o := .recvBuf) rfl ho).trans hf, hdata, rfl⟩
  case i32 =>
    intro ho hl hframe
    have hread : s.buf.readBytes 0 s.len = some ([low, 0x33#8, 0x22#8, 0x11#8] ++ [p0, p1, p2, p3]) :=
      (congrArg _ hl).trans hframe
    have hf := finishOf_recvI32_of_peer (q := ⟨p0, p1, p2, p3⟩) hl hcap hread rfl
    exact ⟨_, (finishes (o := .recvI32) rfl ho).trans hf, rfl, rfl⟩
  case u64 =>
    intro ho hl hframe
    have hread : s.buf.readBytes 0 s.len =
        some ([low, 0x33#8, 0x22#8, 0x11#8] ++ [p0, p1, p2, p3, p4, p5, p6, p7]) := (congrArg _ hl).trans hframe
    have hf := finishOf_recvU64_of_peer hl hcap hread rfl
    rw [State.deliverU64_complete (le64_eight ..)] at hf
    exact (finishes (o := .recvU64) rfl ho).trans hf
  case bool =>
    intro ho hl hframe
    have hread : s.buf.readBytes 0 s.len = some ([low, 0x33#8, 0x22#8, 0x11#8] ++ [p0]) :=
      (congrArg _ hl).trans hframe
    have htruth : [p0].any nonzeroByte = decide (p0 ≠ 0x00#8) := Bool.or_false _
    have hf := finishOf_recvBool_of_peer hl hcap hread rfl
    rw [← htruth]
    exact (finishes (o := .recvBool) rfl ho).trans hf

end Sys2Proof.Machine

/-! SUPPORT. When the ProtocolError is taken, and what it leaves (60_exceptions R202, R205, R206). -/

namespace Sys2Proof.Machine

/-- The top 24 bits of the peer's magic, as `ERR_EXP` records them (R21, R202). -/
theorem top24_peer_magic : top24 Role.peer.magic = 0x112233#24 := by decide

/-- Under any other magic the finish of a sequencer's receive takes the ProtocolError, once its payload can be read, and
delivers nothing (R112, R169, R202). -/
theorem finishReceive_of_mismatch {α : Type} {read : State → Except Fault α} {deliver : State → α → State} {s : State}
    {q : Quad} {p : α} (hq : s.bufQuad 0 = .ok q) (hp : read s = .ok p)
    (hm : ¬ (q.b1 = 0x33#8 ∧ q.b2 = 0x22#8 ∧ q.b3 = 0x11#8)) :
    finishReceive read deliver s = .next (s.raise (.protocol (q.b3 ++ q.b2 ++ q.b1) 0x112233#24)) := by
  have htest : headerMatches q.le32 Role.peer.magic = false := Bool.eq_false_iff.mpr (mt (headerMatches_peer q).mp hm)
  rw [finishReceive_of_ok hq hp, State.validate_of_mismatch htest, Quad.top24_le32, top24_peer_magic]

/-- Settles O27: each receive takes its finish, which can read its payload and whose header test fails. -/
theorem receivesTakeTheProtocolError : Obligations.ReceivesTakeTheProtocolError := by
  intro s b0 b1 b2 b3 payload n i hb hp hc hcap hlen hframe hm hop
  obtain ⟨hq, _⟩ := State.frame_reads (q := ⟨b0, b1, b2, b3⟩) hlen hcap hframe
  have hsome : (s.buf.readBytes 0 s.len).isSome = true := Option.isSome_of_eq_some hframe
  have raises {o : Op} {α : Type} {read : State → Except Fault α} {deliver : State → α → State} {p : α}
      (hi : Instr.transferOp i = some o) (ho : s.op = o.code) (hf : finishOf o s = finishReceive read deliver s)
      (hr : read s = .ok p) : exec i s = .next (s.raise (.protocol (b3 ++ b2 ++ b1) 0x112233#24)) :=
    by
    rw [exec_transferOp_finish hi hb ho hp hc, hf, finishReceive_of_mismatch hq hr hm]
  rcases hop with ⟨ho, rfl⟩ | ⟨ho, rfl⟩ | ⟨ho, rfl, h8⟩ | ⟨ho, rfl, h12⟩ | ⟨ho, rfl, h5⟩
  · exact raises (o := .recvConfirm) (read := fun _ => .ok ()) rfl ho rfl rfl
  · exact raises (o := .recvBuf) (read := fun _ => .ok ()) rfl ho rfl rfl
  · obtain ⟨_, hr⟩ := State.bufQuad_of_isSome (a := 4) hsome (by omega) hcap
    exact raises (o := .recvI32) (read := fun t => t.bufQuad 4) rfl ho rfl hr
  · obtain ⟨_, hr⟩ := State.bufLoad_of_isSome (a := 4) (n := 8) hsome (by omega) hcap
    exact raises (o := .recvU64) (read := fun t => t.bufLoad 4 8) rfl ho rfl hr
  · obtain ⟨_, hr⟩ := State.bufLoad_of_isSome (a := 4) (n := 1) hsome (by omega) hcap
    exact raises (o := .recvBool) (read := fun t => t.bufLoad 4 1) rfl ho rfl hr

/-- Of the kinds of step from `BUSY` only the finish takes the ProtocolError (R135, R205). -/
theorem StepKind.finished_of_protocolError {u t : State} (h : StepKind u t) (hb : u.status = .busy)
    (he : t.status = .errProtocol) : u.pend = false ∧ u.cnt = u.len ∧ Finished u t := by
  have moved : t.status ≠ u.status := fun h => absurd (he.symm.trans (h.trans hb)) nofun
  cases h with
  | idle h => exact absurd (congrArg State.status h :) moved
  | codec v hnb _ _ => exact absurd hb hnb
  | begun v o hnb _ _ => exact absurd hb hnb
  | issue _ _ _ h => exact absurd (congrArg State.status h :) moved
  | finished o _ _ hp hc h => exact ⟨hp, hc, h⟩
  | noAnswer act rest _ _ h => exact absurd (congrArg State.status h :) moved
  | error act rest _ _ h => exact absurd ((congrArg State.status h).symm.trans he) nofun
  | sent act rest k bs _ _ _ _ _ h => exact absurd (congrArg State.status h :) moved
  | received act rest d _ _ _ _ _ h => exact absurd (congrArg State.status h :) moved
  | late sent got h => exact absurd (congrArg State.status h :) moved

/-- A finish that takes the ProtocolError expected the peer's magic (R169, R202). -/
theorem Finished.errExp_of_protocolError {s t : State} (h : Finished s t) (he : t.status = .errProtocol) :
    t.errExp = 0x112233#24 := by
  rcases h.status with ⟨hdone, _⟩ | ⟨_, hexp, _⟩
  · exact absurd (he.symm.trans hdone) nofun
  · exact hexp

/-- Settles O37: a reset ends in `IDLE`, so the step is the finish, which moves no byte across the port. -/
theorem protocolErrorOnlyAfterTheWholeFrame : Obligations.ProtocolErrorOnlyAfterTheWholeFrame := by
  intro s t hstep hb he
  rcases stepKind_of_step hstep with ⟨ts, _, rfl⟩ | ⟨ts, hkind⟩
  · exact absurd he nofun
  · obtain ⟨hp, hc, hfin⟩ := hkind.finished_of_protocolError hb he
    exact ⟨hp, hc, hfin.errExp_of_protocolError he, hfin.txs, hfin.rxs⟩

end Sys2Proof.Machine

/-! SUPPORT. Reset, and the late moves of the attempts it orphans (70_reset_and_hazards R230, R231; 10_state R36). -/

namespace Sys2Proof.Machine

/-! ### Late moves of an orphaned attempt (R231, U10) -/

section
variable {s : State} {w k : Nat} {data : List Byte}

theorem State.lateMove_tx {offered : List Byte} (ho : s.orphans[w]? = some (.tx offered)) (hk : k ≤ offered.length) :
    s.lateMove w k data = .next { s with
      txs := s.txs ++ offered.take k, orphans := s.orphans.set w (.tx (offered.drop k)) } := by
  rw [State.lateMove, ho]
  exact if_pos hk

theorem State.lateMove_tx_beyond {offered : List Byte} (ho : s.orphans[w]? = some (.tx offered))
    (hk : offered.length < k) : s.lateMove w k data = .refused (.lateBeyondOrphan w k) := by
  rw [State.lateMove, ho]
  exact if_neg (Nat.not_le_of_lt hk)

theorem State.lateMove_rx {asked : Nat} (ho : s.orphans[w]? = some (.rx asked)) (hk : k ≤ asked)
    (hdata : data.length = k) :
    s.lateMove w k data = .next { s with
      rxLost := s.rxLost ++ data, orphans := s.orphans.set w (.rx (asked - k)) } := by
  rw [State.lateMove, ho]
  exact if_pos ⟨hk, hdata⟩

theorem State.lateMove_rx_outside {asked : Nat} (ho : s.orphans[w]? = some (.rx asked))
    (hk : asked < k ∨ data.length ≠ k) : s.lateMove w k data = .refused (.lateBeyondOrphan w k) := by
  rw [State.lateMove, ho]
  exact if_neg (by omega)

theorem State.lateMove_of_no_orphan (hw : s.orphans.length ≤ w) :
    s.lateMove w k data = .refused (.lateBeyondOrphan w k) := by
  rw [State.lateMove, List.getElem?_eq_none hw]

/-- At the transport's turn a late move runs on the state less that move and that turn. -/
theorem step_late {ts : List Turn} {rest : List TransportAct} (hts : s.turns = .transport :: ts)
    (hx : s.transportIn = .late w k data :: rest) :
    step s = ((s.setTurns ts).setTransportIn rest).lateMove w k data :=
  (step_of_turn hts).trans (transportTurn_late (s := s.setTurns ts) hx)

end

/-- Settles O47: each clause is one case of the late move, which needs nothing of FHC's registers. -/
theorem lateMovesTouchNothingOfFhc : Obligations.LateMovesTouchNothingOfFhc := by
  intro s ts w k data rest hts hx
  rw [step_late hts hx]
  exact ⟨fun _ ho => ⟨State.lateMove_tx ho, State.lateMove_tx_beyond ho⟩,
    fun _ ho => ⟨State.lateMove_rx ho, State.lateMove_rx_outside ho⟩, fun hw => State.lateMove_of_no_orphan hw⟩

/-! ### Reset -/

theorem step_reset {s : State} {ts : List Turn} (hts : s.turns = .reset :: ts) :
    step s = .next (s.setTurns ts).platformReset :=
  step_of_turn hts

/-- Settles O1: the reset state is not busy, so the host's turn after it runs the request. -/
theorem resetPutsFhcAtItsResetValues : Obligations.ResetPutsFhcAtItsResetValues := by
  intro s ts hts
  have hidle : (s.setTurns ts).platformReset.status ≠ .busy := nofun
  exact ⟨_, step_reset hts, rfl, rfl, rfl, rfl, rfl, rfl, rfl, rfl, rfl, rfl, fun _ _ _ hdec =>
    step_request rfl rfl hidle hdec⟩

/-! ### A reset with an attempt outstanding, and a late move of that attempt (log 13) -/

section
variable {s : State}

/-- A send's attempt leaves behind the bytes of `BUF` it offers. -/
theorem State.orphanNow_tx {offered : List Byte} (hp : s.pend = true) (hd : s.dir = some .tx)
    (hoffered : s.buf.readBytes s.cnt (s.len - s.cnt) = some offered) : s.orphanNow = [.tx offered] := by
  simp [State.orphanNow, hp, hd, hoffered]

/-- A receive's attempt leaves behind the number of bytes it asks. -/
theorem State.orphanNow_rx (hp : s.pend = true) (hd : s.dir = some .rx) :
    s.orphanNow = [.rx (s.len - s.cnt)] := by
  simp [State.orphanNow, hp, hd]

variable {o : Orphan} (ho : s.orphanNow = [o])
include ho

/-- The orphan of a reset stands behind those of the resets before it. -/
theorem State.platformReset_orphans_of_attempt : s.platformReset.orphans = s.orphans ++ [o] := by
  rw [State.platformReset_orphans, ho]

theorem State.platformReset_newest_orphan : s.platformReset.orphans[s.orphans.length]? = some o := by
  rw [State.platformReset_orphans_of_attempt ho, List.getElem?_concat_length]

/-- What is left of the newest orphan takes its place; the older ones stay. -/
theorem State.platformReset_set_newest_orphan (o' : Orphan) :
    s.platformReset.orphans.set s.orphans.length o' = s.orphans ++ [o'] := by
  rw [State.platformReset_orphans_of_attempt ho, List.set_append_right _ _ (Nat.le_refl _), Nat.sub_self,
    List.set_cons_zero]

end

/-- Settles O2: the reset leaves the bytes on offer as the newest orphan, and the late move is O47's of that orphan. -/
theorem resetOrphansTheOutstandingSend : Obligations.ResetOrphansTheOutstandingSend := by
  intro s ts offered k data rest hts hp hd hoffered hx hk
  let r : State := s.setTurns (.transport :: ts)
  have ho : r.orphanNow = [.tx offered] := State.orphanNow_tx hp hd hoffered
  obtain ⟨hsend, -, -⟩ := lateMovesTouchNothingOfFhc r.platformReset ts r.orphans.length k data rest rfl hx
  have hlate := (hsend offered (State.platformReset_newest_orphan ho)).1 hk
  rw [State.platformReset_set_newest_orphan ho] at hlate
  exact ⟨_, _, step_reset hts, rfl, rfl, State.platformReset_orphans_of_attempt ho, hlate, rfl⟩

/-- Settles O46: the reset leaves the number of bytes asked as the newest orphan, and the late move is O47's of that
orphan. -/
theorem resetOrphansTheOutstandingReceive : Obligations.ResetOrphansTheOutstandingReceive := by
  intro s ts k data rest hts hp hd hx hk hdata
  let r : State := s.setTurns (.transport :: ts)
  have ho : r.orphanNow = [.rx (s.len - s.cnt)] := State.orphanNow_rx hp hd
  obtain ⟨-, hreceive, -⟩ := lateMovesTouchNothingOfFhc r.platformReset ts r.orphans.length k data rest rfl hx
  have hlate := (hreceive _ (State.platformReset_newest_orphan ho)).1 hk hdata
  rw [State.platformReset_set_newest_orphan ho] at hlate
  exact ⟨_, _, step_reset hts, rfl, rfl, State.platformReset_orphans_of_attempt ho, hlate, rfl⟩

end Sys2Proof.Machine
